-- ==== Sys2Proof/Word.lean ====
section
/-! DEFINITION. The word types of WY50-VCORE (spec 00_scope.md R9, R10): 32-bit registers and addresses, memory bytes, 2-bit pixels, and byte offsets inside the 512-byte register window. -/

namespace Sys2Proof

/-- A 32-bit register value or system byte address (R9: REG_W = ADDR_W = 32). -/
abbrev Word := BitVec 32

/-- A byte of system memory (R80). -/
abbrev Byte := BitVec 8

/-- A 2-bit pixel value (R117, R255). -/
abbrev Pixel := BitVec 2

/-- A byte offset from REG_BASE inside the 512-byte register window (R35). -/
abbrev RegOffset := BitVec 9

end Sys2Proof
end

