-- ==== Sys2Proof/Syntax.lean ====
section
/-! DEFINITION. The instructions of WY50-VCORE: one constructor per row of spec/opcode_table.json, the sixteen commands (spec 30_encoding.md R118) and the timing word TW (R112). -/

namespace Sys2Proof

/-- The write operators SET, XOR and AND (R116, R252). OP = 3 names no operator (R117). -/
inductive WriteOp where
  | set
  | xor
  | and
  deriving DecidableEq, Repr

/-- The instructions. The other operands of a command are the ARG registers of the port that issues it (R117, R121). -/
inductive Instr where
  | init
  | cleanup
  | validate
  | setMode
  | start
  | stop
  | publish
  | waitFrame
  | getWidth
  | getHeight
  | getStride
  | setPlane
  | setPixel (op : WriteOp) (v : Pixel)
  | setFont
  | drawGlyph (op : WriteOp) (fg bg : Pixel)
  | drawGlyphBulk (op : WriteOp) (fg bg : Pixel)
  | tw (dur : BitVec 16) (hs vs trig : Bool)
  deriving DecidableEq, Repr

/-- Whether the instruction is a command, stored to CMD (R116), rather than a timing word. -/
def Instr.isCommand : Instr → Bool
  | .init | .cleanup | .validate | .setMode | .start | .stop | .publish | .waitFrame
  | .getWidth | .getHeight | .getStride | .setPlane | .setPixel _ _ | .setFont
  | .drawGlyph _ _ _ | .drawGlyphBulk _ _ _ => true
  | .tw _ _ _ _ => false

end Sys2Proof
end

