-- ==== Sys2Proof/WellFormed.lean ====
section
/-! DEFINITION. When an instruction is legal beyond its shape (spec 30_encoding.md R114). The operand types of Syntax already exclude OP = 3, a non-zero RSV and a non-zero unused field (R120); the one check left is DUR of a timing word. -/

namespace Sys2Proof

/-- R114 (a): a timing word with DUR = 0 is illegal. Every command the syntax can write is legal (R117: no pixel value operand can be out of range). -/
def Instr.wellFormed : Instr → Bool
  | .tw dur _ _ _ => dur != 0#16
  | .init | .cleanup | .validate | .setMode | .start | .stop | .publish | .waitFrame
  | .getWidth | .getHeight | .getStride | .setPlane | .setPixel _ _ | .setFont
  | .drawGlyph _ _ _ | .drawGlyphBulk _ _ _ => true

end Sys2Proof
end

