-- ==== Sys2Proof/Decode.lean ====
section
/-! DEFINITION. The decoders of the two 32-bit encodings (spec 30_encoding.md R110 to R121), total on every word and rejecting by name, and after them the encoder, written from the same tables. A command word is decoded when a host stores it to CMD (R116), a timing word when TGEN takes it from its FIFO (R112); which of the two a word is depends only on where it goes. -/

namespace Sys2Proof

/-- Why a word is no instruction. Every one of these in a command word is F_OPCODE (R120); in a timing word it is the model fault of R114. -/
inductive DecodeError where
  /-- RSV is not 0 (R120 (b), R114 (b)). -/
  | reservedBits
  /-- OPC is unassigned (R120 (a)). -/
  | unassignedOpcode
  /-- A field the command does not use is not 0 (R120 (c), R119). -/
  | unusedField
  /-- OP = 3 where OP is used (R120 (d)). -/
  | reservedOperator
  deriving DecidableEq, Repr

/-- A row of the opcode map (R118): a command with no CW fields, or one of the three that use OP and V, the glyph commands BG too. -/
inductive OpcodeRow where
  | bare (i : Instr)
  | pixel
  | glyph
  | glyphBulk
  deriving DecidableEq, Repr

/-- The opcode map (R118). -/
def opcodeRow : Nat → Option OpcodeRow
  | 0x01 => some (.bare .init)
  | 0x02 => some (.bare .cleanup)
  | 0x03 => some (.bare .validate)
  | 0x04 => some (.bare .setMode)
  | 0x05 => some (.bare .start)
  | 0x06 => some (.bare .stop)
  | 0x07 => some (.bare .publish)
  | 0x08 => some (.bare .waitFrame)
  | 0x09 => some (.bare .getWidth)
  | 0x0A => some (.bare .getHeight)
  | 0x0B => some (.bare .getStride)
  | 0x10 => some (.bare .setPlane)
  | 0x11 => some .pixel
  | 0x18 => some (.bare .setFont)
  | 0x19 => some .glyph
  | 0x1A => some .glyphBulk
  | _ => none

/-- The OP field (R116): 0 = SET, 1 = XOR, 2 = AND, 3 reserved. -/
def writeOpOf (op : BitVec 2) : Option WriteOp :=
  match op.toNat with
  | 0 => some .set
  | 1 => some .xor
  | 2 => some .and
  | _ => none

/-- OPC, CW[7:0] (R116). -/
def cwOpc (w : Word) : BitVec 8 := w.extractLsb' 0 8
/-- OP, CW[9:8] (R116). -/
def cwOp (w : Word) : BitVec 2 := w.extractLsb' 8 2
/-- V, CW[11:10] (R116); the foreground value in the glyph commands. -/
def cwV (w : Word) : Pixel := w.extractLsb' 10 2
/-- BG, CW[13:12] (R116). -/
def cwBg (w : Word) : Pixel := w.extractLsb' 12 2
/-- RSV, CW[31:14] (R116). -/
def cwRsv (w : Word) : BitVec 18 := w.extractLsb' 14 18

/-- The decoder of command words: R120's pseudocode, each refusal under its own name. -/
def decodeCommand (w : Word) : Except DecodeError Instr :=
  if cwRsv w ≠ 0#18 then .error .reservedBits
  else match opcodeRow (cwOpc w).toNat with
    | none => .error .unassignedOpcode
    | some (.bare i) =>
      if cwOp w = 0#2 ∧ cwV w = 0#2 ∧ cwBg w = 0#2 then .ok i else .error .unusedField
    | some .pixel =>
      if cwBg w ≠ 0#2 then .error .unusedField
      else match writeOpOf (cwOp w) with
        | none => .error .reservedOperator
        | some op => .ok (.setPixel op (cwV w))
    | some .glyph =>
      match writeOpOf (cwOp w) with
      | none => .error .reservedOperator
      | some op => .ok (.drawGlyph op (cwV w) (cwBg w))
    | some .glyphBulk =>
      match writeOpOf (cwOp w) with
      | none => .error .reservedOperator
      | some op => .ok (.drawGlyphBulk op (cwV w) (cwBg w))

/-- DUR, TW[15:0] (R112). -/
def twDur (w : Word) : BitVec 16 := w.extractLsb' 0 16
/-- HS, TW[16] (R112). -/
def twHs (w : Word) : Bool := w.getLsbD 16
/-- VS, TW[17] (R112). -/
def twVs (w : Word) : Bool := w.getLsbD 17
/-- TRIG, TW[18] (R112). -/
def twTrig (w : Word) : Bool := w.getLsbD 18
/-- RSV, TW[31:19] (R112). -/
def twRsv (w : Word) : BitVec 13 := w.extractLsb' 19 13

/-- The decoder of timing words (R112, R113). A non-zero RSV is refused (R114 (b)). DUR = 0 is read as the operand it is and is ill-formed; TW's own meaning stops on it (R210, log M28). -/
def decodeTiming (w : Word) : Except DecodeError Instr :=
  if twRsv w ≠ 0#13 then .error .reservedBits
  else .ok (.tw (twDur w) (twHs w) (twVs w) (twTrig w))

/-- Whether a word is a legal timing word (R114): DUR is not 0 and RSV is 0. -/
def twLegal (w : Word) : Bool := twDur w != 0#16 && twRsv w == 0#13

/-- Forgets why a word was refused. -/
def decodedOrNone : Except DecodeError Instr → Option Instr
  | .ok i => some i
  | .error _ => none

/-- A word of the opcode table, read as the table's rows read it: as a command where it is a legal command word, otherwise as a timing word. The table's CW rows and its TW row share the words below 0x80000 (TW 1 and INIT are both 0x00000001), so the order is the model's (log M4). -/
def decodeWord (w : Word) : Option Instr :=
  match decodeCommand w with
  | .ok i => some i
  | .error _ => decodedOrNone (decodeTiming w)

/-- The instruction the decoder reads from a word of the opcode table, numbered as the table numbers it: every instruction is one 32-bit word (R110), and bits above nbits are 0. -/
def decodeTableWord (nbits w : Nat) : Option Instr :=
  decodeWord (BitVec.ofNat 32 (w % 2 ^ nbits))

/-- The OP field of an operator (R116). -/
def writeOpField : WriteOp → BitVec 2
  | .set => 0#2
  | .xor => 1#2
  | .and => 2#2

/-- A command word laid out from its fields (R116). -/
def cwAssemble (opc : BitVec 8) (op v bg : BitVec 2) : Word := 0#18 ++ bg ++ v ++ op ++ opc

/-- A timing word laid out from its fields (R112): 13 zero bits, TRIG, VS, HS, DUR. -/
def twAssemble (dur : BitVec 16) (hs vs trig : Bool) : Word :=
  0#13 ++ BitVec.ofBool trig ++ BitVec.ofBool vs ++ BitVec.ofBool hs ++ dur

/-- The encoder (R112, R116, R118). -/
def encode : Instr → Word
  | .init => cwAssemble 0x01#8 0 0 0
  | .cleanup => cwAssemble 0x02#8 0 0 0
  | .validate => cwAssemble 0x03#8 0 0 0
  | .setMode => cwAssemble 0x04#8 0 0 0
  | .start => cwAssemble 0x05#8 0 0 0
  | .stop => cwAssemble 0x06#8 0 0 0
  | .publish => cwAssemble 0x07#8 0 0 0
  | .waitFrame => cwAssemble 0x08#8 0 0 0
  | .getWidth => cwAssemble 0x09#8 0 0 0
  | .getHeight => cwAssemble 0x0A#8 0 0 0
  | .getStride => cwAssemble 0x0B#8 0 0 0
  | .setPlane => cwAssemble 0x10#8 0 0 0
  | .setPixel op v => cwAssemble 0x11#8 (writeOpField op) v 0
  | .setFont => cwAssemble 0x18#8 0 0 0
  | .drawGlyph op fg bg => cwAssemble 0x19#8 (writeOpField op) fg bg
  | .drawGlyphBulk op fg bg => cwAssemble 0x1A#8 (writeOpField op) fg bg
  | .tw dur hs vs trig => twAssemble dur hs vs trig

/-- The decoder an instruction's words go to: CMD for a command, TGEN for a timing word. -/
def decodeFor (i : Instr) (w : Word) : Except DecodeError Instr :=
  if i.isCommand then decodeCommand w else decodeTiming w

end Sys2Proof
end

