-- ==== Sys2Proof/Config.lean ====
section
/-! DEFINITION. What the implementation fixes (spec 00_scope.md R9) and what the environment chooses. The OPEN parameters stand in `Platform`, plain data that State carries, so that a claim about every state is a claim for every value of them. The order in which agents step (R8, R92) is a list of `Turn`s in State; when the list is empty, the next turn is the free value `Config.freeTurn`. -/

namespace Sys2Proof

/-- The OPEN parameters of R9, but for N_PORTS, which is the number of ports State holds, and RES_OK, which each turn draws (log M6).
`regPage` is REG_BASE div 0x200, so REG_BASE is a multiple of 0x200 by construction.
`holes` lists the address ranges (first, last) for which MEM_OK is false; 2^32 addresses are finitely many, so every predicate MEM_OK is such a list.
`hsPol`, `vsPol`, `pixPol` are HS_POL, VS_POL, PIX_POL: true where the pin carries the complement of the logical level (log M33).
`trigLat` is TRIG_LAT, in pixel clocks.
`unrealisable` lists the periods P for which PIXCLK_OK(P) is false; a mode's P is below 2^32, so every predicate PIXCLK_OK on them is such a list. -/
structure Platform where
  tfifoDepth : Nat
  pfifoDepth : Nat
  regPage : BitVec 23
  holes : List (Nat × Nat)
  hsPol : Bool
  vsPol : Bool
  pixPol : Bool
  trigLat : Nat
  unrealisable : List Nat
  deriving DecidableEq, Repr, Inhabited

/-- REG_BASE (R9, R35). -/
def Platform.regBase (p : Platform) : Word := p.regPage ++ 0#9

/-- What R9 asks of the FIFO depths: each at least 1. -/
def Platform.wf (p : Platform) : Bool := 1 ≤ p.tfifoDepth && 1 ≤ p.pfifoDepth

/-- The platform State.reset takes. DESIGN CHOICE (log M2): REG_BASE is the value the spec's examples use (95_test_vectors.md), both FIFOs hold 16 words, every address is admitted, no pin is inverted, TRIG_LAT is 0 and every pixel period is realised. -/
def Platform.atReset : Platform :=
  { tfifoDepth := 16, pfifoDepth := 16, regPage := 0x200000#23, holes := []
    hsPol := false, vsPol := false, pixPol := false, trigLat := 0, unrealisable := [] }

/-- N_PORTS at State.reset. DESIGN CHOICE (log M2): the largest value R9 allows. -/
def Config.resetPorts : Nat := 8

/-- What another agent does between two single-byte accesses of one command (R87 item 2, R309): an agent outside the block stores a byte, or PCH or PSER steps. TCH and TGEN steps touch nothing a command reads or writes byte by byte, so they need not be listed (log M7). -/
inductive Intrusion where
  | outside (addr : Word) (value : Byte)
  | pch
  | pser
  deriving DecidableEq, Repr, Inhabited

/-- Whose turn it is: an agent of R8, an agent outside the block that stores one byte (R87, R410), or the platform reset (R470). -/
inductive Agent where
  | host (h : Nat)
  | engine
  | tch
  | tgen
  | pch
  | pser
  | outside (addr : Word) (value : Byte)
  | reset
  deriving DecidableEq, Repr, Inhabited

/-- One turn: the agent, the RES_OK draw an INIT performed in it would see (R350), and the interleaving inside the command it may perform: the k-th list happens before the command's k-th single-byte access. -/
structure Turn where
  agent : Agent
  resOk : Bool
  mid : List (List Intrusion)
  deriving DecidableEq, Repr, Inhabited

/-- The free choice of the next turn (R8: any enabled agent may step next; R92). It has no body: nothing can be proved of its values (log M1). -/
opaque Config.freeTurn : Nat → Turn

end Sys2Proof
end

