-- ==== Sys2Proof/Machine/State.lean ====
section
/-! DEFINITION. The state of WY50-VCORE (spec 10_state.md R30 to R57) as plain data, the reasons a step can stop, and the state right after reset (70_reset_and_hazards.md R471). Beside the block's own state stand system memory (R80), the hosts (R52), the schedule of turns and what the turn in progress brings (log M1, M7). -/

namespace Sys2Proof.Machine

/-- STATE, the engine state (R32). -/
inductive EngineState where
  /-- 0: resources not claimed. -/
  | uninit
  /-- 1: resources claimed; the cycle is parked or was never started. -/
  | idle
  /-- 2: the phase cycle is live. -/
  | running
  /-- 3: the current frame is in flight and the cycle parks at the next VSYNC boundary. -/
  | stopping
  deriving DecidableEq, Repr

/-- PHASE, the frame phase, in cycle order (R33). -/
inductive Phase where
  | vsync
  | postVsyncBlank
  | visible
  | postVisibleBlank
  deriving DecidableEq, Repr

/-- The fault codes STATUS.FAULT can record (R430); codes 8 to 15 are never recorded, and have no constructor. -/
inductive FaultCode where
  | none
  | opcode
  | state
  | noMode
  | bounds
  | arg
  | noTarget
  | resource
  deriving DecidableEq, Repr

/-- A Mode Descriptor (R13, R37, R42): eight 32-bit unsigned fields, in the order of STAGE[0..7]. -/
structure ModeDesc where
  hVis : Word
  vVis : Word
  tLine : Word
  nLines : Word
  nVsync : Word
  lStart : Word
  tHsync : Word
  tVis : Word
  deriving DecidableEq, Repr

/-- The plane descriptor PLANE_BASE, PLANE_STRIDE, PLANE_ROWS (R40). -/
structure PlaneDesc where
  base : Word
  stride : Word
  rows : Word
  deriving DecidableEq, Repr

/-- The font descriptor FONT_BASE, FONT_CW, FONT_CH (R41). -/
structure FontDesc where
  base : Word
  cw : Word
  ch : Word
  deriving DecidableEq, Repr

/-- What a pending command waits for (R353). -/
inductive Hold where
  /-- START, until PCH.rem = 0 (R356). -/
  | pixelChannel
  /-- CLEANUP issued in STOPPING, until STATE = IDLE (R352). -/
  | park
  /-- WAIT_FRAME, until TOKEN = 1 (R403). -/
  | frameToken
  /-- A command whose memory access fails MEM_OK: forever (R80). -/
  | memory
  deriving DecidableEq, Repr

/-- A command port (R52 to R55). `hold` says that the command in CMD is still pending, and on what; its CMD store has then not completed. -/
structure Port where
  cmd : Word
  arg0 : Word
  arg1 : Word
  arg2 : Word
  result : Word
  hold : Option Hold
  deriving DecidableEq, Repr

/-- The program TCH is armed with (R50). -/
inductive Program where
  | none
  | vsync
  | blank
  | vis
  deriving DecidableEq, Repr

/-- The timing channel (R50). -/
structure Tch where
  prog : Program
  idx : Nat
  rem : Nat
  done : Bool
  deriving DecidableEq, Repr

/-- A timing word in TGEN's FIFO, with the width H_VIS of the frame it belongs to, so that the word's TRIGGER begins a line of its own frame's mode even when SET_MODE comes while the FIFO drains (R378, log M13). -/
structure QueuedWord where
  word : Word
  width : Nat
  deriving DecidableEq, Repr

/-- The timing generator (R50): its FIFO, oldest word first, the word it is executing and the pixel clocks left in it (log M12), and the width H_VIS of the frame that word belongs to (R378, log M13). -/
structure Tgen where
  fifo : List QueuedWord
  cur : Option Word
  left : Nat
  width : Nat
  deriving DecidableEq, Repr

/-- The pixel channel (R51). `past` says that `addr` has run past the top of the address space and wrapped: the next byte does not exist (R376, log M22). -/
structure Pch where
  addr : Word
  rem : Nat
  past : Bool
  deriving DecidableEq, Repr

/-- A 32-bit framebuffer word, as its four bytes in increasing address order (R83, R84). -/
structure PixelWord where
  b0 : Byte
  b1 : Byte
  b2 : Byte
  b3 : Byte
  deriving DecidableEq, Repr

/-- A TRIGGER that PSER has not served yet: the visible line it begins and that line's width, its own frame's H_VIS (R212, R378, log M13). -/
structure LineTrigger where
  line : Nat
  width : Nat
  deriving DecidableEq, Repr

/-- The pixel serialiser (R51): its FIFO, oldest first; the pixels left in the current line (0: no line in progress), that line's index and the pixels of it already shifted; the triggers to serve; and the index the next TRIGGER's line has (log M13). -/
structure Pser where
  fifo : List PixelWord
  left : Nat
  line : Nat
  row : List Pixel
  triggers : List LineTrigger
  nextLine : Nat
  deriving DecidableEq, Repr

/-- An event of the block's event history (R12, R210, R366). -/
inductive BlockEvent where
  | frameCb
  | trigger
  deriving DecidableEq, Repr

/-- An access a host makes to the register window: a load or store of `width` bytes at a byte offset from REG_BASE (R35, R49). -/
inductive Access where
  | load (off : RegOffset) (width : Nat)
  | store (off : RegOffset) (width : Nat) (value : Word)
  deriving DecidableEq, Repr

/-- Where a host stands: free to make its next access, held in a CMD store to its own port (R52, R53), or refused for good by an access that has no meaning (R49). -/
inductive HostStatus where
  | ready
  | waiting
  | refused
  deriving DecidableEq, Repr

/-- A host context (R52): where it stands, the accesses it has still to make, in order (R91), and the last register value it loaded. -/
structure HostCtx where
  status : HostStatus
  program : List Access
  loaded : Word
  deriving DecidableEq, Repr

/-- A line PSER has shifted out: its visible line index and its pixels (R379). -/
structure ShiftedLine where
  line : Nat
  pixels : List Pixel
  deriving DecidableEq, Repr

/-- The whole machine. -/
structure State where
  /-- STATUS.STATE (R32). -/
  engine : EngineState
  /-- STATUS.PHASE (R33). -/
  phase : Phase
  /-- STATUS.MODE_VALID (R36). -/
  modeValid : Bool
  /-- STATUS.TOKEN (R36, R402). -/
  token : Bool
  /-- STATUS.PLANE_VALID (R36). -/
  planeValid : Bool
  /-- STATUS.FONT_VALID (R36). -/
  fontValid : Bool
  /-- STATUS.FAULT (R36, R430). -/
  fault : FaultCode
  /-- LIVE_HANDLE (R38). -/
  liveHandle : Word
  /-- FRAME_HANDLE (R39). -/
  frameHandle : Word
  /-- PIXWORDS (R47). -/
  pixwords : Word
  /-- PLANE_BASE, PLANE_STRIDE, PLANE_ROWS (R40). -/
  plane : PlaneDesc
  /-- FONT_BASE, FONT_CW, FONT_CH (R41). -/
  font : FontDesc
  /-- STAGE[0..7] (R37). -/
  stage : ModeDesc
  /-- MODE[0..7] (R42). -/
  mode : ModeDesc
  /-- PROG_VIS[0..3] (R43). -/
  progVis : Vector Word 4
  /-- PROG_BLANK[0..1] (R44). -/
  progBlank : Vector Word 2
  /-- PROG_VSYNC[0..1] (R45). -/
  progVsync : Vector Word 2
  /-- COUNT[0..3] (R46). -/
  count : Vector Word 4
  /-- The command ports 0 .. N_PORTS-1 (R52). -/
  ports : List Port
  /-- The timing channel (R50). -/
  tch : Tch
  /-- The timing generator (R50). -/
  tgen : Tgen
  /-- The pixel channel (R51). -/
  pch : Pch
  /-- The pixel serialiser (R51). -/
  pser : Pser
  /-- The HSYNC output (R56). -/
  hsync : Bool
  /-- The VSYNC output (R56). -/
  vsync : Bool
  /-- The PIX output (R56, R258; between steps and after a park: log M27, M30). -/
  pix : Pixel
  /-- The event history, oldest first (R12). -/
  history : List BlockEvent
  /-- TGEN's output stream: the timing words executed, oldest first (R214, R379). -/
  executed : List Word
  /-- PSER's output stream: the lines shifted out, oldest first (R379). -/
  shifted : List ShiftedLine
  /-- System memory (R80): the bytes that differ from what an unlisted address reads as (log M3), addresses strictly rising. -/
  mem : List Host.Cell
  /-- The host contexts; HOST[p] is entry p (R8, R52). -/
  hosts : List HostCtx
  /-- The refusal mark (R436, R477): some host made an access that has no meaning. -/
  refusalMark : Bool
  /-- The model's own: the port whose command is being performed. -/
  port : Nat
  /-- The model's own: the RES_OK draw of this turn (R350). -/
  resOk : Bool
  /-- The model's own: what other agents do between the single-byte accesses of the command of this turn (R87 item 2). -/
  mid : List (List Intrusion)
  /-- The model's own: the turns to come (R8, R92). -/
  sched : List Turn
  /-- The model's own: how many turns have been drawn from Config.freeTurn. -/
  freeTurns : Nat
  /-- The platform's parameters (R9). -/
  plat : Platform
  deriving DecidableEq, Repr

/-- Why the machine stops with a fault. -/
inductive Fault where
  /-- Raised by TGEN, and by TW itself, on a timing word with DUR = 0 or a non-zero RSV (R114, R210; 93_implementation_defined.md I1: the model stops with a model-level fault, no code is recorded). Safe: nothing is claimed of the machine afterwards. -/
  | illegalTimingWord (w : Word)
  deriving DecidableEq, Repr

/-- Why the machine refuses. -/
inductive Refusal where
  /-- Raised by an arm of exec whose instruction has no meaning yet; no arm raises it now. Safe. -/
  | notModelled (mnemonic : String)
  deriving DecidableEq, Repr

/-- A descriptor of zeros: STAGE and MODE at reset (R471). -/
def ModeDesc.zero : ModeDesc :=
  { hVis := 0, vVis := 0, tLine := 0, nLines := 0, nVsync := 0, lStart := 0, tHsync := 0, tVis := 0 }

/-- A port at reset (R471), with no command in progress (R470). -/
def Port.atReset : Port :=
  { cmd := 0, arg0 := 0, arg1 := 0, arg2 := 0, result := 0, hold := none }

/-- A host with nothing to do. -/
def HostCtx.atReset : HostCtx := { status := .ready, program := [], loaded := 0 }

/-- The machine right after reset (R471) on a platform with the given parameters and number of ports: every value is R471's, and no host, schedule or memory byte is supplied. -/
def State.resetOn (plat : Platform) (nPorts : Nat) : State where
  engine := .uninit
  phase := .vsync
  modeValid := false
  token := false
  planeValid := false
  fontValid := false
  fault := .none
  liveHandle := 0
  frameHandle := 0
  pixwords := 0
  plane := { base := 0, stride := 0, rows := 0 }
  font := { base := 0, cw := 0, ch := 0 }
  stage := .zero
  mode := .zero
  progVis := #v[0, 0, 0, 0]
  progBlank := #v[0, 0]
  progVsync := #v[0, 0]
  count := #v[0, 0, 0, 0]
  ports := List.replicate nPorts .atReset
  tch := { prog := .none, idx := 0, rem := 0, done := false }
  tgen := { fifo := [], cur := none, left := 0, width := 0 }
  pch := { addr := 0, rem := 0, past := false }
  pser := { fifo := [], left := 0, line := 0, row := [], triggers := [], nextLine := 0 }
  hsync := false
  vsync := false
  pix := 0
  history := []
  executed := []
  shifted := []
  mem := []
  hosts := List.replicate nPorts .atReset
  refusalMark := false
  port := 0
  resOk := false
  mid := []
  sched := []
  freeTurns := 0
  plat := plat

/-- The machine right after reset, on the platform of log M2. -/
def State.reset : State := State.resetOn Platform.atReset Config.resetPorts

end Sys2Proof.Machine
end

