-- ==== Sys2Proof/Machine/Ops.lean ====
section
/-! DEFINITION. The named operations every meaning is written over: system memory and its canonical form (spec 20_memory.md R80, R88), which addresses the platform admits (R80), the ports (10_state.md R52 to R55), holding and completing a command (44_phase_engine.md R353), and recording a fault (60_exceptions.md R432), which is this block's whole taking of an exception: there is no trap entry and no return from one (R434, R435). -/

namespace Sys2Proof.Machine

/-! ### System memory -/

/-- What an address the memory does not list reads as. The spec leaves memory's contents at reset to the platform, any value (R471, I13); the model names 0. DESIGN CHOICE, log M3, unsafe for a claim about State.reset's memory only: a claim about every state is a claim about every contents. -/
def Memory.unlisted : Byte := 0#8

/-- One byte of memory (R80). -/
def Memory.read : List Host.Cell → Nat → Byte
  | [], _ => Memory.unlisted
  | c :: rest, a => if c.1 = a then c.2 else Memory.read rest a

/-- A cell put where its address belongs. -/
def Memory.insert (a : Nat) (v : Byte) : List Host.Cell → List Host.Cell
  | [] => [(a, v)]
  | c :: rest => if a < c.1 then (a, v) :: c :: rest else c :: Memory.insert a v rest

/-- Memory without any cell at an address. -/
def Memory.erase (m : List Host.Cell) (a : Nat) : List Host.Cell := m.filter (fun c => c.1 != a)

/-- One byte stored (R88: only the byte it names changes). Storing what an unlisted address reads as removes the cell. -/
def Memory.write (m : List Host.Cell) (a : Nat) (v : Byte) : List Host.Cell :=
  if v = Memory.unlisted then Memory.erase m a else Memory.insert a v (Memory.erase m a)

/-- The canonical form of memory: addresses strictly rising and below 2^32 (R80), no cell equal to what an unlisted address reads as. -/
abbrev Memory.wf (m : List Host.Cell) : Prop :=
  m.Pairwise (fun c d => c.1 < d.1) ∧ ∀ c ∈ m, c.2 ≠ Memory.unlisted ∧ c.1 < 4294967296

/-! ### What the platform admits -/

/-- Whether an address lies in the block's own register window (R35, R81). -/
def inWindow (s : State) (a : Word) : Bool := a.extractLsb' 9 23 == s.plat.regPage

/-- MEM_OK(a) (R9, R80). The register window is not admitted to the block's own memory accesses: the spec gives a byte access to a register no meaning (R49). Log M11, safe. -/
def admits (s : State) (a : Word) : Bool :=
  !inWindow s a && !s.plat.holes.any (fun r => r.1 ≤ a.toNat && a.toNat ≤ r.2)

/-! ### Ports, holding and completing a command -/

/-- Port p; a port the block does not have reads as a port at reset. -/
def portAt (s : State) (p : Nat) : Port := (s.ports[p]?).getD Port.atReset

/-- Port p changed by f. -/
def updPort (p : Nat) (f : Port → Port) (s : State) : State :=
  { s with ports := s.ports.modify p f }

/-- RESULT of the issuing port written (R55). -/
def setResult (v : Word) (s : State) : State :=
  updPort s.port (fun q => { q with result := v }) s

/-- The command of the issuing port stays pending, with no effect (R353, R53). -/
def holdOn (h : Hold) (s : State) : State :=
  updPort s.port (fun q => { q with hold := some h }) s

/-- The command of the issuing port is no longer pending: its CMD store completes (R53). -/
def complete (s : State) : State :=
  updPort s.port (fun q => { q with hold := none }) s

/-! ### Faults -/

/-- The sticky fault record: the first fault since reset is kept (R432, R435). -/
def recordedFault (old code : FaultCode) : FaultCode := if old = .none then code else old

/-- raise Fault(code) (R432): STATUS.FAULT is recorded if it was 0, the CMD store completes, and nothing else changes. -/
def raiseFault (code : FaultCode) (s : State) : State :=
  complete { s with fault := recordedFault s.fault code }

/-! ### The platform reset -/

/-- A host context after a platform reset: a command it was held in is abandoned (R470). -/
def abandonHeld (c : HostCtx) : HostCtx :=
  match c.status with
  | .waiting => { c with status := .ready }
  | .ready => c
  | .refused => c

/-- The reset event (R470, R471): every piece of state of the block takes its reset value and the output streams start anew; system memory, the platform, the hosts' remaining programs and the refusal mark are not the block's and stay (log M20). -/
def platformReset (s : State) : State :=
  { State.resetOn s.plat s.ports.length with
    mem := s.mem
    hosts := s.hosts.map abandonHeld
    refusalMark := s.refusalMark
    sched := s.sched
    freeTurns := s.freeTurns }

end Sys2Proof.Machine
end

