-- ==== Sys2Proof/Machine/Flags.lean ====
section
/-! DEFINITION. The flags: how STATE, PHASE, FAULT and the four flag bits stand in STATUS (spec 10_state.md R32, R33, R34, R36; 60_exceptions.md R430). The block has no condition codes (R34). -/

namespace Sys2Proof.Machine

/-- The STATE encoding (R32). -/
def engineBits : EngineState → BitVec 2
  | .uninit => 0#2
  | .idle => 1#2
  | .running => 2#2
  | .stopping => 3#2

/-- The PHASE encoding (R33). -/
def phaseBits : Phase → BitVec 2
  | .vsync => 0#2
  | .postVsyncBlank => 1#2
  | .visible => 2#2
  | .postVisibleBlank => 3#2

/-- The fault codes (R430). -/
def faultBits : FaultCode → BitVec 4
  | .none => 0#4
  | .opcode => 1#4
  | .state => 2#4
  | .noMode => 3#4
  | .bounds => 4#4
  | .arg => 5#4
  | .noTarget => 6#4
  | .resource => 7#4

/-- STATUS (R36): reserved [31:16] = 0, FAULT [15:12], reserved [11:8] = 0, FONT_VALID [7], PLANE_VALID [6], TOKEN [5], MODE_VALID [4], PHASE [3:2], STATE [1:0]. -/
def statusWord (s : State) : Word :=
  0#16 ++ faultBits s.fault ++ 0#4 ++ BitVec.ofBool s.fontValid ++ BitVec.ofBool s.planeValid
    ++ BitVec.ofBool s.token ++ BitVec.ofBool s.modeValid ++ phaseBits s.phase ++ engineBits s.engine

/-- A Boolean outcome in bit 0 of RESULT (R34, R55). -/
def boolWord (b : Bool) : Word := if b then 1#32 else 0#32

end Sys2Proof.Machine
end

