-- ==== Sys2Proof/Machine/Operands.lean ====
section
/-! DEFINITION. Operands: the ARG registers of the issuing port (spec 30_encoding.md R117, R121), and the register map (10_state.md R35) with what a host load reads and a host store writes (R36 to R49, R53 to R55). -/

namespace Sys2Proof.Machine

/-- ARG0 of the issuing port, as it stands (R121). -/
def arg0 (s : State) : Word := (portAt s s.port).arg0
/-- ARG1 of the issuing port, as it stands (R121). -/
def arg1 (s : State) : Word := (portAt s s.port).arg1
/-- ARG2 of the issuing port, as it stands (R121). -/
def arg2 (s : State) : Word := (portAt s s.port).arg2

/-- The register an offset of the window names (R35). -/
inductive Reg where
  | status
  | liveHandle
  | frameHandle
  | pixwords
  | planeBase
  | planeStride
  | planeRows
  | fontBase
  | fontCw
  | fontCh
  | stage (k : Nat)
  | mode (k : Nat)
  | progVis (k : Nat)
  | progBlank (k : Nat)
  | progVsync (k : Nat)
  | count (k : Nat)
  | cmd (p : Nat)
  | arg0 (p : Nat)
  | arg1 (p : Nat)
  | arg2 (p : Nat)
  | result (p : Nat)
  | reserved
  deriving DecidableEq, Repr

/-- The register of port p's bank at word r (R35, R52): offset +0x00 CMD, +0x04 ARG0, +0x08 ARG1, +0x0C ARG2, +0x10 RESULT, the rest reserved. -/
def portReg (p : Nat) : Nat → Reg
  | 0 => .cmd p
  | 1 => .arg0 p
  | 2 => .arg1 p
  | 3 => .arg2 p
  | 4 => .result p
  | _ => .reserved

/-- The register at word k of the port banks; a bank the block does not have is reserved (R35). -/
def portRegAt (nPorts : Nat) (k : Nat) : Reg :=
  if nPorts ≤ k / 8 then .reserved else portReg (k / 8) (k % 8)

/-- The register map (R35), by word index (offset div 4). -/
def regAt (nPorts : Nat) (off : RegOffset) : Reg :=
  let i := off.toNat / 4
  if i = 0 then .status
  else if i = 1 then .liveHandle
  else if i = 2 then .frameHandle
  else if i = 3 then .pixwords
  else if i = 4 then .planeBase
  else if i = 5 then .planeStride
  else if i = 6 then .planeRows
  else if i = 8 then .fontBase
  else if i = 9 then .fontCw
  else if i = 10 then .fontCh
  else if i < 16 then .reserved
  else if i < 24 then .stage (i - 16)
  else if i < 32 then .mode (i - 24)
  else if i < 36 then .progVis (i - 32)
  else if i < 38 then .progBlank (i - 36)
  else if i < 40 then .progVsync (i - 38)
  else if i < 44 then .count (i - 40)
  else if i < 64 then .reserved
  else portRegAt nPorts (i - 64)

/-- Field k of a descriptor, in the order of STAGE[0..7] (R37, R42). -/
def descField (m : ModeDesc) : Nat → Word
  | 0 => m.hVis
  | 1 => m.vVis
  | 2 => m.tLine
  | 3 => m.nLines
  | 4 => m.nVsync
  | 5 => m.lStart
  | 6 => m.tHsync
  | 7 => m.tVis
  | _ => 0#32

/-- A descriptor with field k replaced (R37). -/
def setDescField (m : ModeDesc) (k : Nat) (v : Word) : ModeDesc :=
  match k with
  | 0 => { m with hVis := v }
  | 1 => { m with vVis := v }
  | 2 => { m with tLine := v }
  | 3 => { m with nLines := v }
  | 4 => { m with nVsync := v }
  | 5 => { m with lStart := v }
  | 6 => { m with tHsync := v }
  | 7 => { m with tVis := v }
  | _ => m

/-- What a register holds; a reserved one reads 0 (R48). -/
def regRead (s : State) : Reg → Word
  | .status => statusWord s
  | .liveHandle => s.liveHandle
  | .frameHandle => s.frameHandle
  | .pixwords => s.pixwords
  | .planeBase => s.plane.base
  | .planeStride => s.plane.stride
  | .planeRows => s.plane.rows
  | .fontBase => s.font.base
  | .fontCw => s.font.cw
  | .fontCh => s.font.ch
  | .stage k => descField s.stage k
  | .mode k => descField s.mode k
  | .progVis k => s.progVis[k]?.getD 0
  | .progBlank k => s.progBlank[k]?.getD 0
  | .progVsync k => s.progVsync[k]?.getD 0
  | .count k => s.count[k]?.getD 0
  | .cmd p => (portAt s p).cmd
  | .arg0 p => (portAt s p).arg0
  | .arg1 p => (portAt s p).arg1
  | .arg2 p => (portAt s p).arg2
  | .result p => (portAt s p).result
  | .reserved => 0#32

/-- A host store to a register other than CMD: STAGE and the ARGs are written, every other register ignores it (R37, R48, R54). A store to CMD issues a command and is not handled here. -/
def regWrite (r : Reg) (v : Word) (s : State) : State :=
  match r with
  | .stage k => { s with stage := setDescField s.stage k v }
  | .arg0 p => updPort p (fun q => { q with arg0 := v }) s
  | .arg1 p => updPort p (fun q => { q with arg1 := v }) s
  | .arg2 p => updPort p (fun q => { q with arg2 := v }) s
  | .cmd _ | .result _ | .status | .liveHandle | .frameHandle | .pixwords
  | .planeBase | .planeStride | .planeRows | .fontBase | .fontCw | .fontCh
  | .mode _ | .progVis _ | .progBlank _ | .progVsync _ | .count _ | .reserved => s

/-- Whether a register access has a meaning: 32 bits wide and aligned (R49). -/
def accessLegal (off : RegOffset) (width : Nat) : Bool := width == 4 && off.toNat % 4 == 0

/-! ### The program store as TCH addresses it -/

/-- len(q), the words of a program (R200). -/
def programLength : Program → Nat
  | .none => 0
  | .vsync => 2
  | .blank => 2
  | .vis => 4

/-- BASE(q) - REG_BASE (R86). -/
def programBase : Program → RegOffset
  | .none => 0x000#9
  | .vsync => 0x098#9
  | .blank => 0x090#9
  | .vis => 0x080#9

/-- SIZE(q), the bytes of a program (R86). -/
def programSize : Program → RegOffset
  | .none => 0#9
  | .vsync => 8#9
  | .blank => 8#9
  | .vis => 16#9

/-- ADDR(q, i) - REG_BASE = BASE(q) | ((4*i) & (SIZE(q) - 1)) (R86); REG_BASE is a multiple of 0x200, so it does not meet these bits. -/
def ringOffset (q : Program) (i : Nat) : RegOffset :=
  programBase q ||| (BitVec.ofNat 9 (4 * i) &&& (programSize q - 1#9))

/-- The word of the program store at ring index i of program q (R86, R373). -/
def programWord (s : State) (q : Program) (i : Nat) : Word :=
  regRead s (regAt s.ports.length (ringOffset q i))

end Sys2Proof.Machine
end

