-- ==== Sys2Proof/Machine/Channels.lean ====
section
/-! DEFINITION. The transfer channels (spec 44_phase_engine.md R372 to R379): arming, the TCH step, the PCH step, the PSER step, and what TGEN does with its outputs (10_state.md R56, 41_timing_program.md R211, R212). An agent whose step is not enabled has no step: its function then answers the state it was given (log M8). -/

namespace Sys2Proof.Machine

/-! ### The timing channel -/

/-- arm_T(q, n) (R372). -/
def armT (q : Program) (n : Nat) (s : State) : State :=
  { s with tch := { s.tch with prog := q, idx := 0, rem := n } }

/-- TCH is enabled when it has words to move and TGEN's FIFO has room (R373); armed with no program it has none. -/
def tchEnabled (s : State) : Bool :=
  0 < s.tch.rem && s.tgen.fifo.length < s.plat.tfifoDepth && s.tch.prog != .none

/-- The TCH step (R373): one word moved, the ring index advanced, completion raised with the last word (R374). The word carries the width of the frame it belongs to (R378): TCH moves words only while a frame is in flight, when no SET_MODE changes the mode (R160, R368). -/
def tchStep (s : State) : State :=
  if tchEnabled s then
    { s with
      tgen := { s.tgen with fifo := s.tgen.fifo ++
        [{ word := programWord s s.tch.prog s.tch.idx, width := s.mode.hVis.toNat }] }
      tch := { s.tch with
        idx := (s.tch.idx + 1) % programLength s.tch.prog
        rem := s.tch.rem - 1
        done := s.tch.done || s.tch.rem == 1 } }
  else s

/-! ### The timing generator's outputs -/

/-- TGEN with no word to execute: HSYNC = VSYNC = 0 (R56, R211). The word that was current has run out its clocks (log M12). -/
def tgenIdle (s : State) : State :=
  { s with tgen := { s.tgen with cur := none, left := 0 }, hsync := false, vsync := false }

/-- A timing word begins: TGEN drives its levels for DUR clocks and it joins the executed stream (R210, R214). -/
def beginWord (w : Word) (s : State) : State :=
  { s with
    tgen := { s.tgen with cur := some w, left := (twDur w).toNat }
    hsync := twHs w
    vsync := twVs w
    executed := s.executed ++ [w] }

/-- The visible line counter as a word begins: a vsync word begins a new frame, whose visible lines count from 0 (R215, log M13). -/
def countLines (vs : Bool) (s : State) : State :=
  if vs then { s with pser := { s.pser with nextLine := 0 } } else s

/-- TRIGGER (R210, R212): the event is emitted, and PSER owes one more line, of the H_VIS pixels of the frame the word belongs to (R378, log M13). -/
def emitTrigger (s : State) : State :=
  { s with
    history := s.history ++ [.trigger]
    pser := { s.pser with
      triggers := s.pser.triggers ++ [{ line := s.pser.nextLine, width := s.tgen.width }]
      nextLine := s.pser.nextLine + 1 } }

/-! ### The pixel channel -/

/-- arm_P(h, w) (R376). -/
def armP (h : Word) (w : Nat) (s : State) : State :=
  { s with pch := { addr := h, rem := w, past := false } }

/-- The framebuffer word at an address: four bytes in increasing address order (R83, R84). -/
def readPixelWord (s : State) (a : Word) : PixelWord :=
  { b0 := Memory.read s.mem a.toNat
    b1 := Memory.read s.mem (a + 1#32).toNat
    b2 := Memory.read s.mem (a + 2#32).toNat
    b3 := Memory.read s.mem (a + 3#32).toNat }

/-- MEM_OK for the four bytes of a framebuffer word (R80, R376). -/
def admitsWord (s : State) (a : Word) : Bool :=
  admits s a && admits s (a + 1#32) && admits s (a + 2#32) && admits s (a + 3#32)

/-- The address after the last framebuffer word, 0xFFFFFFFC, does not exist (R80): addr wraps to 0 (R11), and PCH has run past the top (R376). -/
def wrapsAfter (a : Word) : Bool := a.toNat + 4 ≥ 4294967296

/-- PCH is enabled when it has words to move, PSER's FIFO has room (R377) and the bytes exist and are admitted (R80, R376: PCH stops where they are not). -/
def pchEnabled (s : State) : Bool :=
  0 < s.pch.rem && s.pser.fifo.length < s.plat.pfifoDepth && !s.pch.past && admitsWord s s.pch.addr

/-- The PCH step (R377). -/
def pchStep (s : State) : State :=
  if pchEnabled s then
    { s with
      pser := { s.pser with fifo := s.pser.fifo ++ [readPixelWord s s.pch.addr] }
      pch := {
        addr := s.pch.addr + 4#32
        rem := s.pch.rem - 1
        past := wrapsAfter s.pch.addr } }
  else s

/-! ### The pixel serialiser -/

/-- The four pixels of a byte, MSB pair first (R82, R83). -/
def bytePixels (b : Byte) : List Pixel :=
  [b.extractLsb' 6 2, b.extractLsb' 4 2, b.extractLsb' 2 2, b.extractLsb' 0 2]

/-- The sixteen pixels of a framebuffer word, in shifting order (R378). -/
def wordPixels (w : PixelWord) : List Pixel :=
  bytePixels w.b0 ++ bytePixels w.b1 ++ bytePixels w.b2 ++ bytePixels w.b3

/-- PSER begins the line of its oldest unserved trigger (R212, R378). -/
def pserBegin (t : LineTrigger) (rest : List LineTrigger) (s : State) : State :=
  { s with pser := { s.pser with left := t.width, line := t.line, row := [], triggers := rest } }

/-- PSER shifts out one word of the line in progress (R378). With the last pixel the line joins the output stream (R379) and PIX returns to 00 (R258). A line that lags behind a park or a CLEANUP is shifted out all the same, so PIX may then be non-zero in IDLE or UNINIT, where R258 has it 00; within the deadline of R482 the case does not arise (90_conflicts.md C6). DESIGN CHOICE, log M30. -/
def pserShift (w : PixelWord) (rest : List PixelWord) (s : State) : State :=
  let px := (wordPixels w).take s.pser.left
  let row := s.pser.row ++ px
  if s.pser.left ≤ 16 then
    { s with
      pser := { s.pser with fifo := rest, left := 0, row := [] }
      pix := 0#2
      shifted := s.shifted ++ [{ line := s.pser.line, pixels := row }] }
  else
    { s with
      pser := { s.pser with fifo := rest, left := s.pser.left - 16, row := row }
      pix := px.getLastD 0#2 }

/-- PSER is enabled when it has a trigger to serve, or a line in progress and a word for it (R378). -/
def pserEnabled (s : State) : Bool :=
  if s.pser.left = 0 then !s.pser.triggers.isEmpty else !s.pser.fifo.isEmpty

/-- The PSER step (R378), one 16-pixel word at a time (log M14). A pixel word that is late is waited for: no underrun is modelled (R482, log M21). -/
def pserStep (s : State) : State :=
  if s.pser.left = 0 then
    match s.pser.triggers with
    | [] => s
    | t :: rest => pserBegin t rest s
  else
    match s.pser.fifo with
    | [] => s
    | w :: rest => pserShift w rest s

end Sys2Proof.Machine
end

