-- ==== Sys2Proof/Machine/Bus.lean ====
section
/-! DEFINITION. The single-byte memory accesses of a command (spec 20_memory.md R85, R87): a command is atomic with respect to other commands and ENGINE steps, while PCH and agents outside the block may act between its accesses (R87 item 2, R309). What they do there is the turn's `mid` (log M7). -/

namespace Sys2Proof.Machine

/-- An agent outside the block stores one byte (R87, R410). A byte store into the register window is no register access that has a meaning (R49): it changes nothing and leaves the refusal mark (log M29). MEM_OK is asked of the block's own accesses only (R80), so a byte it is false on is stored too: DESIGN CHOICE, log M36. -/
def outsideStore (a : Word) (v : Byte) (s : State) : State :=
  if inWindow s a then { s with refusalMark := true }
  else { s with mem := Memory.write s.mem a.toNat v }

/-- One thing another agent does inside a command. -/
def runIntrusion (i : Intrusion) (s : State) : State :=
  match i with
  | .outside a v => outsideStore a v s
  | .pch => pchStep s
  | .pser => pserStep s

/-- What other agents do before the command's next single-byte access. -/
def takeIntrusions (s : State) : State :=
  match s.mid with
  | [] => s
  | now :: later => now.foldl (fun t i => runIntrusion i t) { s with mid := later }

/-- MemRead(a, 1) by a command (R12, R88). -/
def busRead (a : Word) (s : State) : Byte × State :=
  let t := takeIntrusions s
  (Memory.read t.mem a.toNat, t)

/-- MemWrite(a, 1, v) by a command (R12, R88). -/
def busWrite (a : Word) (v : Byte) (s : State) : State :=
  let t := takeIntrusions s
  { t with mem := Memory.write t.mem a.toNat v }

/-- Whether MEM_OK holds for every byte a command would access (R80, R309). -/
def admitsAll (s : State) (as : List Word) : Bool := as.all (admits s)

end Sys2Proof.Machine
end

