-- ==== Sys2Proof/Machine/Engine.lean ====
section
/-! DEFINITION. The frame phase sequencer and the commands that control it: INIT, CLEANUP, START and STOP, the four phase entries and the ENGINE step (spec 44_phase_engine.md R350 to R371). -/

namespace Sys2Proof.Machine

/-! ### Phase entries -/

/-- The VSYNC-phase entry (R360, R361). -/
def vsyncEntry (s : State) : State :=
  armP s.liveHandle s.pixwords.toNat
    { armT .vsync (2 * s.count[0].toNat) s with phase := .vsync, frameHandle := s.liveHandle }

/-- The POST_VSYNC_BLANK entry (R363). -/
def postVsyncBlankEntry (s : State) : State :=
  { armT .blank (2 * s.count[1].toNat) s with phase := .postVsyncBlank }

/-- The VISIBLE entry (R364). -/
def visibleEntry (s : State) : State :=
  { armT .vis (4 * s.count[2].toNat) s with phase := .visible }

/-- The POST_VISIBLE_BLANK entry (R365, R366): the channel is armed, the token released, FRAME_CB emitted. -/
def postVisibleBlankEntry (s : State) : State :=
  { armT .blank (2 * s.count[3].toNat) s with
    phase := .postVisibleBlank
    token := true
    history := s.history ++ [.frameCb] }

/-- The park (R367): the cycle collapses to its fixed point. TGEN's FIFO drains after it (R368; R99 has it empty, log M32). -/
def park (s : State) : State :=
  { s with phase := .vsync, tch := { s.tch with prog := .none }, engine := .idle }

/-! ### The ENGINE step -/

/-- The ENGINE step is enabled by a completion event and, if it would perform a VSYNC entry, by PCH.rem = 0 (R362, R367). -/
def engineEnabled (s : State) : Bool :=
  s.tch.done &&
    (if s.phase = .postVisibleBlank ∧ s.engine = .running then s.pch.rem == 0 else true)

/-- What the ENGINE step does once the completion event is consumed (R367). -/
def enterNextPhase (s : State) : State :=
  match s.phase with
  | .vsync => postVsyncBlankEntry s
  | .postVsyncBlank => visibleEntry s
  | .visible => postVisibleBlankEntry s
  | .postVisibleBlank => if s.engine = .running then vsyncEntry s else park s

/-- The ENGINE step (R367). -/
def engineStep (s : State) : State :=
  if engineEnabled s then enterNextPhase { s with tch := { s.tch with done := false } } else s

/-! ### The commands -/

/-- INIT (R350, R351): the RES_OK draw is the turn's (log M6). -/
def execInit (s : State) : Host.Outcome State Fault Refusal :=
  .next
    (if s.engine ≠ .uninit then raiseFault .state s
     else if s.resOk = false then raiseFault .resource s
     else { s with engine := .idle, phase := .vsync, token := false })

/-- CLEANUP issued anew (R352). -/
def cleanupIssued (s : State) : State :=
  match s.engine with
  | .uninit => s
  | .idle => { s with engine := .uninit }
  | .running => raiseFault .state s
  | .stopping => holdOn .park s

/-- CLEANUP already held in STOPPING: it performs at a step at which STATE = IDLE and keeps holding otherwise (R352, R353, log M9). -/
def cleanupHeld (s : State) : State :=
  if s.engine = .idle then complete { s with engine := .uninit } else s

/-- CLEANUP (R352). -/
def execCleanup (s : State) : Host.Outcome State Fault Refusal :=
  .next (if (portAt s s.port).hold = some .park then cleanupHeld s else cleanupIssued s)

/-- START (R356): the prime, unless a check faults or the pixel channel is still busy. -/
def execStart (s : State) : Host.Outcome State Fault Refusal :=
  .next
    (if s.engine ≠ .idle then raiseFault .state s
     else if s.modeValid = false then raiseFault .noMode s
     else if s.pch.rem ≠ 0 then holdOn .pixelChannel s
     else complete (vsyncEntry { s with engine := .running }))

/-- STOP (R358). -/
def execStop (s : State) : Host.Outcome State Fault Refusal :=
  .next
    (match s.engine with
     | .uninit => raiseFault .state s
     | .idle => s
     | .stopping => s
     | .running => { s with engine := .stopping })

end Sys2Proof.Machine
end

