-- ==== Sys2Proof/Machine/Plane.lean ====
section
/-! DEFINITION. The packed pixel plane: SET_PLANE, SET_PIXEL and the write operators (spec 42_pixel_plane.md R250 to R254). -/

namespace Sys2Proof.Machine

/-- pix_in_bounds(x, y), integer arithmetic (R252). -/
def pixInBounds (s : State) (x y : Nat) : Bool :=
  decide (x < 4 * s.plane.stride.toNat) && decide (y < s.plane.rows.toNat)

/-- The plane byte i of row y (R250, R308); address arithmetic is modulo 2^32 (R11), and wraps in no plane SET_PLANE accepts (R251). -/
def planeByteAddr (s : State) (i y : Nat) : Word :=
  BitVec.ofNat 32 (s.plane.base.toNat + y * s.plane.stride.toNat + i)

/-- pix_addr(x, y) (R252). -/
def pixAddr (s : State) (x y : Nat) : Word := planeByteAddr s (x / 4) y

/-- pix_shift(x) (R252). -/
def pixShift (x : Nat) : Nat := 6 - 2 * (x % 4)

/-- A byte under a write operator: `mask` covers the fields written, `pat` holds their values (R308). -/
def applyMasked (op : WriteOp) (b mask pat : Byte) : Byte :=
  match op with
  | .set => (b &&& ~~~mask) ||| pat
  | .xor => b ^^^ pat
  | .and => b &&& (pat ||| ~~~mask)

/-- The mask 3 << s of one field (R252). -/
def fieldMask (sh : Nat) : Byte := 3#8 <<< sh

/-- The value v << s of one field (R252). -/
def fieldValue (sh : Nat) (v : Pixel) : Byte := v.setWidth 8 <<< sh

/-- apply_op(b, s, v, op) (R252). -/
def applyOp (op : WriteOp) (b : Byte) (sh : Nat) (v : Pixel) : Byte :=
  applyMasked op b (fieldMask sh) (fieldValue sh v)

/-- The read-modify-write of one pixel (R253, R306). -/
def drawPixel (op : WriteOp) (v : Pixel) (x y : Nat) (s : State) : State :=
  let r := busRead (pixAddr s x y) s
  busWrite (pixAddr s x y) (applyOp op r.1 (pixShift x) v) r.2

/-- SET_PLANE (R251). -/
def execSetPlane (s : State) : Host.Outcome State Fault Refusal :=
  let base := arg0 s
  let stride := arg1 s
  let rows := arg2 s
  if stride = 0#32 ∨ rows = 0#32 then .next (raiseFault .arg s)
  else if 4294967296 < base.toNat + stride.toNat * rows.toNat then .next (raiseFault .arg s)
  else .next { s with plane := { base := base, stride := stride, rows := rows }, planeValid := true }

/-- SET_PIXEL (R253). -/
def execSetPixel (op : WriteOp) (v : Pixel) (s : State) : Host.Outcome State Fault Refusal :=
  let x := (arg0 s).toNat
  let y := (arg1 s).toNat
  if s.planeValid = false then .next (raiseFault .noTarget s)
  else if pixInBounds s x y = false then .next (raiseFault .bounds s)
  else if admits s (pixAddr s x y) = false then .next (holdOn .memory s)
  else .next (drawPixel op v x y s)

end Sys2Proof.Machine
end

