-- ==== Sys2Proof/Machine/Font.lean ====
section
/-! DEFINITION. The bitmap font glyph expander: SET_FONT, DRAW_GLYPH and DRAW_GLYPH_BULK (spec 43_font_blitter.md R300 to R312). -/

namespace Sys2Proof.Machine

/-- FONT_CW as a count (R41). -/
def fontCw (s : State) : Nat := s.font.cw.toNat

/-- FONT_CH as a count (R41). -/
def fontCh (s : State) : Nat := s.font.ch.toNat

/-- A byte of the font: byte k of font row `rowidx`, rows of 2*cw bytes (R300, R302). -/
def fontByteAddr (s : State) (rowidx k : Nat) : Word :=
  BitVec.ofNat 32 (s.font.base.toNat + rowidx * (2 * fontCw s) + k)

/-- The font row of row r of glyph c (R302). -/
def fontRow (s : State) (c r : Nat) : Nat := c / 16 * fontCh s + r

/-- The bit offset, within its font row, of column col of glyph c (R302). -/
def glyphBitOffset (s : State) (c col : Nat) : Nat := c % 16 * fontCw s + col

/-! ### The per-pixel path -/

/-- glyph_bit(c, r, col) (R302). -/
def glyphBit (c r col : Nat) (s : State) : Bool × State :=
  let off := glyphBitOffset s c col
  let b := busRead (fontByteAddr s (fontRow s c r) (off / 8)) s
  (b.1.getLsbD (7 - off % 8), b.2)

/-- One pixel of the cell on the per-pixel path (R306). -/
def drawGlyphPixel (op : WriteOp) (fg bg : Pixel) (x y g : Nat) (s : State) (rc : Nat × Nat) : State :=
  let b := glyphBit g rc.1 rc.2 s
  drawPixel op (if b.1 then fg else bg) (x + rc.2) (y + rc.1) b.2

/-- The pixels of a cell as (row, column), rows outer, columns inner (R306). -/
def cellPixels (cw ch : Nat) : List (Nat × Nat) :=
  (List.range ch).flatMap (fun r => (List.range cw).map (fun col => (r, col)))

/-- The whole cell on the per-pixel path (R306). -/
def drawCell (op : WriteOp) (fg bg : Pixel) (x y g : Nat) (s : State) : State :=
  (cellPixels (fontCw s) (fontCh s)).foldl (drawGlyphPixel op fg bg x y g) s

/-! ### The bulk-row path -/

/-- row_bits(c, r) (R303): cw bits, bit cw-1 is column 0. -/
def rowBits (c r : Nat) (s : State) : BitVec 9 × State :=
  let off := glyphBitOffset s c 0
  let hi := busRead (fontByteAddr s (fontRow s c r) (off / 8)) s
  if fontCw s = 8 then (hi.1.setWidth 9, hi.2)
  else
    let lo := busRead (fontByteAddr s (fontRow s c r) (off / 8 + 1)) hi.2
    (((hi.1 ++ lo.1) >>> (16 - 9 - off % 8)).setWidth 9, lo.2)

/-- A value replicated into cw bit pairs (R307). -/
def replicatePairs (cw : Nat) (v : BitVec 18) : BitVec 18 :=
  (List.range cw).foldl (fun e k => e ||| (v <<< (2 * k))) 0#18

/-- expand(bits) (R307): the pair 01 where the bit is set, 10 where it is clear. -/
def expandBits (cw : Nat) (bits : BitVec 9) : BitVec 18 :=
  (List.range cw).foldl
    (fun e k => e ||| ((if bits.getLsbD k then 1#18 else 2#18) <<< (2 * k))) 0#18

/-- The pattern of a row: FG where the glyph's bit is set, BG elsewhere, NOT within 2cw bits (R307). -/
def rowPattern (cw : Nat) (bits : BitVec 9) (fg bg : Pixel) : BitVec 18 :=
  let m := (expandBits cw bits &&& replicatePairs cw 1#18) * 3#18
  let notM := ~~~m &&& replicatePairs cw 3#18
  (replicatePairs cw (fg.setWidth 18) &&& m) ||| (replicatePairs cw (bg.setWidth 18) &&& notM)

/-- The pair of a row pattern that holds column col (R307, R308). -/
def patternPixel (cw : Nat) (p : BitVec 18) (col : Nat) : Pixel :=
  p.extractLsb' (2 * (cw - 1 - col)) 2

/-- The columns of a cell at x that lie in plane byte i (R308). -/
def columnsIn (cw x i : Nat) : List Nat := (List.range cw).filter (fun col => (x + col) / 4 == i)

/-- mask for plane byte i (R308). -/
def byteMask (cw x i : Nat) : Byte :=
  (columnsIn cw x i).foldl (fun m col => m ||| fieldMask (pixShift (x + col))) 0#8

/-- pat for plane byte i (R308). -/
def bytePattern (cw x i : Nat) (p : BitVec 18) : Byte :=
  (columnsIn cw x i).foldl
    (fun m col => m ||| fieldValue (pixShift (x + col)) (patternPixel cw p col)) 0#8

/-- One plane byte of a row on the bulk path (R308). -/
def drawRowByte (op : WriteOp) (cw x y : Nat) (p : BitVec 18) (s : State) (i : Nat) : State :=
  let r := busRead (planeByteAddr s i y) s
  busWrite (planeByteAddr s i y) (applyMasked op r.1 (byteMask cw x i) (bytePattern cw x i p)) r.2

/-- The plane bytes a row of the cell covers, in increasing order (R308). -/
def coveredBytes (cw x : Nat) : List Nat :=
  List.range' (x / 4) ((x + cw - 1) / 4 + 1 - x / 4)

/-- One row of the cell on the bulk path (R308). -/
def drawBulkRow (op : WriteOp) (fg bg : Pixel) (x y g : Nat) (s : State) (r : Nat) : State :=
  let bits := rowBits g r s
  let p := rowPattern (fontCw s) bits.1 fg bg
  (coveredBytes (fontCw s) x).foldl (drawRowByte op (fontCw s) x (y + r) p) bits.2

/-- The whole cell on the bulk path (R308). -/
def drawCellBulk (op : WriteOp) (fg bg : Pixel) (x y g : Nat) (s : State) : State :=
  (List.range (fontCh s)).foldl (drawBulkRow op fg bg x y g) s

/-! ### What a glyph command checks -/

/-- The font bytes a glyph command reads: one a row for an 8-wide cell, two for a 9-wide one (R302, R303). -/
def glyphFontBytes (s : State) (g : Nat) : List Word :=
  (List.range (fontCh s)).flatMap (fun r =>
    let k := glyphBitOffset s g 0 / 8
    if fontCw s = 8 then [fontByteAddr s (fontRow s g r) k]
    else [fontByteAddr s (fontRow s g r) k, fontByteAddr s (fontRow s g r) (k + 1)])

/-- The plane bytes a glyph command reads and writes (R306, R308). -/
def glyphPlaneBytes (s : State) (x y : Nat) : List Word :=
  (List.range (fontCh s)).flatMap (fun r =>
    (coveredBytes (fontCw s) x).map (fun i => planeByteAddr s i (y + r)))

/-- glyph_checks (R305), in order, then MEM_OK for every byte the command would access (R309): the fault it raises, a hold for ever, or neither. -/
def glyphChecked (x y g : Nat) (draw : State → State) (s : State) : State :=
  if s.planeValid = false ∨ s.fontValid = false then raiseFault .noTarget s
  else if 255 < g then raiseFault .arg s
  else if pixInBounds s (x + fontCw s - 1) (y + fontCh s - 1) = false then raiseFault .bounds s
  else if admitsAll s (glyphFontBytes s g ++ glyphPlaneBytes s x y) = false then holdOn .memory s
  else draw s

/-- DRAW_GLYPH (R306). -/
def execDrawGlyph (op : WriteOp) (fg bg : Pixel) (s : State) : Host.Outcome State Fault Refusal :=
  let x := (arg0 s).toNat
  let y := (arg1 s).toNat
  let g := (arg2 s).toNat
  .next (glyphChecked x y g (drawCell op fg bg x y g) s)

/-- DRAW_GLYPH_BULK (R308). -/
def execDrawGlyphBulk (op : WriteOp) (fg bg : Pixel) (s : State) : Host.Outcome State Fault Refusal :=
  let x := (arg0 s).toNat
  let y := (arg1 s).toNat
  let g := (arg2 s).toNat
  .next (glyphChecked x y g (drawCellBulk op fg bg x y g) s)

/-- SET_FONT (R301). -/
def execSetFont (s : State) : Host.Outcome State Fault Refusal :=
  let base := arg0 s
  let cw := arg1 s
  let ch := arg2 s
  if ¬(cw = 8#32 ∨ cw = 9#32) ∨ ¬(ch = 8#32 ∨ ch = 14#32) then .next (raiseFault .arg s)
  else if 4294967296 < base.toNat + 32 * cw.toNat * ch.toNat then .next (raiseFault .arg s)
  else .next { s with font := { base := base, cw := cw, ch := ch }, fontValid := true }

end Sys2Proof.Machine
end

