-- ==== Sys2Proof/Machine/Handoff.lean ====
section
/-! DEFINITION. The double-buffer hand-off: PUBLISH and WAIT_FRAME (spec 45_handoff.md R400 to R405). -/

namespace Sys2Proof.Machine

/-- PUBLISH (R400, R401). -/
def execPublish (s : State) : Host.Outcome State Fault Refusal :=
  let h := arg0 s
  .next (if h.toNat % 4 ≠ 0 then raiseFault .arg s else { s with liveHandle := h })

/-- WAIT_FRAME (R403): holds until TOKEN = 1, then clears it in the same step. -/
def execWaitFrame (s : State) : Host.Outcome State Fault Refusal :=
  .next (if s.token then complete { s with token := false } else holdOn .frameToken s)

end Sys2Proof.Machine
end

