-- ==== Sys2Proof/Machine/Compiler.lean ====
section
/-! DEFINITION. The descriptor's arithmetic (spec 40_mode.md R152 to R156), over mathematical integers (00_scope.md R11), the timing program compiler (41_timing_program.md R204 to R207), and the waveform a word stream denotes (R214). -/

namespace Sys2Proof.Machine

/-! ### The validator -/

/-- divisible(a, b) (R11): false when b = 0. -/
def divisible (a b : Nat) : Bool := b != 0 && a % b == 0

/-- Invariant 1 (R151, R152). -/
def inv1 (m : ModeDesc) : Bool := divisible m.tVis.toNat m.hVis.toNat

/-- P as validate computes it: 0 when invariant 1 fails (R152). -/
def periodOrZero (m : ModeDesc) : Nat := if inv1 m then m.tVis.toNat / m.hVis.toNat else 0

/-- Invariant 2 (R152). -/
def inv2 (m : ModeDesc) : Bool := inv1 m && divisible m.tLine.toNat (periodOrZero m)

/-- Invariant 3 (R152). -/
def inv3 (m : ModeDesc) : Bool := m.hVis.toNat % 16 == 0

/-- Invariant 4, not strict (R154, 90_conflicts.md C1). -/
def inv4 (m : ModeDesc) : Bool :=
  decide (m.nVsync.toNat + m.lStart.toNat + m.vVis.toNat ≤ m.nLines.toNat)

/-- Invariant 5, in nanoseconds; the difference may be negative (R152, R153). -/
def inv5 (m : ModeDesc) : Bool :=
  decide ((m.tLine.toNat : Int) - (m.tVis.toNat : Int) ≠ (m.tHsync.toNat : Int))

/-- validate(m) (R152). -/
def validate (m : ModeDesc) : Bool := inv1 m && inv2 m && inv3 m && inv4 m && inv5 m

/-! ### Derived quantities (R155) -/

/-- P, the pixel period in ns. -/
def pixelPeriod (m : ModeDesc) : Nat := m.tVis.toNat / m.hVis.toNat

/-- L_CLK, the line in pixel clocks. -/
def lineClocks (m : ModeDesc) : Nat := m.tLine.toNat / pixelPeriod m

/-- H_CLK, the sync width in pixel clocks, rounded down. -/
def syncClocks (m : ModeDesc) : Nat := m.tHsync.toNat / pixelPeriod m

/-- B_CLK, the back porch in pixel clocks; a negative difference reads 0 here, and ENC6 refuses both. -/
def porchClocks (m : ModeDesc) : Nat := lineClocks m - m.hVis.toNat

/-- STRIDE, the framebuffer row size in bytes. -/
def strideBytes (m : ModeDesc) : Nat := m.hVis.toNat / 16 * 4

/-- PIXWORDS, the pixel transfer length in 32-bit words. -/
def pixWords (m : ModeDesc) : Nat := m.vVis.toNat * (strideBytes m / 4)

/-! ### Encodability (R156) -/

/-- DUR_MAX (R9). -/
def durMax : Nat := 65535

/-- COUNT_MAX (R9). -/
def countMax : Nat := 65535

/-- encodable(m) (R156), ENC1 to ENC10 in order. -/
def encodable (m : ModeDesc) : Bool :=
  decide (1 ≤ m.vVis.toNat) &&
  decide (1 ≤ m.nVsync.toNat) &&
  decide (m.nVsync.toNat + 1 ≤ m.lStart.toNat) &&
  decide (m.lStart.toNat + m.vVis.toNat + 1 ≤ m.nLines.toNat) &&
  decide (1 ≤ syncClocks m) &&
  decide (1 ≤ porchClocks m) &&
  decide (syncClocks m ≠ porchClocks m) &&
  decide (syncClocks m + 1 ≤ lineClocks m) &&
  decide (lineClocks m ≤ durMax) &&
  decide (m.nLines.toNat ≤ countMax)

/-- What SET_MODE accepts (R157, R160). -/
def accepted (m : ModeDesc) : Bool := validate m && encodable m

/-! ### The compiler -/

/-- TW dur[, HS][, VS][, TRIG] as a word (R112, R115). -/
def twWord (dur : Nat) (hs vs trig : Bool) : Word := encode (.tw (BitVec.ofNat 16 dur) hs vs trig)

/-- BLANK (R204). -/
def compileBlank (m : ModeDesc) : Vector Word 2 :=
  #v[twWord (syncClocks m) true false false,
     twWord (lineClocks m - syncClocks m) false false false]

/-- VSYNC (R205). -/
def compileVsync (m : ModeDesc) : Vector Word 2 :=
  #v[twWord (syncClocks m) true true false,
     twWord (lineClocks m - syncClocks m) false true false]

/-- VIS, the LONG-PORCH branch (R206): the sync ends before the visible region. -/
def compileVisLong (m : ModeDesc) : Vector Word 4 :=
  #v[twWord (syncClocks m) true false false,
     twWord (porchClocks m - syncClocks m) false false false,
     twWord (m.hVis.toNat / 2) false false true,
     twWord (m.hVis.toNat - m.hVis.toNat / 2) false false false]

/-- VIS, the SHORT-PORCH branch (R206): the sync overlaps the start of the visible region by b clocks, and c clocks follow it. -/
def compileVisShort (m : ModeDesc) : Vector Word 4 :=
  let b := syncClocks m - porchClocks m
  let c := lineClocks m - syncClocks m
  if 2 ≤ c then
    #v[twWord (porchClocks m) true false false,
       twWord b true false true,
       twWord (c / 2) false false false,
       twWord (c - c / 2) false false false]
  else
    #v[twWord (porchClocks m) true false false,
       twWord (b / 2) true false true,
       twWord (b - b / 2) true false false,
       twWord 1 false false false]

/-- VIS (R206). -/
def compileVis (m : ModeDesc) : Vector Word 4 :=
  if syncClocks m < porchClocks m then compileVisLong m else compileVisShort m

/-- COUNT[0..3] (R207). -/
def compileCounts (m : ModeDesc) : Vector Word 4 :=
  #v[m.nVsync,
     BitVec.ofNat 32 (m.lStart.toNat - m.nVsync.toNat),
     m.vVis,
     BitVec.ofNat 32 (m.nLines.toNat - m.lStart.toNat - m.vVis.toNat)]

/-! ### The waveform a word stream denotes (R214) -/

/-- The pixel clocks of a word stream: the sum of its DURs (R203, R214). -/
def streamClocks : List Word → Nat
  | [] => 0
  | w :: rest => (twDur w).toNat + streamClocks rest

/-- (HSYNC, VSYNC) on every pixel clock of a word stream (R214). -/
def streamLevels : List Word → List (Bool × Bool)
  | [] => []
  | w :: rest => List.replicate (twDur w).toNat (twHs w, twVs w) ++ streamLevels rest

/-- The clocks at which a word stream that starts at clock t raises TRIGGER (R210, R214). -/
def streamTriggers (t : Nat) : List Word → List Nat
  | [] => []
  | w :: rest =>
    (if twTrig w then [t] else []) ++ streamTriggers (t + (twDur w).toNat) rest

end Sys2Proof.Machine
end

