-- ==== Sys2Proof/Machine/Mode.lean ====
section
/-! DEFINITION. The mode commands VALIDATE, SET_MODE, GET_WIDTH, GET_HEIGHT and GET_STRIDE (spec 40_mode.md R158 to R165). -/

namespace Sys2Proof.Machine

/-- VALIDATE (R158): RESULT says whether STAGE is valid; nothing else changes. -/
def execValidate (s : State) : Host.Outcome State Fault Refusal :=
  .next (setResult (boolWord (validate s.stage)) s)

/-- The active mode replaced by STAGE, with its programs, counts and transfer length (R160, R207). -/
def applyMode (s : State) : State :=
  { s with
    mode := s.stage
    progBlank := compileBlank s.stage
    progVsync := compileVsync s.stage
    progVis := compileVis s.stage
    count := compileCounts s.stage
    pixwords := BitVec.ofNat 32 (pixWords s.stage)
    modeValid := true }

/-- Whether frames are in flight, so that no mode may change (R160, R162). -/
def engineBusy (s : State) : Bool := s.engine == .running || s.engine == .stopping

/-- SET_MODE (R160): a false result changes nothing but RESULT (R161). TGEN's FIFO is not looked at: after a park it may still hold words of the last frame, which are copies (R368), though R99 says that TGEN holds none (log M32). -/
def execSetMode (s : State) : Host.Outcome State Fault Refusal :=
  if engineBusy s then .next (setResult (boolWord false) s)
  else if accepted s.stage then .next (setResult (boolWord true) (applyMode s))
  else .next (setResult (boolWord false) s)

/-- A geometry query (R163 to R165): F_NO_MODE without an active mode, else a number in RESULT. -/
def geometryQuery (v : Word) (s : State) : State :=
  if s.modeValid then setResult v s else raiseFault .noMode s

/-- GET_WIDTH (R163). -/
def execGetWidth (s : State) : Host.Outcome State Fault Refusal :=
  .next (geometryQuery s.mode.hVis s)

/-- GET_HEIGHT (R164). -/
def execGetHeight (s : State) : Host.Outcome State Fault Refusal :=
  .next (geometryQuery s.mode.vVis s)

/-- GET_STRIDE (R165). -/
def execGetStride (s : State) : Host.Outcome State Fault Refusal :=
  .next (geometryQuery (BitVec.ofNat 32 (strideBytes s.mode)) s)

end Sys2Proof.Machine
end

