-- ==== Sys2Proof/Machine/Timing.lean ====
section
/-! DEFINITION. The timing word TW, executed by TGEN (spec 41_timing_program.md R210 to R214). -/

namespace Sys2Proof.Machine

/-- TW (R210): an illegal word stops the model (R114, I1); a legal one drives HSYNC and VSYNC for DUR pixel clocks and, with TRIG, raises TRIGGER at its first clock. One step is one whole word (R375). -/
def execTw (dur : BitVec 16) (hs vs trig : Bool) (s : State) : Host.Outcome State Fault Refusal :=
  let w := encode (.tw dur hs vs trig)
  if dur = 0#16 then .fault (.illegalTimingWord w)
  else
    let t := countLines vs (beginWord w s)
    .next (if trig then emitTrigger t else t)

end Sys2Proof.Machine
end

