-- ==== Sys2Proof/Machine/Dispatch.lean ====
section
/-! DEFINITION. The dispatch: one arm per constructor of Instr, each one call of that instruction's meaning (spec 30_encoding.md R118 and 41_timing_program.md R210). -/

namespace Sys2Proof.Machine

def exec (i : Instr) (s : State) : Host.Outcome State Fault Refusal :=
  match i with
  | .init => Sys2Proof.Machine.execInit s
  | .cleanup => Sys2Proof.Machine.execCleanup s
  | .validate => Sys2Proof.Machine.execValidate s
  | .setMode => Sys2Proof.Machine.execSetMode s
  | .start => Sys2Proof.Machine.execStart s
  | .stop => Sys2Proof.Machine.execStop s
  | .publish => Sys2Proof.Machine.execPublish s
  | .waitFrame => Sys2Proof.Machine.execWaitFrame s
  | .getWidth => Sys2Proof.Machine.execGetWidth s
  | .getHeight => Sys2Proof.Machine.execGetHeight s
  | .getStride => Sys2Proof.Machine.execGetStride s
  | .setPlane => Sys2Proof.Machine.execSetPlane s
  | .setPixel op v => Sys2Proof.Machine.execSetPixel op v s
  | .setFont => Sys2Proof.Machine.execSetFont s
  | .drawGlyph op fg bg => Sys2Proof.Machine.execDrawGlyph op fg bg s
  | .drawGlyphBulk op fg bg => Sys2Proof.Machine.execDrawGlyphBulk op fg bg s
  | .tw dur hs vs trig => Sys2Proof.Machine.execTw dur hs vs trig s

end Sys2Proof.Machine
end

