-- ==== Sys2Proof/Machine/Agents.lean ====
section
/-! DEFINITION. The turns of the agents (spec 00_scope.md R8): a host's register access and the command a CMD store issues (10_state.md R49, R53; 44_phase_engine.md R353), TGEN taking a word from its FIFO (R375), and the other agents' steps. An agent whose step is not enabled has no step, and its turn leaves the machine as it is (log M8). -/

namespace Sys2Proof.Machine

/-- The next state of an outcome changed by f; a stop stays as it is. -/
def mapNext (f : State → State) : Host.Outcome State Fault Refusal → Host.Outcome State Fault Refusal
  | .next s => .next (f s)
  | .fault r => .fault r
  | .refused r => .refused r

/-- A host context changed by f. -/
def updHost (h : Nat) (f : HostCtx → HostCtx) (s : State) : State :=
  { s with hosts := s.hosts.modify h f }

/-- Where HOST[h] stands once the command it issued on its port has had its step: it waits while the command is pending (R53), and goes on when it has completed. -/
def settle (h : Nat) (s : State) : State :=
  updHost h (fun c => { c with
    status := if (portAt s h).hold.isSome then .waiting else .ready }) s

/-- A command performed on port p (R53, R120): its word is decoded and executed with that port's operands; an illegal word is F_OPCODE. -/
def perform (p : Nat) (w : Word) (s : State) : Host.Outcome State Fault Refusal :=
  match decodeCommand w with
  | .ok i => exec i { s with port := p }
  | .error _ => .next (raiseFault .opcode { s with port := p })

/-- HOST[h] issues a command on its port (R52, R53): the word stays readable in CMD, also while the command is pending (log M26). -/
def issue (h : Nat) (w : Word) (s : State) : Host.Outcome State Fault Refusal :=
  mapNext (settle h) (perform h w (updPort h (fun q => { q with cmd := w }) s))

/-- HOST[h], held in a CMD store to its port, gets its turn: the command's step, if enabled (R353). An access not admitted is never enabled (R80, log M10). -/
def resume (h : Nat) (s : State) : Host.Outcome State Fault Refusal :=
  match (portAt s h).hold with
  | none => .next (settle h s)
  | some .memory => .next s
  | some .pixelChannel | some .park | some .frameToken =>
    mapNext (settle h) (perform h (portAt s h).cmd s)

/-- An access that has no meaning (R49, R436): it has no effect, the refusal mark stays, and the host has no further step (log M18). -/
def refuseAccess (h : Nat) (s : State) : State :=
  updHost h (fun c => { c with status := .refused }) { s with refusalMark := true }

/-- The access a host makes is taken from those it has still to make (R91). -/
def takeAccess (h : Nat) (s : State) : State :=
  updHost h (fun c => { c with program := c.program.tail }) s

/-- HOST[h] stores a word to CMD of port p. HOST[h] uses port h and no other (R52), so a command for another port has no meaning and is refused. A port whose command is still pending takes no other: the store waits (R53, R91). Log M17. -/
def storeCommand (h p : Nat) (w : Word) (s : State) : Host.Outcome State Fault Refusal :=
  if p ≠ h then .next (refuseAccess h s)
  else if (portAt s p).hold.isSome then .next s
  else issue p w (takeAccess h s)

/-- A host makes its next access (R35, R49, R53). It may touch any register, those of other ports too (R410), but issues commands on its own port only (R52). -/
def access (h : Nat) (a : Access) (s : State) : Host.Outcome State Fault Refusal :=
  match a with
  | .load off width =>
    if accessLegal off width then
      .next (updHost h (fun c => { c with loaded := regRead s (regAt s.ports.length off) })
        (takeAccess h s))
    else .next (refuseAccess h s)
  | .store off width v =>
    if accessLegal off width then
      match regAt s.ports.length off with
      | .cmd p => storeCommand h p v s
      | r => .next (regWrite r v (takeAccess h s))
    else .next (refuseAccess h s)

/-- A host's turn (R52, R53, R91). -/
def hostTurn (h : Nat) (s : State) : Host.Outcome State Fault Refusal :=
  match s.hosts[h]? with
  | none => .next s
  | some c =>
    match c.status with
    | .refused => .next s
    | .waiting => resume h s
    | .ready =>
      match c.program with
      | [] => .next s
      | a :: _ => access h a s

/-- TGEN executes one word taken from its FIFO (R375): a word that is no timing word stops the model (R114, I1). -/
def executeWord (w : Word) (s : State) : Host.Outcome State Fault Refusal :=
  match decodeTiming w with
  | .ok i => exec i s
  | .error _ => .fault (.illegalTimingWord w)

/-- TGEN's turn (R211, R375): the head word of its FIFO, or, with the FIFO empty, the end of the current word (log M12). -/
def tgenTurn (s : State) : Host.Outcome State Fault Refusal :=
  match s.tgen.fifo with
  | [] => .next (tgenIdle s)
  | q :: rest =>
    executeWord q.word { s with tgen := { s.tgen with fifo := rest, width := q.width } }

/-- A turn begins: its RES_OK draw and its interleaving stand ready. -/
def beginTurn (t : Turn) (s : State) : State := { s with resOk := t.resOk, mid := t.mid }

/-- The step of an agent whose turn it is (R8). -/
def agentStep (a : Agent) (s : State) : Host.Outcome State Fault Refusal :=
  match a with
  | .host h => hostTurn h s
  | .engine => .next (engineStep s)
  | .tch => .next (tchStep s)
  | .tgen => tgenTurn s
  | .pch => .next (pchStep s)
  | .pser => .next (pserStep s)
  | .outside w v => .next (outsideStore w v s)
  | .reset => .next (platformReset s)

/-- Whether a pending command's step is enabled (R353): what it waits for has come, or a check before the hold would fault. A CLEANUP that holds waits for IDLE alone (R352, log M9), an access not admitted for ever (R80). -/
def holdMet (k : Hold) (s : State) : Bool :=
  match k with
  | .pixelChannel => s.engine != .idle || !s.modeValid || s.pch.rem == 0
  | .park => s.engine == .idle
  | .frameToken => s.token
  | .memory => false

/-- Whether HOST[h] has a step in its own sequence: an access to make (R91), or a command whose step is enabled (R353). -/
def hostEnabled (h : Nat) (s : State) : Bool :=
  match s.hosts[h]? with
  | none => false
  | some c =>
    match c.status with
    | .refused => false
    | .ready => !c.program.isEmpty
    | .waiting =>
      match (portAt s h).hold with
      | none => true
      | some k => holdMet k s

/-- Whether TGEN has a step: a word to execute (R375), or a current word to end, after which it goes idle (R211, R368, log M12). -/
def tgenEnabled (s : State) : Bool := !s.tgen.fifo.isEmpty || s.tgen.cur.isSome

/-- Whether an agent's step is enabled (R478): ENGINE by R367, TCH by R373, PCH by R377, PSER by R378, a host in its own sequence. Agents outside the system of R8 and the platform reset are never called enabled, so nothing is asked of them. -/
def agentEnabled (a : Agent) (s : State) : Bool :=
  match a with
  | .engine => engineEnabled s
  | .tch => tchEnabled s
  | .tgen => tgenEnabled s
  | .pch => pchEnabled s
  | .pser => pserEnabled s
  | .host h => hostEnabled h s
  | .outside _ _ | .reset => false

/-- One turn of one agent (R8, R92). -/
def runTurn (t : Turn) (s : State) : Host.Outcome State Fault Refusal :=
  agentStep t.agent (beginTurn t s)

/-- The turn that comes next, and the machine with it taken: the first of the schedule, or a free one (log M1). -/
def nextTurn (s : State) : Turn × State :=
  match s.sched with
  | t :: rest => (t, { s with sched := rest })
  | [] => (Config.freeTurn s.freeTurns, { s with freeTurns := s.freeTurns + 1 })

/-! ### Placing one instruction where the machine fetches its next -/

/-- The turn in which an agent steps with nothing between its accesses and the RES_OK draw true. -/
def plainTurn (a : Agent) : Turn := { agent := a, resOk := true, mid := [] }

/-- A host about to store a word to CMD of port 0. -/
def aboutToStore (w : Word) (c : HostCtx) : HostCtx :=
  { c with status := .ready, program := .store 0x100#9 4 w :: c.program }

/-- The hosts with host 0 about to store a word to CMD of port 0. -/
def hostsAboutToStore (w : Word) : List HostCtx → List HostCtx
  | [] => [aboutToStore w HostCtx.atReset]
  | c :: rest => aboutToStore w c :: rest

/-- A command word placed as host 0's next access, and a turn of host 0 placed first. -/
def placeCommand (w : Word) (s : State) : State :=
  { updPort 0 (fun q => { q with hold := none }) s with
    hosts := hostsAboutToStore w s.hosts
    sched := plainTurn (.host 0) :: s.sched }

/-- A timing word placed at the head of TGEN's FIFO, and a turn of TGEN placed first. -/
def placeTiming (w : Word) (s : State) : State :=
  { s with
    tgen := { s.tgen with fifo := { word := w, width := s.mode.hVis.toNat } :: s.tgen.fifo }
    sched := plainTurn .tgen :: s.sched }

/-- A word of the opcode table placed where the very next step takes it: to CMD where it is a command, to TGEN where it is a timing word, to CMD otherwise (log M4, M5). -/
def placeWord (w : Word) (s : State) : State :=
  match decodeCommand w with
  | .ok _ => placeCommand w s
  | .error _ =>
    match decodeTiming w with
    | .ok _ => placeTiming w s
    | .error _ => placeCommand w s

end Sys2Proof.Machine
end

