-- ==== Sys2Proof/Machine/Outputs.lean ====
section
/-! DEFINITION. What the platform makes of the outputs: the levels of the pins (spec 10_state.md R56), the length of a pixel clock (41_timing_program.md R214), and PIX clock by clock (42_pixel_plane.md R258; 70_reset_and_hazards.md R483). The parameters are R9's. No step depends on any of it (R483, R492). -/

namespace Sys2Proof.Machine

/-! ### Pins -/

/-- The level of a pin that carries a logical level with a polarity (R9, R56): true inverts (log M33). -/
def pinLevel (pol level : Bool) : Bool := pol ^^ level

/-- The HSYNC pin (R56, HS_POL). -/
def hsyncPin (s : State) : Bool := pinLevel s.plat.hsPol s.hsync

/-- The VSYNC pin (R56, VS_POL). -/
def vsyncPin (s : State) : Bool := pinLevel s.plat.vsPol s.vsync

/-- The two pixel pins (R56, PIX_POL): the logical pixel, or its complement. -/
def pixPins (s : State) : Pixel := if s.plat.pixPol then ~~~s.pix else s.pix

/-! ### Time, as the platform realises it -/

/-- PIXCLK_OK(P) (R9): the platform can realise a pixel clock of P ns exactly. -/
def pixClkOk (plat : Platform) (period : Nat) : Bool := !plat.unrealisable.contains period

/-- The length of a pixel clock of the active mode in ns, where the platform realises it (R214). That words of an old frame which still drain after a SET_MODE take the active mode's P is a DESIGN CHOICE, log M37. -/
def pixelClockNs (s : State) : Option Nat :=
  if pixClkOk s.plat (pixelPeriod s.mode) then some (pixelPeriod s.mode) else none

/-- The pixel clock of a visible line, counted from the line's first, on which its first pixel stands: B_CLK + TRIG_LAT (R483). B_CLK is the active mode's, also for a line of an old frame that still drains after a SET_MODE: DESIGN CHOICE, log M37. -/
def firstPixelClock (s : State) : Nat := porchClocks s.mode + s.plat.trigLat

/-- PIX on pixel clock k of a visible line that PSER shifts out as `pixels` (R258): one pixel per clock from the first on, 00 before them and after. Clocks past the line's last are those of the next line's sync (R483). -/
def pixOnClock (s : State) (pixels : List Pixel) (k : Nat) : Pixel :=
  if k < firstPixelClock s then 0#2 else (pixels[k - firstPixelClock s]?).getD 0#2

end Sys2Proof.Machine
end

