-- ==== Sys2Proof/Safety.lean ====
section
/-! DEFINITION. What counts as a safe run, in the terms claims use: the premises a claim takes of its start state (spec 70_reset_and_hazards.md R473), runs and their fairness with what follows from it (R478), the end of a run, its success and its observation (R477), the invariant every step keeps (44_phase_engine.md R368, 41_timing_program.md R209, 45_handoff.md R401, 10_state.md R50, R51), and the spec's own conditions written as propositions beside the model's functions. -/

namespace Sys2Proof.Machine

/-! ### The start of a run -/

/-- The fields of a descriptor in R13's order, the order of STAGE[0..7] (R37) and of MODE[0..7] (R42). -/
def fieldsInOrder (m : ModeDesc) : List Word :=
  [m.hVis, m.vVis, m.tLine, m.nLines, m.nVsync, m.lStart, m.tHsync, m.tVis]

/-- Every piece of state of the block stands at the value R471 gives it. The event history is the block's; the output streams and the model's own fields are not in R471's table (log M20). -/
def BlockReset (s : State) : Prop :=
  s.engine = .uninit ∧ s.phase = .vsync ∧ s.modeValid = false ∧ s.token = false ∧
  s.planeValid = false ∧ s.fontValid = false ∧ s.fault = .none ∧ statusWord s = 0#32 ∧
  s.liveHandle = 0#32 ∧ s.frameHandle = 0#32 ∧ s.pixwords = 0#32 ∧
  s.plane = { base := 0#32, stride := 0#32, rows := 0#32 } ∧
  s.font = { base := 0#32, cw := 0#32, ch := 0#32 } ∧
  (∀ f ∈ fieldsInOrder s.stage ++ fieldsInOrder s.mode, f = 0#32) ∧
  s.progVis = #v[0#32, 0#32, 0#32, 0#32] ∧ s.progBlank = #v[0#32, 0#32] ∧
  s.progVsync = #v[0#32, 0#32] ∧ s.count = #v[0#32, 0#32, 0#32, 0#32] ∧
  (∀ p, portAt s p =
    { cmd := 0#32, arg0 := 0#32, arg1 := 0#32, arg2 := 0#32, result := 0#32, hold := none }) ∧
  s.tch = { prog := .none, idx := 0, rem := 0, done := false } ∧
  s.tgen.fifo = [] ∧ s.tgen.cur = none ∧ s.tgen.left = 0 ∧
  s.pch.addr = 0#32 ∧ s.pch.rem = 0 ∧
  s.pser.fifo = [] ∧ s.pser.left = 0 ∧ s.pser.triggers = [] ∧
  s.hsync = false ∧ s.vsync = false ∧ s.pix = 0#2 ∧ s.history = []

/-- A named piece of a program's data: a framebuffer or a font, its first address and its bytes (R473). -/
structure MemoryImage where
  base : Nat
  bytes : List Byte
  deriving DecidableEq, Repr

/-- The n bytes from an address on exist and MEM_OK holds for every one (R80, R407). -/
def SpanAdmitted (s : State) (base n : Nat) : Prop :=
  base + n ≤ 4294967296 ∧ ∀ k, k < n → admits s (BitVec.ofNat 32 (base + k)) = true

/-- System memory holds the image, with MEM_OK for every byte it spans (R473). -/
def Holds (s : State) (img : MemoryImage) : Prop :=
  SpanAdmitted s img.base img.bytes.length ∧
  ∀ k, k < img.bytes.length → some (Memory.read s.mem (img.base + k)) = img.bytes[k]?

/-- No command is in progress on any port, and no host waits (R470, R473). -/
def NoCommandPending (s : State) : Prop :=
  (∀ p, (portAt s p).hold = none) ∧ ∀ c ∈ s.hosts, c.status ≠ .waiting

/-- The clean-entry premise of a claim about a program started from reset (R473): R471's values, the program's framebuffers and font in admitted memory, nothing in flight. -/
def CleanEntry (images : List MemoryImage) (s : State) : Prop :=
  BlockReset s ∧ (∀ img ∈ images, Holds s img) ∧ NoCommandPending s

/-- The in-flight list of a claim about a program started later (R473): STATE, PHASE, TOKEN, TCH, PCH and the FIFOs, with what stands beside them in TGEN and PSER. -/
structure InFlight where
  engine : EngineState
  phase : Phase
  token : Bool
  tch : Tch
  tgen : Tgen
  pch : Pch
  pser : Pser
  deriving DecidableEq, Repr

/-- The entry premise of a claim about a program started later (R473). R473's list does not speak of commands; that none is pending on any port and no host waits is a DESIGN CHOICE, log M34. -/
def InFlightEntry (f : InFlight) (images : List MemoryImage) (s : State) : Prop :=
  (s.engine = f.engine ∧ s.phase = f.phase ∧ s.token = f.token ∧ s.tch = f.tch ∧
    s.tgen = f.tgen ∧ s.pch = f.pch ∧ s.pser = f.pser) ∧
  (∀ img ∈ images, Holds s img) ∧ NoCommandPending s

/-- A valid framebuffer for a mode, published by a handle (R407): aligned, inside the address space, every byte admitted. How its rows are laid out is a matter of what its bytes mean. -/
def ValidFramebuffer (s : State) (m : ModeDesc) (handle : Word) : Prop :=
  handle.toNat % 4 = 0 ∧ SpanAdmitted s handle.toNat (4 * pixWords m)

/-! ### Runs and fairness -/

/-- A run without end: one turn after another, each answering the next state. Which turns come is free (R8, R92); a step of the machine is one turn of its schedule. -/
def IsRun (states : Nat → State) (turns : Nat → Turn) : Prop :=
  ∀ n, runTurn (turns n) (states n) = .next (states (n + 1))

/-- Weak fairness of one agent (R478): if its step stays enabled from some point on, it steps after it. -/
def FairTo (a : Agent) (states : Nat → State) (turns : Nat → Turn) : Prop :=
  ∀ n, (∀ m, n ≤ m → agentEnabled a (states m) = true) → ∃ m, n ≤ m ∧ (turns m).agent = a

/-- Weak fairness (R478) of ENGINE, TCH, TGEN, PCH and PSER, and of each host in its own sequence and no further (log M23). -/
def WeaklyFair (states : Nat → State) (turns : Nat → Turn) : Prop :=
  ∀ a, FairTo a states turns

/-- No platform reset comes in the run. -/
def WithoutReset (turns : Nat → Turn) : Prop := ∀ n, (turns n).agent ≠ .reset

/-- Every word of the frame in flight has been moved: the completion event of its POST_VISIBLE_BLANK is there (R367, R370, R374). -/
def FrameMoved (s : State) : Prop := s.phase = .postVisibleBlank ∧ s.tch.done = true

/-- A RUNNING engine completes each frame (R478). -/
def FramesComplete (states : Nat → State) : Prop :=
  ∀ n, (states n).engine = .running → ∃ m, n ≤ m ∧ FrameMoved (states m)

/-- A STOPPING engine parks within one frame (R478, R359): it is STOPPING until it parks, and no VSYNC entry comes in between. -/
def StoppingParks (states : Nat → State) : Prop :=
  ∀ n, (states n).engine = .stopping →
    ∃ m, n ≤ m ∧ (∀ k, n ≤ k → k ≤ m → (states k).engine = .stopping ∧
        (states k).frameHandle = (states n).frameHandle) ∧
      (states (m + 1)).engine = .idle ∧ (states (m + 1)).phase = .vsync

/-- A CLEANUP held in STOPPING comes to the step at which it performs (R478, R352): its port still holds it when STATE is IDLE, so its host's next turn there completes it. -/
def HeldCleanupComesFree (states : Nat → State) : Prop :=
  ∀ n h c, (states n).engine = .stopping → (states n).hosts[h]? = some c → c.status = .waiting →
    (portAt (states n) h).hold = some .park → (portAt (states n) h).cmd = 0x00000002#32 →
    ∃ m c', n ≤ m ∧ (states m).engine = .idle ∧ (states m).hosts[h]? = some c' ∧
      c'.status = .waiting ∧ (portAt (states m) h).hold = some .park ∧
      (portAt (states m) h).cmd = 0x00000002#32

/-- A CLEANUP held in STOPPING completes (R478, R352): its host's turn comes while STATE is IDLE, the resources are released, nothing is pending on its port any more and the host goes on. R352 has it keep holding when another port takes STATE out of IDLE first, so the premise is that none does. -/
def HeldCleanupCompletes (states : Nat → State) (turns : Nat → Turn) : Prop :=
  ∀ n h c, (states n).engine = .stopping → (states n).hosts[h]? = some c → c.status = .waiting →
    (portAt (states n) h).hold = some .park → (portAt (states n) h).cmd = 0x00000002#32 →
    (∀ m, n ≤ m → (states m).engine = .idle → (turns m).agent ≠ .host h →
      (states (m + 1)).engine = .idle) →
    ∃ m c', n ≤ m ∧ (turns m).agent = .host h ∧ (states m).engine = .idle ∧
      (states (m + 1)).engine = .uninit ∧ (portAt (states (m + 1)) h).hold = none ∧
      (states (m + 1)).hosts[h]? = some c' ∧ c'.status = .ready

/-- A host that has an access to make comes to its turn, with that access still its next (R91, R478). -/
def HostsGoOn (states : Nat → State) (turns : Nat → Turn) : Prop :=
  ∀ n h c, (states n).hosts[h]? = some c → c.status = .ready → c.program ≠ [] →
    ∃ m, n ≤ m ∧ (turns m).agent = .host h ∧ (states m).hosts[h]? = some c

/-! ### The end of a run -/

/-- The engine is quiescent (R477 (b)). A TRIGGER that PSER has not served yet counts as a line in progress, so none may be left: DESIGN CHOICE, log M31. -/
def quiescent (s : State) : Prop :=
  (s.engine = .uninit ∨ s.engine = .idle) ∧ s.tch.rem = 0 ∧ s.tch.done = false ∧
  s.tgen.fifo = [] ∧ s.tgen.cur = none ∧ s.pch.rem = 0 ∧ s.pser.fifo = [] ∧ s.pser.left = 0 ∧
  s.pser.triggers = []

/-- Every host has completed its last access (R477 (a)). -/
def hostsDone (s : State) : Prop := ∀ c ∈ s.hosts, c.status = .ready ∧ c.program = []

/-- The run has ended (R477). -/
def ended (s : State) : Prop := hostsDone s ∧ quiescent s

/-- Every framebuffer word PCH has still to read exists and is admitted (R376, R407). -/
def PixelReadsAdmitted (s : State) : Prop :=
  0 < s.pch.rem → s.pch.past = false ∧ SpanAdmitted s s.pch.addr.toNat (4 * s.pch.rem)

/-- A run whose hosts have completed their last access and that does not leave STATE = RUNNING ends (R477), once every pixel read still to come is admitted. -/
def RunsEnd (states : Nat → State) : Prop :=
  ∀ n, hostsDone (states n) → (states n).engine ≠ .running → PixelReadsAdmitted (states n) →
    ∃ m, n ≤ m ∧ ended (states m)

/-- A successful end (R432, R477): no fault recorded, no refusal mark. -/
def successful (s : State) : Prop := s.fault = .none ∧ s.refusalMark = false

/-! ### The observation of a run -/

/-- What a run has put out since its start (R477): its FRAME_CB events and the two output streams of R379. -/
structure RunOutput where
  frameCbs : List BlockEvent
  executed : List Word
  shifted : List ShiftedLine
  deriving DecidableEq, Repr

/-- What the run that began in `start` has put out when it stands in s (R477, log M35). -/
def outputSince (start s : State) : RunOutput :=
  { frameCbs := (s.history.drop start.history.length).filter (· == .frameCb)
    executed := s.executed.drop start.executed.length
    shifted := s.shifted.drop start.shifted.length }

/-- The observation of a run (R477): the registers, by offset over the whole window; system memory; and what the run has put out. -/
structure Observation where
  registers : List Word
  memory : List Host.Cell
  output : RunOutput
  deriving DecidableEq, Repr

/-- The value a load gives at every aligned offset of the window (R35). -/
def registerValues (s : State) : List Word :=
  (List.range 128).map (fun k => regRead s (regAt s.ports.length (BitVec.ofNat 9 (4 * k))))

/-- The observation of a run that began in `start` and ended in s (R477). -/
def observation (start s : State) : Observation :=
  { registers := registerValues s, memory := s.mem, output := outputSince start s }

/-- The run comes to its k-th FRAME_CB with its n-th state: the first in which k of them have been emitted since the start (R477). -/
def FrameCbAt (states : Nat → State) (k n : Nat) : Prop :=
  1 ≤ k ∧ (outputSince (states 0) (states n)).frameCbs.length = k ∧
  ∀ m, m < n → (outputSince (states 0) (states m)).frameCbs.length < k

/-- The observation of a run that leaves STATE = RUNNING, for a k the claim names (R477): what it has put out up to and including its k-th FRAME_CB. -/
def PrefixObservation (states : Nat → State) (k : Nat) (o : RunOutput) : Prop :=
  ∃ n, FrameCbAt states k n ∧ o = outputSince (states 0) (states n)

/-! ### The invariant -/

/-- The program TCH is armed with in a phase (R368 (b)). -/
def programOfPhase : Phase → Program
  | .vsync => .vsync
  | .postVsyncBlank => .blank
  | .visible => .vis
  | .postVisibleBlank => .blank

/-- R368 (a) and (b), and that an engine in flight has an active mode (R356). -/
def EngineInv (s : State) : Prop :=
  ((s.engine = .uninit ∨ s.engine = .idle) →
    s.tch.rem = 0 ∧ s.tch.done = false ∧ s.phase = .vsync) ∧
  ((s.engine = .running ∨ s.engine = .stopping) →
    s.modeValid = true ∧ s.tch.prog = programOfPhase s.phase ∧
      ((0 < s.tch.rem ∧ s.tch.done = false) ∨ (s.tch.rem = 0 ∧ s.tch.done = true)))

/-- Every word of the program store is a legal timing word (R209). -/
def storeLegal (s : State) : Prop :=
  (∀ w ∈ s.progVis.toList, twLegal w = true) ∧ (∀ w ∈ s.progBlank.toList, twLegal w = true) ∧
  (∀ w ∈ s.progVsync.toList, twLegal w = true)

/-- With an active mode, the store is legal and every phase has at least one line (R157, R480). -/
def ModeInv (s : State) : Prop :=
  s.modeValid = true → storeLegal s ∧ ∀ c ∈ s.count.toList, 1 ≤ c.toNat

/-- The FIFOs keep their bounds, TGEN holds only legal words, and the ring index stays in its program (R50, R51, R86, R209). -/
def ChannelInv (s : State) : Prop :=
  (∀ q ∈ s.tgen.fifo, twLegal q.word = true) ∧ s.tgen.fifo.length ≤ s.plat.tfifoDepth ∧
  s.pser.fifo.length ≤ s.plat.pfifoDepth ∧
  (s.tch.prog ≠ .none → s.tch.idx < programLength s.tch.prog)

/-- The handles and the pixel channel's address are multiples of 4 (R38, R51, R401). -/
def HandleInv (s : State) : Prop :=
  s.liveHandle.toNat % 4 = 0 ∧ s.frameHandle.toNat % 4 = 0 ∧ s.pch.addr.toNat % 4 = 0

/-- What R9 asks of the parameters: 1 to 8 ports, one host for each (R52), FIFOs of at least one word. -/
def PlatformInv (s : State) : Prop :=
  1 ≤ s.ports.length ∧ s.ports.length ≤ 8 ∧ s.hosts.length = s.ports.length ∧
  s.plat.wf = true

/-- The invariant of the machine. -/
def Invariant (s : State) : Prop :=
  Memory.wf s.mem ∧ EngineInv s ∧ ModeInv s ∧ ChannelInv s ∧ HandleInv s ∧ PlatformInv s

/-! ### The pixel balance -/

/-- An active mode is whole (R161, 93_implementation_defined.md I18): it was accepted, and its programs, counts and transfer length are those compiled from it (R160, R207). -/
def ModeWhole (s : State) : Prop :=
  s.modeValid = true →
    accepted s.mode = true ∧ s.progBlank = compileBlank s.mode ∧
    s.progVsync = compileVsync s.mode ∧ s.progVis = compileVis s.mode ∧
    s.count = compileCounts s.mode ∧ s.pixwords = BitVec.ofNat 32 (pixWords s.mode)

/-- The pixels of the lines whose TRIG words wait in TGEN's FIFO. -/
def pixelsQueued : List QueuedWord → Nat
  | [] => 0
  | q :: rest => (if twTrig q.word then q.width else 0) + pixelsQueued rest

/-- The pixels of the lines whose triggers PSER has not served yet. -/
def pixelsTriggered : List LineTrigger → Nat
  | [] => 0
  | t :: rest => t.width + pixelsTriggered rest

/-- How many of the n words that TCH moves of a program VIS, from ring index i on (R86), have TRIG. -/
def triggersAhead (vis : Vector Word 4) : Nat → Nat → Nat
  | _, 0 => 0
  | i, n + 1 => (if vis[i]?.any twTrig then 1 else 0) + triggersAhead vis ((i + 1) % 4) n

/-- The visible lines of the frame in flight whose TRIG words TCH has still to move. -/
def linesAhead (s : State) : Nat :=
  match s.phase with
  | .vsync | .postVsyncBlank =>
    if s.engine = .running ∨ s.engine = .stopping then s.mode.vVis.toNat else 0
  | .visible => triggersAhead s.progVis s.tch.idx s.tch.rem
  | .postVisibleBlank => 0

/-- The balance of R378: the pixels PCH has still to read and those waiting in PSER's FIFO are exactly the pixels of the lines still to be shifted, each line of its own frame's width, which is a whole number of words. So frame f's pixel stream is consumed exactly by frame f's visible lines. -/
def PixelInv (s : State) : Prop :=
  ModeWhole s ∧ s.pser.left % 16 = 0 ∧ (∀ t ∈ s.pser.triggers, t.width % 16 = 0) ∧
  (∀ q ∈ s.tgen.fifo, twTrig q.word = true → q.width % 16 = 0) ∧
  16 * (s.pser.fifo.length + s.pch.rem) =
    s.pser.left + pixelsTriggered s.pser.triggers + pixelsQueued s.tgen.fifo +
      linesAhead s * s.mode.hVis.toNat

/-! ### Frames -/

/-- t differs from s at most in what a drawing command and the agents that act between its byte accesses touch: memory, the pixel channel and serialiser with their outputs, the refusal mark, and the interleaving still to come (R87 item 2, R309). -/
def MemoryPathOnly (s t : State) : Prop :=
  t = { s with
    mem := t.mem, pch := t.pch, pser := t.pser, pix := t.pix, shifted := t.shifted,
    refusalMark := t.refusalMark, mid := t.mid }

/-- The state a fault of the issuing port's command leaves (R432): the first fault is kept, the CMD store completes, nothing else changes. -/
def faulted (code : FaultCode) (s : State) : State :=
  { s with
    fault := if s.fault = .none then code else s.fault
    ports := s.ports.modify s.port (fun q => { q with hold := none }) }

/-- The state a command that holds leaves (R353): the command stays pending, nothing else changes. -/
def pending (h : Hold) (s : State) : State :=
  { s with ports := s.ports.modify s.port (fun q => { q with hold := some h }) }

/-- The state a command that only writes RESULT leaves (R55). -/
def withResult (v : Word) (s : State) : State :=
  { s with ports := s.ports.modify s.port (fun q => { q with result := v }) }

/-- The state with the issuing port's CMD store completed. -/
def completed (s : State) : State :=
  { s with ports := s.ports.modify s.port (fun q => { q with hold := none }) }

/-- What a turn of host h that makes the host's next access leaves before the access's own effect: the turn is taken and the access consumed. -/
def accessTaken (s : State) (t : Turn) (rest : List Turn) (h : Nat) : State :=
  { s with
    sched := rest
    resOk := t.resOk
    mid := t.mid
    hosts := s.hosts.modify h (fun c => { c with program := c.program.tail }) }

/-- What a turn of host h leaves whose access has no meaning: the refusal mark, and the host stopped for good (R49, log M18). -/
def accessRefused (s : State) (t : Turn) (rest : List Turn) (h : Nat) : State :=
  { s with
    sched := rest
    resOk := t.resOk
    mid := t.mid
    refusalMark := true
    hosts := s.hosts.modify h (fun c => { c with status := .refused }) }

/-- What a turn whose agent has no step leaves: the turn is taken. -/
def turnTaken (s : State) (t : Turn) (rest : List Turn) : State :=
  { s with sched := rest, resOk := t.resOk, mid := t.mid }

/-- The next turn is t, of the given agent. -/
def TurnOf (s : State) (t : Turn) (rest : List Turn) (a : Agent) : Prop :=
  s.sched = t :: rest ∧ t.agent = a

/-- The next turn is host h's, and its next access is the given one. -/
def AccessOf (s : State) (t : Turn) (rest : List Turn) (h : Nat) (a : Access) : Prop :=
  TurnOf s t rest (.host h) ∧
  ∃ c, s.hosts[h]? = some c ∧ c.status = .ready ∧ c.program.head? = some a

/-- Offsets of reserved registers (R35), among those a legal access can name. -/
def ReservedOffset (nPorts : Nat) (off : RegOffset) : Prop :=
  off.toNat = 0x01C ∨ (0x02C ≤ off.toNat ∧ off.toNat ≤ 0x03C) ∨
  (0x0B0 ≤ off.toNat ∧ off.toNat ≤ 0x0FC) ∨
  (0x100 ≤ off.toNat ∧ (nPorts ≤ (off.toNat - 0x100) / 0x20 ∨ 0x14 ≤ off.toNat % 0x20))

/-- Offsets of the registers a host store has an effect on (R35): STAGE, and CMD and the ARGs of the ports the block has. -/
def WritableOffset (nPorts : Nat) (off : RegOffset) : Prop :=
  (0x040 ≤ off.toNat ∧ off.toNat < 0x060) ∨
  (0x100 ≤ off.toNat ∧ (off.toNat - 0x100) / 0x20 < nPorts ∧ off.toNat % 0x20 < 0x10)

/-! ### The spec's conditions as propositions -/

/-- The five invariants of a descriptor (R152, with invariant 4 as R154 corrects it). -/
def ValidDescriptor (m : ModeDesc) : Prop :=
  m.hVis.toNat ≠ 0 ∧ m.tVis.toNat % m.hVis.toNat = 0 ∧
  m.tVis.toNat / m.hVis.toNat ≠ 0 ∧ m.tLine.toNat % (m.tVis.toNat / m.hVis.toNat) = 0 ∧
  m.hVis.toNat % 16 = 0 ∧
  m.nVsync.toNat + m.lStart.toNat + m.vVis.toNat ≤ m.nLines.toNat ∧
  (m.tLine.toNat : Int) - m.tVis.toNat ≠ m.tHsync.toNat

/-- The ten encodability checks (R156) of a valid descriptor. -/
def EncodableDescriptor (m : ModeDesc) : Prop :=
  1 ≤ m.vVis.toNat ∧ 1 ≤ m.nVsync.toNat ∧ m.nVsync.toNat + 1 ≤ m.lStart.toNat ∧
  m.lStart.toNat + m.vVis.toNat + 1 ≤ m.nLines.toNat ∧
  1 ≤ syncClocks m ∧ m.tVis.toNat < m.tLine.toNat ∧
  (syncClocks m : Int) ≠ (lineClocks m : Int) - m.hVis.toNat ∧
  (syncClocks m : Int) ≤ (lineClocks m : Int) - 1 ∧
  lineClocks m ≤ 65535 ∧ m.nLines.toNat ≤ 65535

/-- An illegal command word (R120 (a) to (d)), by arithmetic on the word. -/
def IllegalCommandWord (w : Word) : Prop :=
  w.toNat / 16384 ≠ 0 ∨
  w.toNat % 256 ∉ [0x01, 0x02, 0x03, 0x04, 0x05, 0x06, 0x07, 0x08, 0x09, 0x0A, 0x0B,
    0x10, 0x11, 0x18, 0x19, 0x1A] ∨
  (w.toNat % 256 ∉ [0x11, 0x19, 0x1A] ∧ w.toNat / 256 % 64 ≠ 0) ∨
  (w.toNat % 256 = 0x11 ∧ w.toNat / 4096 % 4 ≠ 0) ∨
  (w.toNat % 256 ∈ [0x11, 0x19, 0x1A] ∧ w.toNat / 256 % 4 = 3)

/-- The 2-bit field at shift sh of a byte (R252). -/
def fieldOf (b : Byte) (sh : Nat) : Pixel := b.extractLsb' sh 2

/-- What an operator makes of a 2-bit field (R254's consequences). -/
def fieldOp : WriteOp → Pixel → Pixel → Pixel
  | .set, _, v => v
  | .xor, p, v => p ^^^ v
  | .and, p, v => p &&& v

/-- Pixel (x, y) of the plane as memory holds it (R250). -/
def planePixel (s : State) (m : List Host.Cell) (x y : Nat) : Pixel :=
  fieldOf (Memory.read m (pixAddr s x y).toNat) (pixShift x)

/-- Bit (r, col) of glyph c as memory holds it (R302). -/
def glyphBitIn (s : State) (c r col : Nat) : Bool :=
  (Memory.read s.mem (fontByteAddr s (fontRow s c r) (glyphBitOffset s c col / 8)).toNat).getLsbD
    (7 - glyphBitOffset s c col % 8)

/-- SET_PIXEL's preconditions (R253): a target, a pixel in bounds, an admitted byte. -/
def PixelReady (s : State) : Prop :=
  s.planeValid = true ∧ (arg0 s).toNat < 4 * s.plane.stride.toNat ∧
  (arg1 s).toNat < s.plane.rows.toNat ∧
  admits s (pixAddr s (arg0 s).toNat (arg1 s).toNat) = true

/-- The address of the byte SET_PIXEL writes (R252), from the operands and the plane descriptor. -/
def pixelTarget (s : State) : Nat :=
  (s.plane.base.toNat + (arg1 s).toNat * s.plane.stride.toNat + (arg0 s).toNat / 4) % 4294967296

/-- The plane and the font stand as SET_PLANE and SET_FONT leave them: neither wraps (R251), and the cell is one of the four legal ones (R301). -/
def TargetsReady (s : State) : Prop :=
  s.planeValid = true ∧ s.fontValid = true ∧
  s.plane.base.toNat + s.plane.stride.toNat * s.plane.rows.toNat ≤ 4294967296 ∧
  (s.font.cw = 8#32 ∨ s.font.cw = 9#32) ∧ (s.font.ch = 8#32 ∨ s.font.ch = 14#32) ∧
  s.font.base.toNat + 32 * s.font.cw.toNat * s.font.ch.toNat ≤ 4294967296

/-- A glyph command's operands pass R305 and every byte it would access is admitted (R309). -/
def GlyphReady (s : State) (x y g : Nat) : Prop :=
  g ≤ 255 ∧ x + s.font.cw.toNat - 1 < 4 * s.plane.stride.toNat ∧
  y + s.font.ch.toNat - 1 < s.plane.rows.toNat ∧
  (∀ a ∈ glyphFontBytes s g ++ glyphPlaneBytes s x y, admits s a = true)

/-- The glyph's font bytes and the cell's plane bytes do not overlap (R312). -/
def FontApart (s : State) (x y g : Nat) : Prop :=
  ∀ a ∈ glyphFontBytes s g, a ∉ glyphPlaneBytes s x y

end Sys2Proof.Machine
end

