-- ==== Sys2Proof/Certificates/Slice0/Obligations.lean ====
section
/-! DEFINITION. The statements for the provers. Each docstring names the rule of spec/ its statement formalises. -/

open Sys2Proof Sys2Proof.Machine

/-! ### Encoding -/

/-- R123: the eight command words of the table decode to the commands they stand for; with them the timing words of R115's examples. -/
def Obligations.SampleWordsDecode : Prop :=
  decodeCommand 0x00000C11#32 = .ok (.setPixel .set 3#2) ∧
  decodeCommand 0x00000D11#32 = .ok (.setPixel .xor 3#2) ∧
  decodeCommand 0x00000611#32 = .ok (.setPixel .and 1#2) ∧
  decodeCommand 0x00000911#32 = .ok (.setPixel .xor 2#2) ∧
  decodeCommand 0x00000C19#32 = .ok (.drawGlyph .set 3#2 0#2) ∧
  decodeCommand 0x00000D19#32 = .ok (.drawGlyph .xor 3#2 0#2) ∧
  decodeCommand 0x0000181A#32 = .ok (.drawGlyphBulk .set 2#2 1#2) ∧
  decodeCommand 0x00002619#32 = .ok (.drawGlyph .and 1#2 2#2) ∧
  decodeTiming 0x000100AC#32 = .ok (.tw 172#16 true false false) ∧
  decodeTiming 0x00040168#32 = .ok (.tw 360#16 false false true) ∧
  decodeTiming 0x000202F1#32 = .ok (.tw 753#16 false true false)

/-- R112, R116, R118: every well-formed instruction, with every operand at every value its encoding admits, is what its decoder reads from its encoding. -/
def Obligations.DecodeOfEncode : Prop :=
  ∀ i : Instr, i.wellFormed = true → decodeFor i (encode i) = .ok i

/-- R112, R116, R118: a word a decoder accepts is the encoding of what it reads, so no two words decode to one instruction and no bit is dropped. -/
def Obligations.EncodeOfDecode : Prop :=
  ∀ (w : Word) (i : Instr),
    (decodeCommand w = .ok i → i.isCommand = true ∧ encode i = w) ∧
    (decodeTiming w = .ok i → i.isCommand = false ∧ encode i = w)

/-- R120: the command words the decoder refuses are exactly those of (a) to (d), and such a word stored to CMD raises F_OPCODE with no other effect: the step in which a host stores it to its own port leaves the fault, the word readable in CMD and the host free to go on. -/
def Obligations.IllegalCommandWordsFault : Prop :=
  ∀ w : Word,
    (IllegalCommandWord w ↔ ∀ i, decodeCommand w ≠ .ok i) ∧
    (IllegalCommandWord w → ∀ p s, perform p w s = .next (faulted .opcode { s with port := p })) ∧
    (IllegalCommandWord w →
      ∀ (s : State) (t : Turn) (rest : List Turn) (h : Nat) (off : RegOffset),
        AccessOf s t rest h (.store off 4 w) → h < s.ports.length →
        off.toNat = 0x100 + 0x20 * h → (portAt s h).hold = none →
        step s = .next { accessTaken s t rest h with
          port := h
          fault := if s.fault = .none then .opcode else s.fault
          ports := s.ports.modify h (fun q => { q with cmd := w, hold := none })
          hosts := (accessTaken s t rest h).hosts.modify h
            (fun c => { c with status := .ready }) })

/-! ### The step -/

/-- R52, R53: when HOST[h]'s next access stores a legal command word to CMD of port h and no command is pending there, the step is exec of that command on port h, with the turn taken, the access consumed and the word in CMD; the host then waits exactly while the command is pending. That CMD reads the word while the command holds is log entry M26's reading of R53. A store to a port whose command is still pending has no effect and is made again, and a store to another port's CMD is refused: both are log entry M17's choice, for cases R52 and R53 exclude. -/
def Obligations.StepRunsStoredCommand : Prop :=
  ∀ (s : State) (t : Turn) (rest : List Turn) (h p : Nat) (off : RegOffset) (v : Word),
    AccessOf s t rest h (.store off 4 v) → p < s.ports.length → off.toNat = 0x100 + 0x20 * p →
    (∀ i, p = h → (portAt s h).hold = none → decodeCommand v = .ok i →
      step s = mapNext (settle h)
        (exec i { accessTaken s t rest h with
          port := h
          ports := s.ports.modify h (fun q => { q with cmd := v }) })) ∧
    (p = h → (portAt s h).hold ≠ none → step s = .next (turnTaken s t rest)) ∧
    (p ≠ h → step s = .next (accessRefused s t rest h))

/-- R375, R211, R56: when TGEN's turn comes and the head of its FIFO is a timing word, the step is exec of it with the word taken from the FIFO and its frame's width beside it (log entry M13's choice); with the FIFO empty TGEN executes nothing and HSYNC and VSYNC are 0, and the word that was current has ended (log entry M12's reading). -/
def Obligations.StepRunsTimingWord : Prop :=
  ∀ (s : State) (t : Turn) (rest : List Turn), TurnOf s t rest .tgen →
    (∀ (q : QueuedWord) (qs : List QueuedWord) (i : Instr),
      s.tgen.fifo = q :: qs → decodeTiming q.word = .ok i →
      step s = exec i { turnTaken s t rest with
        tgen := { s.tgen with fifo := qs, width := q.width } }) ∧
    (s.tgen.fifo = [] →
      step s = .next { turnTaken s t rest with
        tgen := { s.tgen with cur := none, left := 0 }
        hsync := false
        vsync := false })

/-- R353, R80: a held host's turn is one more try of its command; a command held by an access the platform does not admit is never tried again (log entry M10's reading). -/
def Obligations.StepRetriesHeldCommand : Prop :=
  ∀ (s : State) (t : Turn) (rest : List Turn) (h : Nat) (c : HostCtx) (hd : Hold) (i : Instr),
    TurnOf s t rest (.host h) → s.hosts[h]? = some c → c.status = .waiting →
    (portAt s h).hold = some hd → decodeCommand (portAt s h).cmd = .ok i →
    step s =
      if hd = .memory then .next (turnTaken s t rest)
      else mapNext (settle h) (exec i { turnTaken s t rest with port := h })

/-! ### Registers and host accesses -/

/-- R36, R32, R33, R430: STATUS at offset 0 packs STATE, PHASE, the four flags and FAULT in their bits, in their encodings, and its reserved bits are 0. -/
def Obligations.StatusPacksItsFields : Prop :=
  ∀ s : State,
    let v := regRead s (regAt s.ports.length 0x000#9)
    v.extractLsb' 0 2 =
      (match s.engine with | .uninit => 0#2 | .idle => 1#2 | .running => 2#2 | .stopping => 3#2) ∧
    v.extractLsb' 2 2 =
      (match s.phase with
        | .vsync => 0#2 | .postVsyncBlank => 1#2 | .visible => 2#2 | .postVisibleBlank => 3#2) ∧
    v.getLsbD 4 = s.modeValid ∧ v.getLsbD 5 = s.token ∧
    v.getLsbD 6 = s.planeValid ∧ v.getLsbD 7 = s.fontValid ∧
    v.extractLsb' 8 4 = 0#4 ∧
    v.extractLsb' 12 4 =
      (match s.fault with
        | .none => 0#4 | .opcode => 1#4 | .state => 2#4 | .noMode => 3#4
        | .bounds => 4#4 | .arg => 5#4 | .noTarget => 6#4 | .resource => 7#4) ∧
    v.extractLsb' 16 16 = 0#16

/-- R35: the register map, every aligned offset of the window, for every number of ports R9 allows. -/
def Obligations.RegisterMapIsR35 : Prop :=
  ∀ n : Fin 9,
    (regAt n 0x000#9 = .status ∧ regAt n 0x004#9 = .liveHandle ∧ regAt n 0x008#9 = .frameHandle ∧
      regAt n 0x00C#9 = .pixwords ∧ regAt n 0x010#9 = .planeBase ∧ regAt n 0x014#9 = .planeStride ∧
      regAt n 0x018#9 = .planeRows ∧ regAt n 0x01C#9 = .reserved ∧ regAt n 0x020#9 = .fontBase ∧
      regAt n 0x024#9 = .fontCw ∧ regAt n 0x028#9 = .fontCh) ∧
    (∀ k : Fin 5, regAt n (0x02C#9 + BitVec.ofNat 9 (4 * k)) = .reserved) ∧
    (∀ k : Fin 8, regAt n (0x040#9 + BitVec.ofNat 9 (4 * k)) = .stage k) ∧
    (∀ k : Fin 8, regAt n (0x060#9 + BitVec.ofNat 9 (4 * k)) = .mode k) ∧
    (∀ k : Fin 4, regAt n (0x080#9 + BitVec.ofNat 9 (4 * k)) = .progVis k) ∧
    (∀ k : Fin 2, regAt n (0x090#9 + BitVec.ofNat 9 (4 * k)) = .progBlank k) ∧
    (∀ k : Fin 2, regAt n (0x098#9 + BitVec.ofNat 9 (4 * k)) = .progVsync k) ∧
    (∀ k : Fin 4, regAt n (0x0A0#9 + BitVec.ofNat 9 (4 * k)) = .count k) ∧
    (∀ k : Fin 20, regAt n (0x0B0#9 + BitVec.ofNat 9 (4 * k)) = .reserved) ∧
    (∀ p : Fin 8,
      let bank := 0x100#9 + BitVec.ofNat 9 (0x20 * p)
      let here (r : Reg) := if p.val < n.val then r else .reserved
      regAt n bank = here (.cmd p) ∧ regAt n (bank + 0x04#9) = here (.arg0 p) ∧
      regAt n (bank + 0x08#9) = here (.arg1 p) ∧ regAt n (bank + 0x0C#9) = here (.arg2 p) ∧
      regAt n (bank + 0x10#9) = here (.result p) ∧ regAt n (bank + 0x14#9) = .reserved ∧
      regAt n (bank + 0x18#9) = .reserved ∧ regAt n (bank + 0x1C#9) = .reserved)

/-- R37, R54: a host store to STAGE[k] puts the value into field k of the staged descriptor, in R13's order H_VIS, V_VIS, T_LINE, N_LINES, N_VSYNC, L_START, T_HSYNC, T_VIS; a store to ARG0, ARG1 or ARG2 of a port puts it there; neither has a side effect on any other register or on anything else. That a host may write another port's ARG follows R410 (log entry M17). -/
def Obligations.StageAndArgStores : Prop :=
  ∀ (s : State) (t : Turn) (rest : List Turn) (h : Nat) (off : RegOffset) (v : Word),
    AccessOf s t rest h (.store off 4 v) →
    (∀ k, k < 8 → off.toNat = 0x040 + 4 * k →
      ∃ u, step s = .next u ∧ u = { accessTaken s t rest h with stage := u.stage } ∧
        fieldsInOrder u.stage = (fieldsInOrder s.stage).set k v) ∧
    (∀ p, p < s.ports.length →
      (off.toNat = 0x104 + 0x20 * p →
        step s = .next { accessTaken s t rest h with
          ports := s.ports.modify p (fun q => { q with arg0 := v }) }) ∧
      (off.toNat = 0x108 + 0x20 * p →
        step s = .next { accessTaken s t rest h with
          ports := s.ports.modify p (fun q => { q with arg1 := v }) }) ∧
      (off.toNat = 0x10C + 0x20 * p →
        step s = .next { accessTaken s t rest h with
          ports := s.ports.modify p (fun q => { q with arg2 := v }) }))

/-- R48: a reserved offset reads as 0, and a store to a reserved offset or to a read-only register is ignored: nothing but the access itself is consumed, and no fault is recorded. -/
def Obligations.ReservedAndReadOnlyAccesses : Prop :=
  ∀ (s : State) (t : Turn) (rest : List Turn) (h : Nat) (off : RegOffset) (v : Word),
    off.toNat % 4 = 0 →
    (AccessOf s t rest h (.load off 4) → ReservedOffset s.ports.length off →
      step s = .next { accessTaken s t rest h with
        hosts := (accessTaken s t rest h).hosts.modify h (fun c => { c with loaded := 0#32 }) }) ∧
    (AccessOf s t rest h (.store off 4 v) → ¬ WritableOffset s.ports.length off →
      step s = .next (accessTaken s t rest h))

/-- R88, R35 to R47, R52 to R55: a load of a register gives the host the register's value, whatever the register, and has no side effect. -/
def Obligations.LoadsHaveNoSideEffect : Prop :=
  ∀ (s : State) (t : Turn) (rest : List Turn) (h : Nat) (off : RegOffset),
    AccessOf s t rest h (.load off 4) → off.toNat % 4 = 0 →
    ∃ v, step s = .next { accessTaken s t rest h with
        hosts := (accessTaken s t rest h).hosts.modify h (fun c => { c with loaded := v }) } ∧
      (off.toNat = 0x000 → v = statusWord s) ∧
      (off.toNat = 0x004 → v = s.liveHandle) ∧ (off.toNat = 0x008 → v = s.frameHandle) ∧
      (off.toNat = 0x00C → v = s.pixwords) ∧
      (off.toNat = 0x010 → v = s.plane.base) ∧ (off.toNat = 0x014 → v = s.plane.stride) ∧
      (off.toNat = 0x018 → v = s.plane.rows) ∧
      (off.toNat = 0x020 → v = s.font.base) ∧ (off.toNat = 0x024 → v = s.font.cw) ∧
      (off.toNat = 0x028 → v = s.font.ch) ∧
      (∀ k, k < 8 → off.toNat = 0x040 + 4 * k → some v = (fieldsInOrder s.stage)[k]?) ∧
      (∀ k, k < 8 → off.toNat = 0x060 + 4 * k → some v = (fieldsInOrder s.mode)[k]?) ∧
      (∀ k, k < 4 → off.toNat = 0x080 + 4 * k → some v = s.progVis[k]?) ∧
      (∀ k, k < 2 → off.toNat = 0x090 + 4 * k → some v = s.progBlank[k]?) ∧
      (∀ k, k < 2 → off.toNat = 0x098 + 4 * k → some v = s.progVsync[k]?) ∧
      (∀ k, k < 4 → off.toNat = 0x0A0 + 4 * k → some v = s.count[k]?) ∧
      ∀ p q, s.ports[p]? = some q →
        (off.toNat = 0x100 + 0x20 * p → v = q.cmd) ∧ (off.toNat = 0x104 + 0x20 * p → v = q.arg0) ∧
        (off.toNat = 0x108 + 0x20 * p → v = q.arg1) ∧ (off.toNat = 0x10C + 0x20 * p → v = q.arg2) ∧
        (off.toNat = 0x110 + 0x20 * p → v = q.result)

/-- R49: an access of another width, or at an offset not a multiple of 4, is refused: it leaves the refusal mark and nothing else, and the issuing host is refused; a refused host has no further step in any state, and no step of any agent lifts the refusal. That the mark stands in State and the machine goes on is log entry M18's choice, what a turn without a step does M8's, and that the platform reset does not lift it M20's. -/
def Obligations.MeaninglessAccessIsRefused : Prop :=
  (∀ (s : State) (t : Turn) (rest : List Turn) (h : Nat) (off : RegOffset) (width : Nat) (v : Word),
    (AccessOf s t rest h (.load off width) ∨ AccessOf s t rest h (.store off width v)) →
    (width ≠ 4 ∨ off.toNat % 4 ≠ 0) → step s = .next (accessRefused s t rest h)) ∧
  (∀ (s : State) (t : Turn) (rest : List Turn) (h : Nat) (c : HostCtx),
    TurnOf s t rest (.host h) → s.hosts[h]? = some c → c.status = .refused →
    step s = .next (turnTaken s t rest)) ∧
  (∀ (s u : State) (h : Nat) (c : HostCtx),
    s.hosts[h]? = some c → c.status = .refused → step s = .next u →
    ∃ c', u.hosts[h]? = some c' ∧ c'.status = .refused ∧ c'.program = c.program ∧
      c'.loaded = c.loaded)

/-! ### The mode -/

/-- R158, R159: VALIDATE, word 0x00000003, writes to RESULT whether the staged descriptor meets the five invariants (R152, R154), in every STATE, never faults on a descriptor value, and changes nothing else. -/
def Obligations.ValidateWritesItsVerdict : Prop :=
  decodeCommand 0x00000003#32 = .ok .validate ∧
  ∀ s : State,
    (ValidDescriptor s.stage → exec .validate s = .next (withResult 1#32 s)) ∧
    (¬ ValidDescriptor s.stage → exec .validate s = .next (withResult 0#32 s))

/-- R160: while no frame is in flight, SET_MODE of a valid and encodable staged descriptor replaces the active mode, its programs, counts and transfer length, sets MODE_VALID and answers 1. -/
def Obligations.SetModeApplies : Prop :=
  ∀ s : State, s.engine = .uninit ∨ s.engine = .idle →
    ValidDescriptor s.stage → EncodableDescriptor s.stage →
    exec .setMode s = .next (withResult 1#32 { s with
      mode := s.stage
      progBlank := compileBlank s.stage
      progVsync := compileVsync s.stage
      progVis := compileVis s.stage
      count := #v[s.stage.nVsync, s.stage.lStart - s.stage.nVsync, s.stage.vVis,
        s.stage.nLines - s.stage.lStart - s.stage.vVis]
      pixwords := BitVec.ofNat 32 (s.stage.vVis.toNat * (s.stage.hVis.toNat / 16))
      modeValid := true })

/-- R161: a SET_MODE that fails, because frames are in flight or the staged descriptor is not valid or not encodable, changes nothing but RESULT. -/
def Obligations.SetModeFailsWhole : Prop :=
  ∀ s : State,
    (s.engine = .running ∨ s.engine = .stopping ∨ ¬ ValidDescriptor s.stage ∨
      ¬ EncodableDescriptor s.stage) →
    exec .setMode s = .next (withResult 0#32 s)

/-- R163, R164, R165: with an active mode the geometry queries, words 0x09 to 0x0B, answer its width, height and stride; without one each raises F_NO_MODE. -/
def Obligations.GeometryQueries : Prop :=
  decodeCommand 0x00000009#32 = .ok .getWidth ∧ decodeCommand 0x0000000A#32 = .ok .getHeight ∧
  decodeCommand 0x0000000B#32 = .ok .getStride ∧
  ∀ s : State,
    (s.modeValid = true →
      exec .getWidth s = .next (withResult s.mode.hVis s) ∧
      exec .getHeight s = .next (withResult s.mode.vVis s) ∧
      exec .getStride s = .next (withResult (BitVec.ofNat 32 (s.mode.hVis.toNat / 16 * 4)) s)) ∧
    (s.modeValid = false →
      exec .getWidth s = .next (faulted .noMode s) ∧
      exec .getHeight s = .next (faulted .noMode s) ∧
      exec .getStride s = .next (faulted .noMode s))

/-- R157: for an accepted descriptor, H_VIS is at least 16, every line count is in 1..65535, and every timing word the compiler emits has DUR in 1..65535. -/
def Obligations.AcceptedDescriptorsCompile : Prop :=
  ∀ m : ModeDesc, ValidDescriptor m → EncodableDescriptor m →
    16 ≤ m.hVis.toNat ∧
    (∀ c ∈ (compileCounts m).toList, 1 ≤ c.toNat ∧ c.toNat ≤ 65535) ∧
    (∀ w ∈ (compileBlank m).toList ++ (compileVsync m).toList ++ (compileVis m).toList,
      1 ≤ (twDur w).toNat ∧ (twDur w).toNat ≤ 65535)

/-- R203: every program of an accepted descriptor totals the line period exactly, L_CLK pixel clocks of P ns each. -/
def Obligations.ProgramsTotalTheLine : Prop :=
  ∀ m : ModeDesc, ValidDescriptor m → EncodableDescriptor m →
    streamClocks (compileBlank m).toList = lineClocks m ∧
    streamClocks (compileVsync m).toList = lineClocks m ∧
    streamClocks (compileVis m).toList = lineClocks m ∧
    lineClocks m * pixelPeriod m = m.tLine.toNat

/-- R208, R213: the visible-line program of an accepted descriptor has no word of DUR 0, totals the line, raises its one TRIGGER at running offset B_CLK = L_CLK - H_VIS in both branches, and holds HS exactly on clocks [0, H_CLK), with VS never. -/
def Obligations.FixedPhaseTrigger : Prop :=
  ∀ m : ModeDesc, ValidDescriptor m → EncodableDescriptor m →
    (∀ w ∈ (compileVis m).toList, 1 ≤ (twDur w).toNat) ∧
    streamClocks (compileVis m).toList = lineClocks m ∧
    streamTriggers 0 (compileVis m).toList = [lineClocks m - m.hVis.toNat] ∧
    streamLevels (compileVis m).toList =
      List.replicate (syncClocks m) (true, false) ++
        List.replicate (lineClocks m - syncClocks m) (false, false)

/-- R209, R202, R204, R205: every word the compiler emits for an accepted descriptor is a legal timing word; TRIG is set in exactly one word of VIS and in no other, VS in the words of VSYNC only. BLANK holds HS exactly on clocks [0, H_CLK) and VS never; VSYNC holds HS exactly on those clocks and VS for the whole line. -/
def Obligations.EmittedWordsAreLegal : Prop :=
  ∀ m : ModeDesc, ValidDescriptor m → EncodableDescriptor m →
    (∀ w ∈ (compileBlank m).toList ++ (compileVsync m).toList ++ (compileVis m).toList,
      1 ≤ (twDur w).toNat ∧ (twDur w).toNat ≤ 65535 ∧ twRsv w = 0#13 ∧
      ¬ (twTrig w = true ∧ twVs w = true)) ∧
    (∀ w ∈ (compileBlank m).toList ++ (compileVsync m).toList, twTrig w = false) ∧
    (compileVis m).toList.countP (fun w => twTrig w) = 1 ∧
    (∀ w ∈ (compileBlank m).toList ++ (compileVis m).toList, twVs w = false) ∧
    (∀ w ∈ (compileVsync m).toList, twVs w = true) ∧
    streamLevels (compileBlank m).toList =
      List.replicate (syncClocks m) (true, false) ++
        List.replicate (lineClocks m - syncClocks m) (false, false) ∧
    streamLevels (compileVsync m).toList =
      List.replicate (syncClocks m) (true, true) ++
        List.replicate (lineClocks m - syncClocks m) (false, true)

/-! ### The plane -/

/-- R251: SET_PLANE, word 0x00000010, takes a plane of at least one byte and one row that does not wrap, in every STATE, and refuses any other with F_ARG. -/
def Obligations.SetPlaneTakesItsTarget : Prop :=
  decodeCommand 0x00000010#32 = .ok .setPlane ∧
  ∀ s : State,
    ((arg1 s).toNat ≠ 0 ∧ (arg2 s).toNat ≠ 0 ∧
        (arg0 s).toNat + (arg1 s).toNat * (arg2 s).toNat ≤ 4294967296 →
      exec .setPlane s = .next { s with
        plane := { base := arg0 s, stride := arg1 s, rows := arg2 s }, planeValid := true }) ∧
    ((arg1 s).toNat = 0 ∨ (arg2 s).toNat = 0 ∨
        4294967296 < (arg0 s).toNat + (arg1 s).toNat * (arg2 s).toNat →
      exec .setPlane s = .next (faulted .arg s))

/-- R253, R252, R254 (c): SET_PIXEL with nothing in between its two accesses completes; it changes no register and no byte but the one that holds pixel (x, y), and of that byte only the pixel's field, which becomes what the operator makes of it. -/
def Obligations.SetPixelWritesOneField : Prop :=
  ∀ (op : WriteOp) (v : Pixel) (s : State), s.mid = [] → PixelReady s →
    ∃ t, exec (.setPixel op v) s = .next t ∧ t = { s with mem := t.mem } ∧
      (∀ a, a ≠ pixelTarget s → Memory.read t.mem a = Memory.read s.mem a) ∧
      (let sh := 6 - 2 * ((arg0 s).toNat % 4)
       let old := Memory.read s.mem (pixelTarget s)
       let new := Memory.read t.mem (pixelTarget s)
       fieldOf new sh = fieldOp op (fieldOf old sh) v ∧
       new &&& ~~~(3#8 <<< sh) = old &&& ~~~(3#8 <<< sh))

/-- R87 item 2, R309: whatever PCH, PSER and agents outside the block do between the byte accesses of SET_PIXEL, DRAW_GLYPH or DRAW_GLYPH_BULK, the command completes, and no register, no timing channel state and no flag changes: only memory and the pixel path do. That what happens in between stands in State is log entry M7's choice. -/
def Obligations.DrawingTouchesOnlyTheMemoryPath : Prop :=
  ∀ (op : WriteOp) (fg bg : Pixel) (s : State),
    (PixelReady s → ∃ t, exec (.setPixel op fg) s = .next t ∧ MemoryPathOnly s t) ∧
    (TargetsReady s → GlyphReady s (arg0 s).toNat (arg1 s).toNat (arg2 s).toNat →
      (∃ t, exec (.drawGlyph op fg bg) s = .next t ∧ MemoryPathOnly s t) ∧
      (∃ t, exec (.drawGlyphBulk op fg bg) s = .next t ∧ MemoryPathOnly s t))

/-- R253, R431: SET_PIXEL without a target raises F_NO_TARGET, and with one but out of bounds F_BOUNDS; no byte is written. -/
def Obligations.SetPixelFaults : Prop :=
  ∀ (op : WriteOp) (v : Pixel) (s : State),
    (s.planeValid = false → exec (.setPixel op v) s = .next (faulted .noTarget s)) ∧
    (s.planeValid = true →
      (4 * s.plane.stride.toNat ≤ (arg0 s).toNat ∨ s.plane.rows.toNat ≤ (arg1 s).toNat) →
      exec (.setPixel op v) s = .next (faulted .bounds s))

/-- R254: SET twice leaves what SET once leaves, AND likewise, and XOR twice with the same value restores every byte. -/
def Obligations.WriteOperatorLaws : Prop :=
  ∀ (v : Pixel) (s : State), s.mid = [] → PixelReady s →
    (∃ t u, exec (.setPixel .set v) s = .next t ∧ exec (.setPixel .set v) t = .next u ∧
      ∀ a, Memory.read u.mem a = Memory.read t.mem a) ∧
    (∃ t u, exec (.setPixel .and v) s = .next t ∧ exec (.setPixel .and v) t = .next u ∧
      ∀ a, Memory.read u.mem a = Memory.read t.mem a) ∧
    (∃ t u, exec (.setPixel .xor v) s = .next t ∧ exec (.setPixel .xor v) t = .next u ∧
      ∀ a, Memory.read u.mem a = Memory.read s.mem a)

/-- R87 item 2, R410, R489: an agent outside the block may store a byte at any time: its turn changes that byte of memory and nothing else. A store into the register window is no register access that has a meaning and leaves only the refusal mark (log entry M29's choice); any other is made also where MEM_OK is false (log entry M36's choice). A store to SET_PIXEL's own byte between the command's read and its write is lost: the byte becomes what the operator makes of the value read before. That what happens in between stands in State is log entry M7's choice. -/
def Obligations.OutsideStoreBetweenIsLost : Prop :=
  (∀ (s : State) (t : Turn) (rest : List Turn) (a : Word) (b : Byte),
    TurnOf s t rest (.outside a b) →
    (a.toNat / 0x200 = s.plat.regPage.toNat →
      step s = .next { turnTaken s t rest with refusalMark := true }) ∧
    (a.toNat / 0x200 ≠ s.plat.regPage.toNat →
      ∃ u, step s = .next u ∧ u = { turnTaken s t rest with mem := u.mem } ∧
        Memory.read u.mem a.toNat = b ∧
        ∀ x, x ≠ a.toNat → Memory.read u.mem x = Memory.read s.mem x)) ∧
  ∀ (op : WriteOp) (v : Pixel) (b : Byte) (s : State), PixelReady s →
    s.mid = [[], [.outside (pixAddr s (arg0 s).toNat (arg1 s).toNat) b]] →
    ∃ t, exec (.setPixel op v) s = .next t ∧
      Memory.read t.mem (pixelTarget s) =
        applyOp op (Memory.read s.mem (pixelTarget s)) (6 - 2 * ((arg0 s).toNat % 4)) v

/-! ### The font -/

/-- R301: SET_FONT, word 0x00000018, takes a font of one of the four cell sizes that does not wrap, in every STATE, and refuses any other with F_ARG. -/
def Obligations.SetFontTakesItsTarget : Prop :=
  decodeCommand 0x00000018#32 = .ok .setFont ∧
  ∀ s : State,
    let cwOk := (arg1 s).toNat = 8 ∨ (arg1 s).toNat = 9
    let chOk := (arg2 s).toNat = 8 ∨ (arg2 s).toNat = 14
    let fits := (arg0 s).toNat + 32 * (arg1 s).toNat * (arg2 s).toNat ≤ 4294967296
    (cwOk ∧ chOk ∧ fits →
      exec .setFont s = .next { s with
        font := { base := arg0 s, cw := arg1 s, ch := arg2 s }, fontValid := true }) ∧
    (¬ cwOk ∨ ¬ chOk ∨ ¬ fits → exec .setFont s = .next (faulted .arg s))

/-- R303: bit cw-1-col of the bulk path's row is the per-pixel path's bit of column col, for every glyph, row and column of an 8- or 9-wide font. -/
def Obligations.RowBitsAreGlyphBits : Prop :=
  ∀ (s : State) (c r col : Nat), s.mid = [] →
    (s.font.cw.toNat = 8 ∨ s.font.cw.toNat = 9) → c ≤ 255 → col < s.font.cw.toNat →
    (rowBits c r s).1.getLsbD (s.font.cw.toNat - 1 - col) = glyphBitIn s c r col ∧
    (glyphBit c r col s).1 = glyphBitIn s c r col

/-- R307: pair cw-1-col of a row pattern is FG where the glyph's bit is 1 and BG where it is 0. -/
def Obligations.RowPatternHoldsTheColours : Prop :=
  ∀ (cw col : Nat) (bits : BitVec 9) (fg bg : Pixel), (cw = 8 ∨ cw = 9) → col < cw →
    patternPixel cw (rowPattern cw bits fg bg) col =
      if bits.getLsbD (cw - 1 - col) then fg else bg

/-- R305: both glyph commands raise F_NO_TARGET without a plane or a font, then F_ARG for a glyph above 255, then F_BOUNDS for a cell not wholly inside the plane, each with no memory access. -/
def Obligations.GlyphChecksInOrder : Prop :=
  ∀ (op : WriteOp) (fg bg : Pixel) (s : State) (i : Instr),
    i = .drawGlyph op fg bg ∨ i = .drawGlyphBulk op fg bg →
    (s.planeValid = false ∨ s.fontValid = false → exec i s = .next (faulted .noTarget s)) ∧
    (s.planeValid = true → s.fontValid = true →
      (255 < (arg2 s).toNat → exec i s = .next (faulted .arg s)) ∧
      ((arg2 s).toNat ≤ 255 →
        (4 * s.plane.stride.toNat ≤ (arg0 s).toNat + s.font.cw.toNat - 1 ∨
          s.plane.rows.toNat ≤ (arg1 s).toNat + s.font.ch.toNat - 1) →
        exec i s = .next (faulted .bounds s)))

/-- R80, R309: a drawing command that passes its checks but would access a byte the platform does not admit stays pending for ever, with no effect. -/
def Obligations.InadmissibleDrawingHolds : Prop :=
  ∀ (op : WriteOp) (fg bg : Pixel) (s : State), s.planeValid = true →
    ((arg0 s).toNat < 4 * s.plane.stride.toNat → (arg1 s).toNat < s.plane.rows.toNat →
      admits s (pixAddr s (arg0 s).toNat (arg1 s).toNat) = false →
      exec (.setPixel op fg) s = .next (pending .memory s)) ∧
    (s.fontValid = true → (arg2 s).toNat ≤ 255 →
      (arg0 s).toNat + s.font.cw.toNat - 1 < 4 * s.plane.stride.toNat →
      (arg1 s).toNat + s.font.ch.toNat - 1 < s.plane.rows.toNat →
      (∃ a ∈ glyphFontBytes s (arg2 s).toNat ++
        glyphPlaneBytes s (arg0 s).toNat (arg1 s).toNat, admits s a = false) →
      exec (.drawGlyph op fg bg) s = .next (pending .memory s) ∧
      exec (.drawGlyphBulk op fg bg) s = .next (pending .memory s))

/-- R306, R308: with nothing in between, both glyph commands complete; they change no register and no byte of memory outside the plane bytes the cell covers. -/
def Obligations.GlyphsStayInTheirCell : Prop :=
  ∀ (op : WriteOp) (fg bg : Pixel) (s : State) (i : Instr),
    i = .drawGlyph op fg bg ∨ i = .drawGlyphBulk op fg bg →
    s.mid = [] → TargetsReady s →
    GlyphReady s (arg0 s).toNat (arg1 s).toNat (arg2 s).toNat →
    ∃ t, exec i s = .next t ∧ t = { s with mem := t.mem } ∧
      ∀ a, (∀ b ∈ glyphPlaneBytes s (arg0 s).toNat (arg1 s).toNat, b.toNat ≠ a) →
        Memory.read t.mem a = Memory.read s.mem a

/-- R306, R308, R304: with nothing in between its byte accesses, after either glyph command every pixel of the cell is what the operator makes of it with FG where the glyph's bit is 1 and BG where it is 0, and every other pixel of the plane is as before. The font and the cell do not overlap (R312). -/
def Obligations.GlyphsPaintTheirCell : Prop :=
  ∀ (op : WriteOp) (fg bg : Pixel) (s : State) (i : Instr),
    i = .drawGlyph op fg bg ∨ i = .drawGlyphBulk op fg bg →
    let x := (arg0 s).toNat
    let y := (arg1 s).toNat
    let g := (arg2 s).toNat
    s.mid = [] → TargetsReady s → GlyphReady s x y g → FontApart s x y g →
    ∃ t, exec i s = .next t ∧
      ∀ px py, px < 4 * s.plane.stride.toNat → py < s.plane.rows.toNat →
        planePixel s t.mem px py =
          if x ≤ px ∧ px < x + s.font.cw.toNat ∧ y ≤ py ∧ py < y + s.font.ch.toNat then
            fieldOp op (planePixel s s.mem px py)
              (if glyphBitIn s g (py - y) (px - x) then fg else bg)
          else planePixel s s.mem px py

/-- R310: with nothing in between their byte accesses, the per-pixel path and the bulk path leave the same machine, memory included byte for byte, for every glyph, colours, operator, cell size and position, whatever the plane holds, font and cell not overlapping. -/
def Obligations.GlyphPathsAgree : Prop :=
  ∀ (op : WriteOp) (fg bg : Pixel) (s : State),
    s.mid = [] → TargetsReady s → Memory.wf s.mem →
    FontApart s (arg0 s).toNat (arg1 s).toNat (arg2 s).toNat →
    exec (.drawGlyph op fg bg) s = exec (.drawGlyphBulk op fg bg) s

/-! ### The engine -/

/-- R350: INIT, word 0x00000001, claims the resources in UNINIT when the draw finds them free; it raises F_STATE in any other state and F_RESOURCE when they are taken. -/
def Obligations.InitClaims : Prop :=
  decodeCommand 0x00000001#32 = .ok .init ∧
  ∀ s : State,
    (s.engine ≠ .uninit → exec .init s = .next (faulted .state s)) ∧
    (s.engine = .uninit → s.resOk = false → exec .init s = .next (faulted .resource s)) ∧
    (s.engine = .uninit → s.resOk = true →
      exec .init s = .next { s with engine := .idle, phase := .vsync, token := false })

/-- R352: CLEANUP releases from IDLE, does nothing in UNINIT, raises F_STATE in RUNNING and holds in STOPPING; one that holds performs once STATE is IDLE. That it keeps holding in every other state is log entry M9's reading. -/
def Obligations.CleanupReleases : Prop :=
  ∀ s : State,
    ((portAt s s.port).hold ≠ some .park →
      (s.engine = .uninit → exec .cleanup s = .next s) ∧
      (s.engine = .idle → exec .cleanup s = .next { s with engine := .uninit }) ∧
      (s.engine = .running → exec .cleanup s = .next (faulted .state s)) ∧
      (s.engine = .stopping → exec .cleanup s = .next (pending .park s))) ∧
    ((portAt s s.port).hold = some .park →
      (s.engine = .idle → exec .cleanup s = .next (completed { s with engine := .uninit })) ∧
      (s.engine ≠ .idle → exec .cleanup s = .next s))

/-- R356, R360, R353: START in IDLE with an active mode and an idle pixel channel makes the engine RUNNING and performs the VSYNC entry: TCH armed with COUNT[0] VSYNC lines, LIVE_HANDLE taken as the frame's handle, PCH armed with it for PIXWORDS words. START raises F_STATE outside IDLE, F_NO_MODE without a mode, both without waiting, and otherwise holds while the pixel channel is busy. -/
def Obligations.StartPrimesTheCycle : Prop :=
  ∀ s : State,
    (s.engine = .idle → s.modeValid = true → s.pch.rem = 0 →
      exec .start s = .next (completed { s with
        engine := .running
        phase := .vsync
        tch := { prog := .vsync, idx := 0, rem := 2 * s.count[0].toNat, done := s.tch.done }
        frameHandle := s.liveHandle
        pch := { addr := s.liveHandle, rem := s.pixwords.toNat, past := false } })) ∧
    (s.engine ≠ .idle → exec .start s = .next (faulted .state s)) ∧
    (s.engine = .idle → s.modeValid = false → exec .start s = .next (faulted .noMode s)) ∧
    (s.engine = .idle → s.modeValid = true → s.pch.rem ≠ 0 →
      exec .start s = .next (pending .pixelChannel s))

/-- R358: STOP, word 0x00000006, clears the running flag, does nothing when already stopped or stopping, and raises F_STATE in UNINIT. -/
def Obligations.StopClearsTheRunningFlag : Prop :=
  decodeCommand 0x00000006#32 = .ok .stop ∧
  ∀ s : State,
    (s.engine = .running → exec .stop s = .next { s with engine := .stopping }) ∧
    (s.engine = .idle ∨ s.engine = .stopping → exec .stop s = .next s) ∧
    (s.engine = .uninit → exec .stop s = .next (faulted .state s))

/-- R359, R367: once STOPPING, no ENGINE step begins another frame: it moves on within the frame, or at its end parks; the handle and the pixel channel are never armed again. -/
def Obligations.StoppingParksWithoutANewFrame : Prop :=
  ∀ (s : State) (t : Turn) (rest : List Turn), TurnOf s t rest .engine → s.engine = .stopping →
    ∃ u, step s = .next u ∧ u.frameHandle = s.frameHandle ∧ u.pch = s.pch ∧
      (s.tch.done = true → s.phase ≠ .postVisibleBlank →
        u.engine = .stopping ∧ u.phase ≠ .vsync ∧ u.phase ≠ s.phase) ∧
      (s.tch.done = true → s.phase = .postVisibleBlank →
        u.engine = .idle ∧ u.phase = .vsync ∧ u.tch.prog = .none ∧ u.tch.done = false ∧
        u.tch.rem = s.tch.rem)

/-- R363, R364, R366, R367: the ENGINE step on a completion event consumes it and enters the next phase, arming its program for its line count; the POST_VISIBLE_BLANK entry also releases the token and emits FRAME_CB; after it, a running engine with an idle pixel channel begins the next frame and any other parks. Without a completion event, or with a VSYNC entry due while the pixel channel is still busy (R362), the ENGINE has no step; that its turn then leaves the machine as it is, is log entry M8's choice. -/
def Obligations.EngineEntersTheNextPhase : Prop :=
  ∀ (s : State) (t : Turn) (rest : List Turn), TurnOf s t rest .engine →
   (s.tch.done = true →
    (s.phase = .vsync →
      step s = .next { turnTaken s t rest with
        phase := .postVsyncBlank
        tch := { prog := .blank, idx := 0, rem := 2 * s.count[1].toNat, done := false } }) ∧
    (s.phase = .postVsyncBlank →
      step s = .next { turnTaken s t rest with
        phase := .visible
        tch := { prog := .vis, idx := 0, rem := 4 * s.count[2].toNat, done := false } }) ∧
    (s.phase = .visible →
      step s = .next { turnTaken s t rest with
        phase := .postVisibleBlank
        tch := { prog := .blank, idx := 0, rem := 2 * s.count[3].toNat, done := false }
        token := true
        history := s.history ++ [.frameCb] }) ∧
    (s.phase = .postVisibleBlank → s.engine = .running → s.pch.rem = 0 →
      step s = .next { turnTaken s t rest with
        phase := .vsync
        tch := { prog := .vsync, idx := 0, rem := 2 * s.count[0].toNat, done := false }
        frameHandle := s.liveHandle
        pch := { addr := s.liveHandle, rem := s.pixwords.toNat, past := false } }) ∧
    (s.phase = .postVisibleBlank → s.engine ≠ .running →
      step s = .next { turnTaken s t rest with
        phase := .vsync
        tch := { s.tch with prog := .none, done := false }
        engine := .idle })) ∧
   (s.tch.done = false ∨
      (s.phase = .postVisibleBlank ∧ s.engine = .running ∧ s.pch.rem ≠ 0) →
    step s = .next (turnTaken s t rest))

/-! ### The channels -/

/-- R373, R374: the TCH step moves the word at its ring position to TGEN's FIFO, advances the ring, and raises completion with the last word; with nothing to move or the FIFO full it has no step, and its turn leaves the machine as it is (log entry M8's choice); so it reads no word of the program store while STATE is UNINIT or IDLE, the states in which SET_MODE writes it (R99, R368). Beside the word stands the width of the mode its frame runs in (log entry M13's choice). -/
def Obligations.TchMovesOneWord : Prop :=
  ∀ (s : State) (t : Turn) (rest : List Turn), TurnOf s t rest .tch →
    (s.tch.prog ≠ .none → 0 < s.tch.rem → s.tgen.fifo.length < s.plat.tfifoDepth →
      step s = .next { turnTaken s t rest with
        tgen := { s.tgen with fifo := s.tgen.fifo ++
          [{ word := programWord s s.tch.prog s.tch.idx, width := s.mode.hVis.toNat }] }
        tch := { s.tch with
          idx := (s.tch.idx + 1) % (if s.tch.prog = .vis then 4 else 2)
          rem := s.tch.rem - 1
          done := if s.tch.rem = 1 then true else s.tch.done } }) ∧
    (s.tch.rem = 0 ∨ s.plat.tfifoDepth ≤ s.tgen.fifo.length →
      step s = .next (turnTaken s t rest)) ∧
    (Invariant s → s.engine = .uninit ∨ s.engine = .idle →
      step s = .next (turnTaken s t rest))

/-- R86: the ring address of index i of a program is its base plus 4 times i modulo its length, whatever i, and what TCH reads there is that word of the program. -/
def Obligations.RingStaysInItsProgram : Prop :=
  ∀ (s : State) (i : Nat),
    (ringOffset .vis i).toNat = 0x080 + 4 * (i % 4) ∧
    (ringOffset .blank i).toNat = 0x090 + 4 * (i % 2) ∧
    (ringOffset .vsync i).toNat = 0x098 + 4 * (i % 2) ∧
    some (programWord s .vis i) = s.progVis[i % 4]? ∧
    some (programWord s .blank i) = s.progBlank[i % 2]? ∧
    some (programWord s .vsync i) = s.progVsync[i % 2]?

/-- R210, R212, R214: a timing word with DUR >= 1 executes: HSYNC and VSYNC take its levels for DUR clocks, it joins the executed stream, and with TRIG the event TRIGGER is emitted. That the word stays current with all its clocks left until TGEN's next turn is log entry M12's reading; that TRIGGER stands in the event history is M15's; that PSER then owes the line numbered since the last VS word, of the width that stands beside the word, is M13's. -/
def Obligations.TimingWordExecutes : Prop :=
  ∀ (dur : BitVec 16) (hs vs trig : Bool) (s : State), dur ≠ 0#16 →
    exec (.tw dur hs vs trig) s = .next { s with
      tgen := { s.tgen with cur := some (encode (.tw dur hs vs trig)), left := dur.toNat }
      hsync := hs
      vsync := vs
      executed := s.executed ++ [encode (.tw dur hs vs trig)]
      history := if trig then s.history ++ [.trigger] else s.history
      pser :=
        let n := if vs then 0 else s.pser.nextLine
        if trig then
          { s.pser with
            nextLine := n + 1
            triggers := s.pser.triggers ++ [{ line := n, width := s.tgen.width }] }
        else { s.pser with nextLine := n } }

/-- R114, R210, 93_implementation_defined.md I1: a timing word with DUR = 0 or RSV != 0 that reaches TGEN stops the model, with no code recorded. -/
def Obligations.IllegalTimingWordStops : Prop :=
  (∀ (hs vs trig : Bool) (s : State),
    exec (.tw 0#16 hs vs trig) s = .fault (.illegalTimingWord (encode (.tw 0#16 hs vs trig)))) ∧
  (∀ (s : State) (t : Turn) (rest : List Turn) (q : QueuedWord) (qs : List QueuedWord),
    TurnOf s t rest .tgen → s.tgen.fifo = q :: qs →
    (q.word.toNat % 65536 = 0 ∨ q.word.toNat / 524288 ≠ 0) →
    step s = .fault (.illegalTimingWord q.word))

/-- R377, R84, R376: the PCH step moves the four bytes at PCH.addr, in increasing address order, to PSER's FIFO; with nothing to move, the FIFO full or a byte not admitted (R80) it has no step, and its turn leaves the machine as it is (log entry M8's choice). After the word at 0xFFFFFFFC there is no further byte, and PCH stops; that a bit beside the address says so is log entry M22's choice. -/
def Obligations.PchMovesOneWord : Prop :=
  ∀ (s : State) (t : Turn) (rest : List Turn), TurnOf s t rest .pch →
    (0 < s.pch.rem → s.pser.fifo.length < s.plat.pfifoDepth → s.pch.past = false →
        admitsWord s s.pch.addr = true →
      step s = .next { turnTaken s t rest with
        pser := { s.pser with fifo := s.pser.fifo ++
          [{ b0 := Memory.read s.mem s.pch.addr.toNat
             b1 := Memory.read s.mem (s.pch.addr + 1#32).toNat
             b2 := Memory.read s.mem (s.pch.addr + 2#32).toNat
             b3 := Memory.read s.mem (s.pch.addr + 3#32).toNat }] }
        pch := {
          addr := s.pch.addr + 4#32
          rem := s.pch.rem - 1
          past := if 4294967292 ≤ s.pch.addr.toNat then true else false } }) ∧
    (s.pch.rem = 0 ∨ s.plat.pfifoDepth ≤ s.pser.fifo.length ∨ s.pch.past = true ∨
        admitsWord s s.pch.addr = false →
      step s = .next (turnTaken s t rest))

/-- R378, R82, R83: a line in progress of 16 pixels for each word waiting is shifted out by as many PSER steps: the words' pixels in order, each byte MSB pair first, join the output stream as that line, and PIX returns to 00. One turn of PSER begins the line of the OLDEST trigger, with its width and index, or shifts one word of the line in progress, or, with no trigger or no word, leaves the machine as it is. That a turn is one of these, that a trigger waits, that a turn without a step changes nothing, and what PIX holds between the turns of a line, are log entries M14, M13, M8 and M27; that PIX follows the line also in UNINIT and IDLE, where R258 has it 00, is M30's choice, and that a late word is waited for M21's. -/
def Obligations.PserShiftsAWholeLine : Prop :=
  let pixelsOf (w : PixelWord) : List Pixel :=
    [w.b0, w.b1, w.b2, w.b3].flatMap (fun b =>
      [b.extractLsb' 6 2, b.extractLsb' 4 2, b.extractLsb' 2 2, b.extractLsb' 0 2])
  (∀ (s : State) (ws more : List PixelWord), ws ≠ [] → s.pser.fifo = ws ++ more →
    s.pser.left = 16 * ws.length → s.pser.row = [] →
    pserStep^[ws.length] s = { s with
      pser := { s.pser with fifo := more, left := 0 }
      pix := 0#2
      shifted := s.shifted ++ [{ line := s.pser.line, pixels := ws.flatMap pixelsOf }] }) ∧
  ∀ (s : State) (t : Turn) (rest : List Turn), TurnOf s t rest .pser →
    (s.pser.left = 0 → s.pser.triggers = [] → step s = .next (turnTaken s t rest)) ∧
    (∀ tr trs, s.pser.left = 0 → s.pser.triggers = tr :: trs →
      step s = .next { turnTaken s t rest with
        pser := { s.pser with left := tr.width, line := tr.line, row := [], triggers := trs } }) ∧
    (0 < s.pser.left → s.pser.fifo = [] → step s = .next (turnTaken s t rest)) ∧
    (∀ w ws, 16 < s.pser.left → s.pser.fifo = w :: ws →
      step s = .next { turnTaken s t rest with
        pser := { s.pser with
          fifo := ws, left := s.pser.left - 16, row := s.pser.row ++ pixelsOf w }
        pix := w.b3.extractLsb' 0 2 }) ∧
    (∀ w ws, 0 < s.pser.left → s.pser.left ≤ 16 → s.pser.fifo = w :: ws →
      step s = .next { turnTaken s t rest with
        pser := { s.pser with fifo := ws, left := 0, row := [] }
        pix := 0#2
        shifted := s.shifted ++ [{
          line := s.pser.line
          pixels := s.pser.row ++ (pixelsOf w).take s.pser.left }] })

/-! ### The hand-off -/

/-- R400, R401: PUBLISH, word 0x00000007, of a multiple of 4 makes it the live handle and changes nothing else, in every STATE; of any other value it raises F_ARG. -/
def Obligations.PublishExchangesTheHandle : Prop :=
  decodeCommand 0x00000007#32 = .ok .publish ∧
  ∀ s : State,
    ((arg0 s).toNat % 4 = 0 → exec .publish s = .next { s with liveHandle := arg0 s }) ∧
    ((arg0 s).toNat % 4 ≠ 0 → exec .publish s = .next (faulted .arg s))

/-- R403: WAIT_FRAME, word 0x00000008, takes the token in the same step in which it completes, in every STATE, and holds while there is none. -/
def Obligations.WaitFrameTakesTheToken : Prop :=
  decodeCommand 0x00000008#32 = .ok .waitFrame ∧
  ∀ s : State,
    (s.token = true → exec .waitFrame s = .next (completed { s with token := false })) ∧
    (s.token = false → exec .waitFrame s = .next (pending .frameToken s))

/-- R404: when two hosts hold in WAIT_FRAME and the token is there, the one whose turn comes first completes, the token is gone, and the other keeps holding on its turn. -/
def Obligations.OneWaiterPerRelease : Prop :=
  ∀ (s : State) (t t' : Turn) (rest : List Turn) (h h' : Nat) (c c' : HostCtx),
    s.sched = t :: t' :: rest → t.agent = .host h → t'.agent = .host h' → h ≠ h' →
    s.hosts[h]? = some c → c.status = .waiting → s.hosts[h']? = some c' →
    c'.status = .waiting → h < s.ports.length → h' < s.ports.length →
    (portAt s h).hold = some .frameToken → (portAt s h').hold = some .frameToken →
    (portAt s h).cmd = 8#32 → (portAt s h').cmd = 8#32 → s.token = true →
    ∃ u v, step s = .next u ∧ step u = .next v ∧
      u.token = false ∧ (portAt u h).hold = none ∧
      (u.hosts[h]?).map HostCtx.status = some .ready ∧
      v.token = false ∧ (portAt v h').hold = some .frameToken ∧
      (v.hosts[h']?).map HostCtx.status = some .waiting

/-- R36, R38, R39, R42 to R47, R54, R55: which instruction may write which shared state. Only PUBLISH writes LIVE_HANDLE, among the instructions only START writes FRAME_HANDLE, only SET_MODE the active mode, programs, counts and transfer length, only SET_PLANE and SET_FONT their descriptors, only INIT, CLEANUP, START and STOP the engine state, only INIT and WAIT_FRAME the token, only TW the sync outputs and the executed stream; only VALIDATE, SET_MODE and the geometry queries a RESULT, and only their own port's; only SET_PIXEL and the two glyph commands memory; no instruction writes STAGE, a CMD or ARG register, the hosts or the schedule. -/
def Obligations.WhoWritesSharedState : Prop :=
  ∀ (i : Instr) (s t : State), exec i s = .next t →
    (i ≠ .publish → t.liveHandle = s.liveHandle) ∧
    (i ≠ .start → t.frameHandle = s.frameHandle ∧ t.tch = s.tch) ∧
    (i ≠ .setMode → t.mode = s.mode ∧ t.modeValid = s.modeValid ∧ t.progVis = s.progVis ∧
      t.progBlank = s.progBlank ∧ t.progVsync = s.progVsync ∧ t.count = s.count ∧
      t.pixwords = s.pixwords) ∧
    (i ≠ .setPlane → t.plane = s.plane ∧ t.planeValid = s.planeValid) ∧
    (i ≠ .setFont → t.font = s.font ∧ t.fontValid = s.fontValid) ∧
    (i ≠ .init → i ≠ .cleanup → i ≠ .start → i ≠ .stop → t.engine = s.engine) ∧
    (i ≠ .init → i ≠ .start → t.phase = s.phase) ∧
    (i ≠ .init → i ≠ .waitFrame → t.token = s.token) ∧
    (i.isCommand = true → t.hsync = s.hsync ∧ t.vsync = s.vsync ∧ t.executed = s.executed ∧
      t.tgen = s.tgen ∧ t.history = s.history) ∧
    (i ∉ [.validate, .setMode, .getWidth, .getHeight, .getStride] →
      ∀ p, (portAt t p).result = (portAt s p).result) ∧
    ((∀ op v, i ≠ .setPixel op v) → (∀ op fg bg, i ≠ .drawGlyph op fg bg) →
      (∀ op fg bg, i ≠ .drawGlyphBulk op fg bg) → t.mem = s.mem) ∧
    t.stage = s.stage ∧ t.hosts = s.hosts ∧ t.sched = s.sched ∧ t.plat = s.plat ∧
    t.ports.length = s.ports.length ∧
    ∀ p, (portAt t p).cmd = (portAt s p).cmd ∧ (portAt t p).arg0 = (portAt s p).arg0 ∧
      (portAt t p).arg1 = (portAt s p).arg1 ∧ (portAt t p).arg2 = (portAt s p).arg2 ∧
      (p ≠ s.port → portAt t p = portAt s p)

/-! ### Faults -/

/-- R432, R435, R477, R379: whatever steps, until the platform reset, a recorded fault code stays, the event history and the two output streams keep what they hold and only grow, and at most one FRAME_CB is emitted; so what a run has put out up to its k-th FRAME_CB is a prefix of all it puts out. -/
def Obligations.RecordsAreKept : Prop :=
  ∀ (s u : State) (t : Turn) (rest : List Turn), s.sched = t :: rest → t.agent ≠ .reset →
    step s = .next u →
    (s.fault ≠ .none → u.fault = s.fault) ∧
    s.history <+: u.history ∧ s.executed <+: u.executed ∧ s.shifted <+: u.shifted ∧
    u.history.count .frameCb ≤ s.history.count .frameCb + 1

/-- R432: an instruction that records a fault changes nothing else; its CMD store completes. -/
def Obligations.FaultsChangeNothingElse : Prop :=
  ∀ (i : Instr) (s t : State), exec i s = .next t → t.fault ≠ s.fault → t = faulted t.fault s

/-! ### Reset -/

/-- R470, R471: at State.reset, and after a platform reset in any state, every piece of state of the block has the value R471 gives it; the platform reset does not touch system memory and abandons held commands. That the output streams start anew, and what the model's own fields hold, is log entry M20's choice. -/
def Obligations.ResetValues : Prop :=
  BlockReset State.reset ∧
  ∀ (s : State) (t : Turn) (rest : List Turn), TurnOf s t rest .reset →
    ∃ u, step s = .next u ∧ BlockReset u ∧ NoCommandPending u ∧ u.mem = s.mem ∧
      u.ports.length = s.ports.length ∧ u.plat = s.plat

/-! ### The invariant -/

/-- R471, R473: the machine right after reset meets the invariant and the pixel balance, and, with no image named, the clean-entry premise. -/
def Obligations.ResetMeetsTheInvariant : Prop :=
  Invariant State.reset ∧ PixelInv State.reset ∧ CleanEntry [] State.reset

/-- R368, R209, R86, R401, R50, R51, R9: from every state that meets the invariant, every step of every agent gives one that meets it: memory in canonical form, the engine's state, phase, program and channel agreeing, the program store and TGEN's FIFO legal, the FIFOs within their bounds, the handles aligned, the platform's parameters as R9 asks. -/
def Obligations.StepKeepsTheInvariant : Prop :=
  ∀ s t : State, Invariant s → step s = .next t → Invariant t

/-- R378, R161: every step of every agent keeps the pixel balance: an active mode is whole, and the pixels PCH has still to read with those PSER holds are exactly those of the lines still to be shifted, each of its own frame's width. So a frame's visible lines consume exactly the PIXWORDS words its VSYNC entry armed, also when SET_MODE replaces the mode while the FIFOs drain. How the widths are kept is log entry M13's choice. -/
def Obligations.StepKeepsThePixelBalance : Prop :=
  ∀ s t : State, Invariant s → PixelInv s → step s = .next t → PixelInv t

/-- R478: in a run without end that is weakly fair, in which no platform reset comes, a RUNNING engine completes each frame, a STOPPING engine parks within one frame, and a CLEANUP held in STOPPING comes to the step at which it performs and, unless another port takes STATE out of IDLE first, completes; a host with an access to make comes to make it. That a host's fairness is that of its own sequence, and no more, is log entry M23's reading. -/
def Obligations.FairRunsMakeProgress : Prop :=
  ∀ (states : Nat → State) (turns : Nat → Turn), IsRun states turns → WeaklyFair states turns →
    WithoutReset turns → Invariant (states 0) →
    FramesComplete states ∧ StoppingParks states ∧ HeldCleanupComesFree states ∧
    HeldCleanupCompletes states turns ∧ HostsGoOn states turns

/-- R477, R478: in such a run that also begins in the pixel balance, once every host has completed its last access, STATE is not RUNNING and every pixel read still to come is admitted, the run ends: the engine parks, TGEN, PCH and PSER drain, and nothing is left to do. TGEN's idle step, which ends its last word, is log entry M12's reading, and that no trigger is left M31's choice. -/
def Obligations.FairRunsEnd : Prop :=
  ∀ (states : Nat → State) (turns : Nat → Turn), IsRun states turns → WeaklyFair states turns →
    WithoutReset turns → Invariant (states 0) → PixelInv (states 0) → RunsEnd states

/-- R209, R480, R430, R436, 93_implementation_defined.md I1: no step of any state ends in a refusal, since what the spec refuses (R49) is a mark in the state and the machine goes on (log entry M18's choice); and from a state that meets the invariant no illegal timing word reaches TGEN, so no step stops. -/
def Obligations.InvariantExcludesStops : Prop :=
  (∀ (s : State) (r : Refusal), step s ≠ .refused r) ∧
  ∀ s : State, Invariant s → ∃ t, step s = .next t
end

