-- ==== Sys2Proof/Laws/State.lean ====
section
/-! SUPPORT. One lemma per field of State per shared update, true by unfolding once, so that no later proof unfolds a record update. -/

namespace Sys2Proof.Machine

@[simp] theorem updPort_engine (p : Nat) (f : Port → Port) (s : State) : (updPort p f s).engine = s.engine := rfl
@[simp] theorem updPort_phase (p : Nat) (f : Port → Port) (s : State) : (updPort p f s).phase = s.phase := rfl
@[simp] theorem updPort_modeValid (p : Nat) (f : Port → Port) (s : State) : (updPort p f s).modeValid = s.modeValid := rfl
@[simp] theorem updPort_token (p : Nat) (f : Port → Port) (s : State) : (updPort p f s).token = s.token := rfl
@[simp] theorem updPort_planeValid (p : Nat) (f : Port → Port) (s : State) : (updPort p f s).planeValid = s.planeValid := rfl
@[simp] theorem updPort_fontValid (p : Nat) (f : Port → Port) (s : State) : (updPort p f s).fontValid = s.fontValid := rfl
@[simp] theorem updPort_fault (p : Nat) (f : Port → Port) (s : State) : (updPort p f s).fault = s.fault := rfl
@[simp] theorem updPort_liveHandle (p : Nat) (f : Port → Port) (s : State) : (updPort p f s).liveHandle = s.liveHandle := rfl
@[simp] theorem updPort_frameHandle (p : Nat) (f : Port → Port) (s : State) : (updPort p f s).frameHandle = s.frameHandle := rfl
@[simp] theorem updPort_pixwords (p : Nat) (f : Port → Port) (s : State) : (updPort p f s).pixwords = s.pixwords := rfl
@[simp] theorem updPort_plane (p : Nat) (f : Port → Port) (s : State) : (updPort p f s).plane = s.plane := rfl
@[simp] theorem updPort_font (p : Nat) (f : Port → Port) (s : State) : (updPort p f s).font = s.font := rfl
@[simp] theorem updPort_stage (p : Nat) (f : Port → Port) (s : State) : (updPort p f s).stage = s.stage := rfl
@[simp] theorem updPort_mode (p : Nat) (f : Port → Port) (s : State) : (updPort p f s).mode = s.mode := rfl
@[simp] theorem updPort_progVis (p : Nat) (f : Port → Port) (s : State) : (updPort p f s).progVis = s.progVis := rfl
@[simp] theorem updPort_progBlank (p : Nat) (f : Port → Port) (s : State) : (updPort p f s).progBlank = s.progBlank := rfl
@[simp] theorem updPort_progVsync (p : Nat) (f : Port → Port) (s : State) : (updPort p f s).progVsync = s.progVsync := rfl
@[simp] theorem updPort_count (p : Nat) (f : Port → Port) (s : State) : (updPort p f s).count = s.count := rfl
@[simp] theorem updPort_ports (p : Nat) (f : Port → Port) (s : State) : (updPort p f s).ports = s.ports.modify p f := rfl
@[simp] theorem updPort_tch (p : Nat) (f : Port → Port) (s : State) : (updPort p f s).tch = s.tch := rfl
@[simp] theorem updPort_tgen (p : Nat) (f : Port → Port) (s : State) : (updPort p f s).tgen = s.tgen := rfl
@[simp] theorem updPort_pch (p : Nat) (f : Port → Port) (s : State) : (updPort p f s).pch = s.pch := rfl
@[simp] theorem updPort_pser (p : Nat) (f : Port → Port) (s : State) : (updPort p f s).pser = s.pser := rfl
@[simp] theorem updPort_hsync (p : Nat) (f : Port → Port) (s : State) : (updPort p f s).hsync = s.hsync := rfl
@[simp] theorem updPort_vsync (p : Nat) (f : Port → Port) (s : State) : (updPort p f s).vsync = s.vsync := rfl
@[simp] theorem updPort_pix (p : Nat) (f : Port → Port) (s : State) : (updPort p f s).pix = s.pix := rfl
@[simp] theorem updPort_history (p : Nat) (f : Port → Port) (s : State) : (updPort p f s).history = s.history := rfl
@[simp] theorem updPort_executed (p : Nat) (f : Port → Port) (s : State) : (updPort p f s).executed = s.executed := rfl
@[simp] theorem updPort_shifted (p : Nat) (f : Port → Port) (s : State) : (updPort p f s).shifted = s.shifted := rfl
@[simp] theorem updPort_mem (p : Nat) (f : Port → Port) (s : State) : (updPort p f s).mem = s.mem := rfl
@[simp] theorem updPort_hosts (p : Nat) (f : Port → Port) (s : State) : (updPort p f s).hosts = s.hosts := rfl
@[simp] theorem updPort_refusalMark (p : Nat) (f : Port → Port) (s : State) : (updPort p f s).refusalMark = s.refusalMark := rfl
@[simp] theorem updPort_port (p : Nat) (f : Port → Port) (s : State) : (updPort p f s).port = s.port := rfl
@[simp] theorem updPort_resOk (p : Nat) (f : Port → Port) (s : State) : (updPort p f s).resOk = s.resOk := rfl
@[simp] theorem updPort_mid (p : Nat) (f : Port → Port) (s : State) : (updPort p f s).mid = s.mid := rfl
@[simp] theorem updPort_sched (p : Nat) (f : Port → Port) (s : State) : (updPort p f s).sched = s.sched := rfl
@[simp] theorem updPort_freeTurns (p : Nat) (f : Port → Port) (s : State) : (updPort p f s).freeTurns = s.freeTurns := rfl
@[simp] theorem updPort_plat (p : Nat) (f : Port → Port) (s : State) : (updPort p f s).plat = s.plat := rfl

@[simp] theorem setResult_engine (v : Word) (s : State) : (setResult v s).engine = s.engine := rfl
@[simp] theorem setResult_phase (v : Word) (s : State) : (setResult v s).phase = s.phase := rfl
@[simp] theorem setResult_modeValid (v : Word) (s : State) : (setResult v s).modeValid = s.modeValid := rfl
@[simp] theorem setResult_token (v : Word) (s : State) : (setResult v s).token = s.token := rfl
@[simp] theorem setResult_planeValid (v : Word) (s : State) : (setResult v s).planeValid = s.planeValid := rfl
@[simp] theorem setResult_fontValid (v : Word) (s : State) : (setResult v s).fontValid = s.fontValid := rfl
@[simp] theorem setResult_fault (v : Word) (s : State) : (setResult v s).fault = s.fault := rfl
@[simp] theorem setResult_liveHandle (v : Word) (s : State) : (setResult v s).liveHandle = s.liveHandle := rfl
@[simp] theorem setResult_frameHandle (v : Word) (s : State) : (setResult v s).frameHandle = s.frameHandle := rfl
@[simp] theorem setResult_pixwords (v : Word) (s : State) : (setResult v s).pixwords = s.pixwords := rfl
@[simp] theorem setResult_plane (v : Word) (s : State) : (setResult v s).plane = s.plane := rfl
@[simp] theorem setResult_font (v : Word) (s : State) : (setResult v s).font = s.font := rfl
@[simp] theorem setResult_stage (v : Word) (s : State) : (setResult v s).stage = s.stage := rfl
@[simp] theorem setResult_mode (v : Word) (s : State) : (setResult v s).mode = s.mode := rfl
@[simp] theorem setResult_progVis (v : Word) (s : State) : (setResult v s).progVis = s.progVis := rfl
@[simp] theorem setResult_progBlank (v : Word) (s : State) : (setResult v s).progBlank = s.progBlank := rfl
@[simp] theorem setResult_progVsync (v : Word) (s : State) : (setResult v s).progVsync = s.progVsync := rfl
@[simp] theorem setResult_count (v : Word) (s : State) : (setResult v s).count = s.count := rfl
@[simp] theorem setResult_ports (v : Word) (s : State) : (setResult v s).ports = s.ports.modify s.port (fun q => { q with result := v }) := rfl
@[simp] theorem setResult_tch (v : Word) (s : State) : (setResult v s).tch = s.tch := rfl
@[simp] theorem setResult_tgen (v : Word) (s : State) : (setResult v s).tgen = s.tgen := rfl
@[simp] theorem setResult_pch (v : Word) (s : State) : (setResult v s).pch = s.pch := rfl
@[simp] theorem setResult_pser (v : Word) (s : State) : (setResult v s).pser = s.pser := rfl
@[simp] theorem setResult_hsync (v : Word) (s : State) : (setResult v s).hsync = s.hsync := rfl
@[simp] theorem setResult_vsync (v : Word) (s : State) : (setResult v s).vsync = s.vsync := rfl
@[simp] theorem setResult_pix (v : Word) (s : State) : (setResult v s).pix = s.pix := rfl
@[simp] theorem setResult_history (v : Word) (s : State) : (setResult v s).history = s.history := rfl
@[simp] theorem setResult_executed (v : Word) (s : State) : (setResult v s).executed = s.executed := rfl
@[simp] theorem setResult_shifted (v : Word) (s : State) : (setResult v s).shifted = s.shifted := rfl
@[simp] theorem setResult_mem (v : Word) (s : State) : (setResult v s).mem = s.mem := rfl
@[simp] theorem setResult_hosts (v : Word) (s : State) : (setResult v s).hosts = s.hosts := rfl
@[simp] theorem setResult_refusalMark (v : Word) (s : State) : (setResult v s).refusalMark = s.refusalMark := rfl
@[simp] theorem setResult_port (v : Word) (s : State) : (setResult v s).port = s.port := rfl
@[simp] theorem setResult_resOk (v : Word) (s : State) : (setResult v s).resOk = s.resOk := rfl
@[simp] theorem setResult_mid (v : Word) (s : State) : (setResult v s).mid = s.mid := rfl
@[simp] theorem setResult_sched (v : Word) (s : State) : (setResult v s).sched = s.sched := rfl
@[simp] theorem setResult_freeTurns (v : Word) (s : State) : (setResult v s).freeTurns = s.freeTurns := rfl
@[simp] theorem setResult_plat (v : Word) (s : State) : (setResult v s).plat = s.plat := rfl

@[simp] theorem holdOn_engine (h : Hold) (s : State) : (holdOn h s).engine = s.engine := rfl
@[simp] theorem holdOn_phase (h : Hold) (s : State) : (holdOn h s).phase = s.phase := rfl
@[simp] theorem holdOn_modeValid (h : Hold) (s : State) : (holdOn h s).modeValid = s.modeValid := rfl
@[simp] theorem holdOn_token (h : Hold) (s : State) : (holdOn h s).token = s.token := rfl
@[simp] theorem holdOn_planeValid (h : Hold) (s : State) : (holdOn h s).planeValid = s.planeValid := rfl
@[simp] theorem holdOn_fontValid (h : Hold) (s : State) : (holdOn h s).fontValid = s.fontValid := rfl
@[simp] theorem holdOn_fault (h : Hold) (s : State) : (holdOn h s).fault = s.fault := rfl
@[simp] theorem holdOn_liveHandle (h : Hold) (s : State) : (holdOn h s).liveHandle = s.liveHandle := rfl
@[simp] theorem holdOn_frameHandle (h : Hold) (s : State) : (holdOn h s).frameHandle = s.frameHandle := rfl
@[simp] theorem holdOn_pixwords (h : Hold) (s : State) : (holdOn h s).pixwords = s.pixwords := rfl
@[simp] theorem holdOn_plane (h : Hold) (s : State) : (holdOn h s).plane = s.plane := rfl
@[simp] theorem holdOn_font (h : Hold) (s : State) : (holdOn h s).font = s.font := rfl
@[simp] theorem holdOn_stage (h : Hold) (s : State) : (holdOn h s).stage = s.stage := rfl
@[simp] theorem holdOn_mode (h : Hold) (s : State) : (holdOn h s).mode = s.mode := rfl
@[simp] theorem holdOn_progVis (h : Hold) (s : State) : (holdOn h s).progVis = s.progVis := rfl
@[simp] theorem holdOn_progBlank (h : Hold) (s : State) : (holdOn h s).progBlank = s.progBlank := rfl
@[simp] theorem holdOn_progVsync (h : Hold) (s : State) : (holdOn h s).progVsync = s.progVsync := rfl
@[simp] theorem holdOn_count (h : Hold) (s : State) : (holdOn h s).count = s.count := rfl
@[simp] theorem holdOn_ports (h : Hold) (s : State) : (holdOn h s).ports = s.ports.modify s.port (fun q => { q with hold := some h }) := rfl
@[simp] theorem holdOn_tch (h : Hold) (s : State) : (holdOn h s).tch = s.tch := rfl
@[simp] theorem holdOn_tgen (h : Hold) (s : State) : (holdOn h s).tgen = s.tgen := rfl
@[simp] theorem holdOn_pch (h : Hold) (s : State) : (holdOn h s).pch = s.pch := rfl
@[simp] theorem holdOn_pser (h : Hold) (s : State) : (holdOn h s).pser = s.pser := rfl
@[simp] theorem holdOn_hsync (h : Hold) (s : State) : (holdOn h s).hsync = s.hsync := rfl
@[simp] theorem holdOn_vsync (h : Hold) (s : State) : (holdOn h s).vsync = s.vsync := rfl
@[simp] theorem holdOn_pix (h : Hold) (s : State) : (holdOn h s).pix = s.pix := rfl
@[simp] theorem holdOn_history (h : Hold) (s : State) : (holdOn h s).history = s.history := rfl
@[simp] theorem holdOn_executed (h : Hold) (s : State) : (holdOn h s).executed = s.executed := rfl
@[simp] theorem holdOn_shifted (h : Hold) (s : State) : (holdOn h s).shifted = s.shifted := rfl
@[simp] theorem holdOn_mem (h : Hold) (s : State) : (holdOn h s).mem = s.mem := rfl
@[simp] theorem holdOn_hosts (h : Hold) (s : State) : (holdOn h s).hosts = s.hosts := rfl
@[simp] theorem holdOn_refusalMark (h : Hold) (s : State) : (holdOn h s).refusalMark = s.refusalMark := rfl
@[simp] theorem holdOn_port (h : Hold) (s : State) : (holdOn h s).port = s.port := rfl
@[simp] theorem holdOn_resOk (h : Hold) (s : State) : (holdOn h s).resOk = s.resOk := rfl
@[simp] theorem holdOn_mid (h : Hold) (s : State) : (holdOn h s).mid = s.mid := rfl
@[simp] theorem holdOn_sched (h : Hold) (s : State) : (holdOn h s).sched = s.sched := rfl
@[simp] theorem holdOn_freeTurns (h : Hold) (s : State) : (holdOn h s).freeTurns = s.freeTurns := rfl
@[simp] theorem holdOn_plat (h : Hold) (s : State) : (holdOn h s).plat = s.plat := rfl

@[simp] theorem complete_engine (s : State) : (complete s).engine = s.engine := rfl
@[simp] theorem complete_phase (s : State) : (complete s).phase = s.phase := rfl
@[simp] theorem complete_modeValid (s : State) : (complete s).modeValid = s.modeValid := rfl
@[simp] theorem complete_token (s : State) : (complete s).token = s.token := rfl
@[simp] theorem complete_planeValid (s : State) : (complete s).planeValid = s.planeValid := rfl
@[simp] theorem complete_fontValid (s : State) : (complete s).fontValid = s.fontValid := rfl
@[simp] theorem complete_fault (s : State) : (complete s).fault = s.fault := rfl
@[simp] theorem complete_liveHandle (s : State) : (complete s).liveHandle = s.liveHandle := rfl
@[simp] theorem complete_frameHandle (s : State) : (complete s).frameHandle = s.frameHandle := rfl
@[simp] theorem complete_pixwords (s : State) : (complete s).pixwords = s.pixwords := rfl
@[simp] theorem complete_plane (s : State) : (complete s).plane = s.plane := rfl
@[simp] theorem complete_font (s : State) : (complete s).font = s.font := rfl
@[simp] theorem complete_stage (s : State) : (complete s).stage = s.stage := rfl
@[simp] theorem complete_mode (s : State) : (complete s).mode = s.mode := rfl
@[simp] theorem complete_progVis (s : State) : (complete s).progVis = s.progVis := rfl
@[simp] theorem complete_progBlank (s : State) : (complete s).progBlank = s.progBlank := rfl
@[simp] theorem complete_progVsync (s : State) : (complete s).progVsync = s.progVsync := rfl
@[simp] theorem complete_count (s : State) : (complete s).count = s.count := rfl
@[simp] theorem complete_ports (s : State) : (complete s).ports = s.ports.modify s.port (fun q => { q with hold := none }) := rfl
@[simp] theorem complete_tch (s : State) : (complete s).tch = s.tch := rfl
@[simp] theorem complete_tgen (s : State) : (complete s).tgen = s.tgen := rfl
@[simp] theorem complete_pch (s : State) : (complete s).pch = s.pch := rfl
@[simp] theorem complete_pser (s : State) : (complete s).pser = s.pser := rfl
@[simp] theorem complete_hsync (s : State) : (complete s).hsync = s.hsync := rfl
@[simp] theorem complete_vsync (s : State) : (complete s).vsync = s.vsync := rfl
@[simp] theorem complete_pix (s : State) : (complete s).pix = s.pix := rfl
@[simp] theorem complete_history (s : State) : (complete s).history = s.history := rfl
@[simp] theorem complete_executed (s : State) : (complete s).executed = s.executed := rfl
@[simp] theorem complete_shifted (s : State) : (complete s).shifted = s.shifted := rfl
@[simp] theorem complete_mem (s : State) : (complete s).mem = s.mem := rfl
@[simp] theorem complete_hosts (s : State) : (complete s).hosts = s.hosts := rfl
@[simp] theorem complete_refusalMark (s : State) : (complete s).refusalMark = s.refusalMark := rfl
@[simp] theorem complete_port (s : State) : (complete s).port = s.port := rfl
@[simp] theorem complete_resOk (s : State) : (complete s).resOk = s.resOk := rfl
@[simp] theorem complete_mid (s : State) : (complete s).mid = s.mid := rfl
@[simp] theorem complete_sched (s : State) : (complete s).sched = s.sched := rfl
@[simp] theorem complete_freeTurns (s : State) : (complete s).freeTurns = s.freeTurns := rfl
@[simp] theorem complete_plat (s : State) : (complete s).plat = s.plat := rfl

@[simp] theorem raiseFault_engine (c : FaultCode) (s : State) : (raiseFault c s).engine = s.engine := rfl
@[simp] theorem raiseFault_phase (c : FaultCode) (s : State) : (raiseFault c s).phase = s.phase := rfl
@[simp] theorem raiseFault_modeValid (c : FaultCode) (s : State) : (raiseFault c s).modeValid = s.modeValid := rfl
@[simp] theorem raiseFault_token (c : FaultCode) (s : State) : (raiseFault c s).token = s.token := rfl
@[simp] theorem raiseFault_planeValid (c : FaultCode) (s : State) : (raiseFault c s).planeValid = s.planeValid := rfl
@[simp] theorem raiseFault_fontValid (c : FaultCode) (s : State) : (raiseFault c s).fontValid = s.fontValid := rfl
@[simp] theorem raiseFault_fault (c : FaultCode) (s : State) : (raiseFault c s).fault = recordedFault s.fault c := rfl
@[simp] theorem raiseFault_liveHandle (c : FaultCode) (s : State) : (raiseFault c s).liveHandle = s.liveHandle := rfl
@[simp] theorem raiseFault_frameHandle (c : FaultCode) (s : State) : (raiseFault c s).frameHandle = s.frameHandle := rfl
@[simp] theorem raiseFault_pixwords (c : FaultCode) (s : State) : (raiseFault c s).pixwords = s.pixwords := rfl
@[simp] theorem raiseFault_plane (c : FaultCode) (s : State) : (raiseFault c s).plane = s.plane := rfl
@[simp] theorem raiseFault_font (c : FaultCode) (s : State) : (raiseFault c s).font = s.font := rfl
@[simp] theorem raiseFault_stage (c : FaultCode) (s : State) : (raiseFault c s).stage = s.stage := rfl
@[simp] theorem raiseFault_mode (c : FaultCode) (s : State) : (raiseFault c s).mode = s.mode := rfl
@[simp] theorem raiseFault_progVis (c : FaultCode) (s : State) : (raiseFault c s).progVis = s.progVis := rfl
@[simp] theorem raiseFault_progBlank (c : FaultCode) (s : State) : (raiseFault c s).progBlank = s.progBlank := rfl
@[simp] theorem raiseFault_progVsync (c : FaultCode) (s : State) : (raiseFault c s).progVsync = s.progVsync := rfl
@[simp] theorem raiseFault_count (c : FaultCode) (s : State) : (raiseFault c s).count = s.count := rfl
@[simp] theorem raiseFault_ports (c : FaultCode) (s : State) : (raiseFault c s).ports = s.ports.modify s.port (fun q => { q with hold := none }) := rfl
@[simp] theorem raiseFault_tch (c : FaultCode) (s : State) : (raiseFault c s).tch = s.tch := rfl
@[simp] theorem raiseFault_tgen (c : FaultCode) (s : State) : (raiseFault c s).tgen = s.tgen := rfl
@[simp] theorem raiseFault_pch (c : FaultCode) (s : State) : (raiseFault c s).pch = s.pch := rfl
@[simp] theorem raiseFault_pser (c : FaultCode) (s : State) : (raiseFault c s).pser = s.pser := rfl
@[simp] theorem raiseFault_hsync (c : FaultCode) (s : State) : (raiseFault c s).hsync = s.hsync := rfl
@[simp] theorem raiseFault_vsync (c : FaultCode) (s : State) : (raiseFault c s).vsync = s.vsync := rfl
@[simp] theorem raiseFault_pix (c : FaultCode) (s : State) : (raiseFault c s).pix = s.pix := rfl
@[simp] theorem raiseFault_history (c : FaultCode) (s : State) : (raiseFault c s).history = s.history := rfl
@[simp] theorem raiseFault_executed (c : FaultCode) (s : State) : (raiseFault c s).executed = s.executed := rfl
@[simp] theorem raiseFault_shifted (c : FaultCode) (s : State) : (raiseFault c s).shifted = s.shifted := rfl
@[simp] theorem raiseFault_mem (c : FaultCode) (s : State) : (raiseFault c s).mem = s.mem := rfl
@[simp] theorem raiseFault_hosts (c : FaultCode) (s : State) : (raiseFault c s).hosts = s.hosts := rfl
@[simp] theorem raiseFault_refusalMark (c : FaultCode) (s : State) : (raiseFault c s).refusalMark = s.refusalMark := rfl
@[simp] theorem raiseFault_port (c : FaultCode) (s : State) : (raiseFault c s).port = s.port := rfl
@[simp] theorem raiseFault_resOk (c : FaultCode) (s : State) : (raiseFault c s).resOk = s.resOk := rfl
@[simp] theorem raiseFault_mid (c : FaultCode) (s : State) : (raiseFault c s).mid = s.mid := rfl
@[simp] theorem raiseFault_sched (c : FaultCode) (s : State) : (raiseFault c s).sched = s.sched := rfl
@[simp] theorem raiseFault_freeTurns (c : FaultCode) (s : State) : (raiseFault c s).freeTurns = s.freeTurns := rfl
@[simp] theorem raiseFault_plat (c : FaultCode) (s : State) : (raiseFault c s).plat = s.plat := rfl

@[simp] theorem updHost_engine (h : Nat) (f : HostCtx → HostCtx) (s : State) : (updHost h f s).engine = s.engine := rfl
@[simp] theorem updHost_phase (h : Nat) (f : HostCtx → HostCtx) (s : State) : (updHost h f s).phase = s.phase := rfl
@[simp] theorem updHost_modeValid (h : Nat) (f : HostCtx → HostCtx) (s : State) : (updHost h f s).modeValid = s.modeValid := rfl
@[simp] theorem updHost_token (h : Nat) (f : HostCtx → HostCtx) (s : State) : (updHost h f s).token = s.token := rfl
@[simp] theorem updHost_planeValid (h : Nat) (f : HostCtx → HostCtx) (s : State) : (updHost h f s).planeValid = s.planeValid := rfl
@[simp] theorem updHost_fontValid (h : Nat) (f : HostCtx → HostCtx) (s : State) : (updHost h f s).fontValid = s.fontValid := rfl
@[simp] theorem updHost_fault (h : Nat) (f : HostCtx → HostCtx) (s : State) : (updHost h f s).fault = s.fault := rfl
@[simp] theorem updHost_liveHandle (h : Nat) (f : HostCtx → HostCtx) (s : State) : (updHost h f s).liveHandle = s.liveHandle := rfl
@[simp] theorem updHost_frameHandle (h : Nat) (f : HostCtx → HostCtx) (s : State) : (updHost h f s).frameHandle = s.frameHandle := rfl
@[simp] theorem updHost_pixwords (h : Nat) (f : HostCtx → HostCtx) (s : State) : (updHost h f s).pixwords = s.pixwords := rfl
@[simp] theorem updHost_plane (h : Nat) (f : HostCtx → HostCtx) (s : State) : (updHost h f s).plane = s.plane := rfl
@[simp] theorem updHost_font (h : Nat) (f : HostCtx → HostCtx) (s : State) : (updHost h f s).font = s.font := rfl
@[simp] theorem updHost_stage (h : Nat) (f : HostCtx → HostCtx) (s : State) : (updHost h f s).stage = s.stage := rfl
@[simp] theorem updHost_mode (h : Nat) (f : HostCtx → HostCtx) (s : State) : (updHost h f s).mode = s.mode := rfl
@[simp] theorem updHost_progVis (h : Nat) (f : HostCtx → HostCtx) (s : State) : (updHost h f s).progVis = s.progVis := rfl
@[simp] theorem updHost_progBlank (h : Nat) (f : HostCtx → HostCtx) (s : State) : (updHost h f s).progBlank = s.progBlank := rfl
@[simp] theorem updHost_progVsync (h : Nat) (f : HostCtx → HostCtx) (s : State) : (updHost h f s).progVsync = s.progVsync := rfl
@[simp] theorem updHost_count (h : Nat) (f : HostCtx → HostCtx) (s : State) : (updHost h f s).count = s.count := rfl
@[simp] theorem updHost_ports (h : Nat) (f : HostCtx → HostCtx) (s : State) : (updHost h f s).ports = s.ports := rfl
@[simp] theorem updHost_tch (h : Nat) (f : HostCtx → HostCtx) (s : State) : (updHost h f s).tch = s.tch := rfl
@[simp] theorem updHost_tgen (h : Nat) (f : HostCtx → HostCtx) (s : State) : (updHost h f s).tgen = s.tgen := rfl
@[simp] theorem updHost_pch (h : Nat) (f : HostCtx → HostCtx) (s : State) : (updHost h f s).pch = s.pch := rfl
@[simp] theorem updHost_pser (h : Nat) (f : HostCtx → HostCtx) (s : State) : (updHost h f s).pser = s.pser := rfl
@[simp] theorem updHost_hsync (h : Nat) (f : HostCtx → HostCtx) (s : State) : (updHost h f s).hsync = s.hsync := rfl
@[simp] theorem updHost_vsync (h : Nat) (f : HostCtx → HostCtx) (s : State) : (updHost h f s).vsync = s.vsync := rfl
@[simp] theorem updHost_pix (h : Nat) (f : HostCtx → HostCtx) (s : State) : (updHost h f s).pix = s.pix := rfl
@[simp] theorem updHost_history (h : Nat) (f : HostCtx → HostCtx) (s : State) : (updHost h f s).history = s.history := rfl
@[simp] theorem updHost_executed (h : Nat) (f : HostCtx → HostCtx) (s : State) : (updHost h f s).executed = s.executed := rfl
@[simp] theorem updHost_shifted (h : Nat) (f : HostCtx → HostCtx) (s : State) : (updHost h f s).shifted = s.shifted := rfl
@[simp] theorem updHost_mem (h : Nat) (f : HostCtx → HostCtx) (s : State) : (updHost h f s).mem = s.mem := rfl
@[simp] theorem updHost_hosts (h : Nat) (f : HostCtx → HostCtx) (s : State) : (updHost h f s).hosts = s.hosts.modify h f := rfl
@[simp] theorem updHost_refusalMark (h : Nat) (f : HostCtx → HostCtx) (s : State) : (updHost h f s).refusalMark = s.refusalMark := rfl
@[simp] theorem updHost_port (h : Nat) (f : HostCtx → HostCtx) (s : State) : (updHost h f s).port = s.port := rfl
@[simp] theorem updHost_resOk (h : Nat) (f : HostCtx → HostCtx) (s : State) : (updHost h f s).resOk = s.resOk := rfl
@[simp] theorem updHost_mid (h : Nat) (f : HostCtx → HostCtx) (s : State) : (updHost h f s).mid = s.mid := rfl
@[simp] theorem updHost_sched (h : Nat) (f : HostCtx → HostCtx) (s : State) : (updHost h f s).sched = s.sched := rfl
@[simp] theorem updHost_freeTurns (h : Nat) (f : HostCtx → HostCtx) (s : State) : (updHost h f s).freeTurns = s.freeTurns := rfl
@[simp] theorem updHost_plat (h : Nat) (f : HostCtx → HostCtx) (s : State) : (updHost h f s).plat = s.plat := rfl

@[simp] theorem takeAccess_engine (h : Nat) (s : State) : (takeAccess h s).engine = s.engine := rfl
@[simp] theorem takeAccess_phase (h : Nat) (s : State) : (takeAccess h s).phase = s.phase := rfl
@[simp] theorem takeAccess_modeValid (h : Nat) (s : State) : (takeAccess h s).modeValid = s.modeValid := rfl
@[simp] theorem takeAccess_token (h : Nat) (s : State) : (takeAccess h s).token = s.token := rfl
@[simp] theorem takeAccess_planeValid (h : Nat) (s : State) : (takeAccess h s).planeValid = s.planeValid := rfl
@[simp] theorem takeAccess_fontValid (h : Nat) (s : State) : (takeAccess h s).fontValid = s.fontValid := rfl
@[simp] theorem takeAccess_fault (h : Nat) (s : State) : (takeAccess h s).fault = s.fault := rfl
@[simp] theorem takeAccess_liveHandle (h : Nat) (s : State) : (takeAccess h s).liveHandle = s.liveHandle := rfl
@[simp] theorem takeAccess_frameHandle (h : Nat) (s : State) : (takeAccess h s).frameHandle = s.frameHandle := rfl
@[simp] theorem takeAccess_pixwords (h : Nat) (s : State) : (takeAccess h s).pixwords = s.pixwords := rfl
@[simp] theorem takeAccess_plane (h : Nat) (s : State) : (takeAccess h s).plane = s.plane := rfl
@[simp] theorem takeAccess_font (h : Nat) (s : State) : (takeAccess h s).font = s.font := rfl
@[simp] theorem takeAccess_stage (h : Nat) (s : State) : (takeAccess h s).stage = s.stage := rfl
@[simp] theorem takeAccess_mode (h : Nat) (s : State) : (takeAccess h s).mode = s.mode := rfl
@[simp] theorem takeAccess_progVis (h : Nat) (s : State) : (takeAccess h s).progVis = s.progVis := rfl
@[simp] theorem takeAccess_progBlank (h : Nat) (s : State) : (takeAccess h s).progBlank = s.progBlank := rfl
@[simp] theorem takeAccess_progVsync (h : Nat) (s : State) : (takeAccess h s).progVsync = s.progVsync := rfl
@[simp] theorem takeAccess_count (h : Nat) (s : State) : (takeAccess h s).count = s.count := rfl
@[simp] theorem takeAccess_ports (h : Nat) (s : State) : (takeAccess h s).ports = s.ports := rfl
@[simp] theorem takeAccess_tch (h : Nat) (s : State) : (takeAccess h s).tch = s.tch := rfl
@[simp] theorem takeAccess_tgen (h : Nat) (s : State) : (takeAccess h s).tgen = s.tgen := rfl
@[simp] theorem takeAccess_pch (h : Nat) (s : State) : (takeAccess h s).pch = s.pch := rfl
@[simp] theorem takeAccess_pser (h : Nat) (s : State) : (takeAccess h s).pser = s.pser := rfl
@[simp] theorem takeAccess_hsync (h : Nat) (s : State) : (takeAccess h s).hsync = s.hsync := rfl
@[simp] theorem takeAccess_vsync (h : Nat) (s : State) : (takeAccess h s).vsync = s.vsync := rfl
@[simp] theorem takeAccess_pix (h : Nat) (s : State) : (takeAccess h s).pix = s.pix := rfl
@[simp] theorem takeAccess_history (h : Nat) (s : State) : (takeAccess h s).history = s.history := rfl
@[simp] theorem takeAccess_executed (h : Nat) (s : State) : (takeAccess h s).executed = s.executed := rfl
@[simp] theorem takeAccess_shifted (h : Nat) (s : State) : (takeAccess h s).shifted = s.shifted := rfl
@[simp] theorem takeAccess_mem (h : Nat) (s : State) : (takeAccess h s).mem = s.mem := rfl
@[simp] theorem takeAccess_hosts (h : Nat) (s : State) : (takeAccess h s).hosts = s.hosts.modify h (fun c => { c with program := c.program.tail }) := rfl
@[simp] theorem takeAccess_refusalMark (h : Nat) (s : State) : (takeAccess h s).refusalMark = s.refusalMark := rfl
@[simp] theorem takeAccess_port (h : Nat) (s : State) : (takeAccess h s).port = s.port := rfl
@[simp] theorem takeAccess_resOk (h : Nat) (s : State) : (takeAccess h s).resOk = s.resOk := rfl
@[simp] theorem takeAccess_mid (h : Nat) (s : State) : (takeAccess h s).mid = s.mid := rfl
@[simp] theorem takeAccess_sched (h : Nat) (s : State) : (takeAccess h s).sched = s.sched := rfl
@[simp] theorem takeAccess_freeTurns (h : Nat) (s : State) : (takeAccess h s).freeTurns = s.freeTurns := rfl
@[simp] theorem takeAccess_plat (h : Nat) (s : State) : (takeAccess h s).plat = s.plat := rfl

@[simp] theorem settle_engine (h : Nat) (s : State) : (settle h s).engine = s.engine := rfl
@[simp] theorem settle_phase (h : Nat) (s : State) : (settle h s).phase = s.phase := rfl
@[simp] theorem settle_modeValid (h : Nat) (s : State) : (settle h s).modeValid = s.modeValid := rfl
@[simp] theorem settle_token (h : Nat) (s : State) : (settle h s).token = s.token := rfl
@[simp] theorem settle_planeValid (h : Nat) (s : State) : (settle h s).planeValid = s.planeValid := rfl
@[simp] theorem settle_fontValid (h : Nat) (s : State) : (settle h s).fontValid = s.fontValid := rfl
@[simp] theorem settle_fault (h : Nat) (s : State) : (settle h s).fault = s.fault := rfl
@[simp] theorem settle_liveHandle (h : Nat) (s : State) : (settle h s).liveHandle = s.liveHandle := rfl
@[simp] theorem settle_frameHandle (h : Nat) (s : State) : (settle h s).frameHandle = s.frameHandle := rfl
@[simp] theorem settle_pixwords (h : Nat) (s : State) : (settle h s).pixwords = s.pixwords := rfl
@[simp] theorem settle_plane (h : Nat) (s : State) : (settle h s).plane = s.plane := rfl
@[simp] theorem settle_font (h : Nat) (s : State) : (settle h s).font = s.font := rfl
@[simp] theorem settle_stage (h : Nat) (s : State) : (settle h s).stage = s.stage := rfl
@[simp] theorem settle_mode (h : Nat) (s : State) : (settle h s).mode = s.mode := rfl
@[simp] theorem settle_progVis (h : Nat) (s : State) : (settle h s).progVis = s.progVis := rfl
@[simp] theorem settle_progBlank (h : Nat) (s : State) : (settle h s).progBlank = s.progBlank := rfl
@[simp] theorem settle_progVsync (h : Nat) (s : State) : (settle h s).progVsync = s.progVsync := rfl
@[simp] theorem settle_count (h : Nat) (s : State) : (settle h s).count = s.count := rfl
@[simp] theorem settle_ports (h : Nat) (s : State) : (settle h s).ports = s.ports := rfl
@[simp] theorem settle_tch (h : Nat) (s : State) : (settle h s).tch = s.tch := rfl
@[simp] theorem settle_tgen (h : Nat) (s : State) : (settle h s).tgen = s.tgen := rfl
@[simp] theorem settle_pch (h : Nat) (s : State) : (settle h s).pch = s.pch := rfl
@[simp] theorem settle_pser (h : Nat) (s : State) : (settle h s).pser = s.pser := rfl
@[simp] theorem settle_hsync (h : Nat) (s : State) : (settle h s).hsync = s.hsync := rfl
@[simp] theorem settle_vsync (h : Nat) (s : State) : (settle h s).vsync = s.vsync := rfl
@[simp] theorem settle_pix (h : Nat) (s : State) : (settle h s).pix = s.pix := rfl
@[simp] theorem settle_history (h : Nat) (s : State) : (settle h s).history = s.history := rfl
@[simp] theorem settle_executed (h : Nat) (s : State) : (settle h s).executed = s.executed := rfl
@[simp] theorem settle_shifted (h : Nat) (s : State) : (settle h s).shifted = s.shifted := rfl
@[simp] theorem settle_mem (h : Nat) (s : State) : (settle h s).mem = s.mem := rfl
@[simp] theorem settle_hosts (h : Nat) (s : State) : (settle h s).hosts = s.hosts.modify h (fun c => { c with status := if (portAt s h).hold.isSome then .waiting else .ready }) := rfl
@[simp] theorem settle_refusalMark (h : Nat) (s : State) : (settle h s).refusalMark = s.refusalMark := rfl
@[simp] theorem settle_port (h : Nat) (s : State) : (settle h s).port = s.port := rfl
@[simp] theorem settle_resOk (h : Nat) (s : State) : (settle h s).resOk = s.resOk := rfl
@[simp] theorem settle_mid (h : Nat) (s : State) : (settle h s).mid = s.mid := rfl
@[simp] theorem settle_sched (h : Nat) (s : State) : (settle h s).sched = s.sched := rfl
@[simp] theorem settle_freeTurns (h : Nat) (s : State) : (settle h s).freeTurns = s.freeTurns := rfl
@[simp] theorem settle_plat (h : Nat) (s : State) : (settle h s).plat = s.plat := rfl

@[simp] theorem beginTurn_engine (t : Turn) (s : State) : (beginTurn t s).engine = s.engine := rfl
@[simp] theorem beginTurn_phase (t : Turn) (s : State) : (beginTurn t s).phase = s.phase := rfl
@[simp] theorem beginTurn_modeValid (t : Turn) (s : State) : (beginTurn t s).modeValid = s.modeValid := rfl
@[simp] theorem beginTurn_token (t : Turn) (s : State) : (beginTurn t s).token = s.token := rfl
@[simp] theorem beginTurn_planeValid (t : Turn) (s : State) : (beginTurn t s).planeValid = s.planeValid := rfl
@[simp] theorem beginTurn_fontValid (t : Turn) (s : State) : (beginTurn t s).fontValid = s.fontValid := rfl
@[simp] theorem beginTurn_fault (t : Turn) (s : State) : (beginTurn t s).fault = s.fault := rfl
@[simp] theorem beginTurn_liveHandle (t : Turn) (s : State) : (beginTurn t s).liveHandle = s.liveHandle := rfl
@[simp] theorem beginTurn_frameHandle (t : Turn) (s : State) : (beginTurn t s).frameHandle = s.frameHandle := rfl
@[simp] theorem beginTurn_pixwords (t : Turn) (s : State) : (beginTurn t s).pixwords = s.pixwords := rfl
@[simp] theorem beginTurn_plane (t : Turn) (s : State) : (beginTurn t s).plane = s.plane := rfl
@[simp] theorem beginTurn_font (t : Turn) (s : State) : (beginTurn t s).font = s.font := rfl
@[simp] theorem beginTurn_stage (t : Turn) (s : State) : (beginTurn t s).stage = s.stage := rfl
@[simp] theorem beginTurn_mode (t : Turn) (s : State) : (beginTurn t s).mode = s.mode := rfl
@[simp] theorem beginTurn_progVis (t : Turn) (s : State) : (beginTurn t s).progVis = s.progVis := rfl
@[simp] theorem beginTurn_progBlank (t : Turn) (s : State) : (beginTurn t s).progBlank = s.progBlank := rfl
@[simp] theorem beginTurn_progVsync (t : Turn) (s : State) : (beginTurn t s).progVsync = s.progVsync := rfl
@[simp] theorem beginTurn_count (t : Turn) (s : State) : (beginTurn t s).count = s.count := rfl
@[simp] theorem beginTurn_ports (t : Turn) (s : State) : (beginTurn t s).ports = s.ports := rfl
@[simp] theorem beginTurn_tch (t : Turn) (s : State) : (beginTurn t s).tch = s.tch := rfl
@[simp] theorem beginTurn_tgen (t : Turn) (s : State) : (beginTurn t s).tgen = s.tgen := rfl
@[simp] theorem beginTurn_pch (t : Turn) (s : State) : (beginTurn t s).pch = s.pch := rfl
@[simp] theorem beginTurn_pser (t : Turn) (s : State) : (beginTurn t s).pser = s.pser := rfl
@[simp] theorem beginTurn_hsync (t : Turn) (s : State) : (beginTurn t s).hsync = s.hsync := rfl
@[simp] theorem beginTurn_vsync (t : Turn) (s : State) : (beginTurn t s).vsync = s.vsync := rfl
@[simp] theorem beginTurn_pix (t : Turn) (s : State) : (beginTurn t s).pix = s.pix := rfl
@[simp] theorem beginTurn_history (t : Turn) (s : State) : (beginTurn t s).history = s.history := rfl
@[simp] theorem beginTurn_executed (t : Turn) (s : State) : (beginTurn t s).executed = s.executed := rfl
@[simp] theorem beginTurn_shifted (t : Turn) (s : State) : (beginTurn t s).shifted = s.shifted := rfl
@[simp] theorem beginTurn_mem (t : Turn) (s : State) : (beginTurn t s).mem = s.mem := rfl
@[simp] theorem beginTurn_hosts (t : Turn) (s : State) : (beginTurn t s).hosts = s.hosts := rfl
@[simp] theorem beginTurn_refusalMark (t : Turn) (s : State) : (beginTurn t s).refusalMark = s.refusalMark := rfl
@[simp] theorem beginTurn_port (t : Turn) (s : State) : (beginTurn t s).port = s.port := rfl
@[simp] theorem beginTurn_resOk (t : Turn) (s : State) : (beginTurn t s).resOk = t.resOk := rfl
@[simp] theorem beginTurn_mid (t : Turn) (s : State) : (beginTurn t s).mid = t.mid := rfl
@[simp] theorem beginTurn_sched (t : Turn) (s : State) : (beginTurn t s).sched = s.sched := rfl
@[simp] theorem beginTurn_freeTurns (t : Turn) (s : State) : (beginTurn t s).freeTurns = s.freeTurns := rfl
@[simp] theorem beginTurn_plat (t : Turn) (s : State) : (beginTurn t s).plat = s.plat := rfl

/-! ### Ports and hosts by number -/

theorem portAt_updPort (p q : Nat) (f : Port → Port) (s : State) :
    portAt (updPort p f s) q = if p = q ∧ q < s.ports.length then f (portAt s q) else portAt s q := by
  unfold portAt
  by_cases h : q < s.ports.length
  · by_cases hpq : p = q
    · subst hpq; simp [h]
    · simp [hpq]
  · simp [h]

theorem portAt_updPort_ne {p q : Nat} (h : p ≠ q) (f : Port → Port) (s : State) :
    portAt (updPort p f s) q = portAt s q := by simp [portAt_updPort, h]

theorem portAt_updPort_same {p : Nat} (f : Port → Port) {s : State} (h : p < s.ports.length) :
    portAt (updPort p f s) p = f (portAt s p) := by simp [portAt_updPort, h]

/-- A recorded fault stays (R432, R435). -/
theorem recordedFault_of_ne {old : FaultCode} (h : old ≠ .none) (c : FaultCode) :
    recordedFault old c = old := by simp [recordedFault, h]

@[simp] theorem recordedFault_none (c : FaultCode) : recordedFault .none c = c := rfl

theorem raiseFault_eq_faulted (c : FaultCode) (s : State) : raiseFault c s = faulted c s := rfl

theorem holdOn_eq_pending (h : Hold) (s : State) : holdOn h s = pending h s := rfl

theorem setResult_eq_withResult (v : Word) (s : State) : setResult v s = withResult v s := rfl

theorem complete_eq_completed (s : State) : complete s = completed s := rfl

end Sys2Proof.Machine
end

