-- ==== Sys2Proof/Laws/Agents.lean ====
section
/-! SUPPORT. What a step and a host's turn do, case by case, cited instead of unfolding them (spec 10_state.md R48, R49, R53; 44_phase_engine.md R353). -/

namespace Sys2Proof.Machine

/-! ### The step as the turn it takes -/

theorem step_of_turn {s : State} {t : Turn} {rest : List Turn} (h : s.sched = t :: rest) :
    step s = runTurn t { s with sched := rest } := by
  simp [step, nextTurn, h]

theorem step_of_no_turn {s : State} (h : s.sched = []) :
    step s = runTurn (Config.freeTurn s.freeTurns) { s with freeTurns := s.freeTurns + 1 } := by
  simp [step, nextTurn, h]

theorem step_of_turnOf {s : State} {t : Turn} {rest : List Turn} {a : Agent}
    (h : TurnOf s t rest a) : step s = agentStep a (turnTaken s t rest) := by
  rw [step_of_turn h.1, ← h.2]
  rfl

/-! ### A host's turn -/

theorem hostTurn_ready {s : State} {h : Nat} {c : HostCtx} {a : Access}
    (hc : s.hosts[h]? = some c) (hs : c.status = .ready) (hp : c.program.head? = some a) :
    hostTurn h s = access h a s := by
  obtain ⟨l, hl⟩ : ∃ l, c.program = a :: l := by
    cases hpp : c.program with
    | nil => simp [hpp] at hp
    | cons b l => exact ⟨l, by simpa [hpp] using hp⟩
  simp [hostTurn, hc, hs, hl]

theorem hostTurn_waiting {s : State} {h : Nat} {c : HostCtx}
    (hc : s.hosts[h]? = some c) (hs : c.status = .waiting) : hostTurn h s = resume h s := by
  simp [hostTurn, hc, hs]

theorem hostTurn_refused {s : State} {h : Nat} {c : HostCtx}
    (hc : s.hosts[h]? = some c) (hs : c.status = .refused) : hostTurn h s = .next s := by
  simp [hostTurn, hc, hs]

/-- A host that has completed its last access has no step (R477, R478). -/
theorem hostEnabled_of_done {s : State} (hd : hostsDone s) (h : Nat) : hostEnabled h s = false := by
  unfold hostEnabled
  split
  · rfl
  · next c hc =>
    obtain ⟨hs, hp⟩ := hd c (List.mem_of_getElem? hc)
    simp [hs, hp]

theorem accessLegal_iff (off : RegOffset) (width : Nat) :
    accessLegal off width = true ↔ width = 4 ∧ off.toNat % 4 = 0 := by
  simp [accessLegal]

theorem access_store_cmd {s : State} {off : RegOffset} {width p : Nat} {v : Word} (h : Nat)
    (hl : accessLegal off width = true) (hr : regAt s.ports.length off = .cmd p) :
    access h (.store off width v) s = storeCommand h p v s := by
  simp [access, hl, hr]

/-- A command for the host's own port, with none pending, is issued (R53). -/
theorem storeCommand_own {s : State} {h : Nat} {v : Word} (hh : (portAt s h).hold = none) :
    storeCommand h h v s = issue h v (takeAccess h s) := by
  simp [storeCommand, hh]

/-- One for the host's own port, with a command pending, waits (log M17). -/
theorem storeCommand_pending {s : State} {h : Nat} {v : Word} (hh : (portAt s h).hold ≠ none) :
    storeCommand h h v s = .next s := by
  simp [storeCommand, Option.isSome_iff_ne_none.mpr hh]

/-- One for another port is refused (R52, log M17). -/
theorem storeCommand_other {s : State} {h p : Nat} {v : Word} (hp : p ≠ h) :
    storeCommand h p v s = .next (refuseAccess h s) := by
  simp [storeCommand, hp]

theorem access_store_reg {s : State} {off : RegOffset} {width : Nat} {v : Word} {r : Reg} (h : Nat)
    (hl : accessLegal off width = true) (hr : regAt s.ports.length off = r)
    (hc : ∀ p, r ≠ .cmd p) :
    access h (.store off width v) s =
      .next (regWrite r v (takeAccess h s)) := by
  cases r <;> first | exact absurd rfl (hc _) | simp [access, hl, hr]

theorem access_load {s : State} {off : RegOffset} {width : Nat} (h : Nat)
    (hl : accessLegal off width = true) :
    access h (.load off width) s =
      .next (updHost h (fun c => { c with loaded := regRead s (regAt s.ports.length off) })
        (takeAccess h s)) := by
  simp [access, hl]

theorem access_load_illegal {s : State} {off : RegOffset} {width : Nat} (h : Nat)
    (hl : accessLegal off width = false) :
    access h (.load off width) s = .next (refuseAccess h s) := by
  simp [access, hl]

theorem access_store_illegal {s : State} {off : RegOffset} {width : Nat} {v : Word} (h : Nat)
    (hl : accessLegal off width = false) :
    access h (.store off width v) s = .next (refuseAccess h s) := by
  simp [access, hl]

/-! ### Port registers by offset -/

theorem regAt_port {n p r : Nat} {off : RegOffset} (hr : r < 8)
    (ho : off.toNat / 4 = 64 + 8 * p + r) : regAt n off = portRegAt n (8 * p + r) := by
  have e : 64 + 8 * p + r - 64 = 8 * p + r := by omega
  unfold regAt
  simp only [ho, e]
  repeat rw [if_neg (by omega)]

theorem portRegAt_own {n p r : Nat} (hr : r < 8) (hp : p < n) :
    portRegAt n (8 * p + r) = portReg p r := by
  have e1 : (8 * p + r) / 8 = p := by omega
  have e2 : (8 * p + r) % 8 = r := by omega
  unfold portRegAt
  rw [e1, e2, if_neg (by omega)]

theorem regAt_cmd {n p : Nat} {off : RegOffset} (hp : p < n) (ho : off.toNat = 0x100 + 0x20 * p) :
    regAt n off = .cmd p := by
  rw [regAt_port (p := p) (r := 0) (by omega) (by omega), portRegAt_own (by omega) hp]
  rfl

/-! ### Where a command leaves its host -/

theorem mapNext_next (f : State → State) (s : State) : mapNext f (.next s) = .next (f s) := rfl

/-- A command step answers a next state exactly when its outcome was one. -/
theorem mapNext_eq_next {f : State → State} {o : Host.Outcome State Fault Refusal} {t : State}
    (h : mapNext f o = .next t) : ∃ u, o = .next u ∧ t = f u := by
  cases o with
  | next u => exact ⟨u, rfl, by simpa [mapNext] using h.symm⟩
  | fault r => simp [mapNext] at h
  | refused r => simp [mapNext] at h

end Sys2Proof.Machine
end

