-- ==== Sys2Proof/Laws/Memory.lean ====
section
/-! SUPPORT. The laws of system memory (spec 20_memory.md R80, R88): a read after a write, and that every memory operation keeps the canonical form. -/

namespace Sys2Proof.Machine

@[simp] theorem Memory.read_nil (a : Nat) : Memory.read [] a = Memory.unlisted := rfl

theorem Memory.read_cons (c : Host.Cell) (m : List Host.Cell) (a : Nat) :
    Memory.read (c :: m) a = if c.1 = a then c.2 else Memory.read m a := rfl

theorem Memory.read_erase_same (m : List Host.Cell) (a : Nat) :
    Memory.read (Memory.erase m a) a = Memory.unlisted := by
  induction m with
  | nil => rfl
  | cons c m ih =>
    by_cases h : c.1 = a
    · simpa [Memory.erase, h] using ih
    · simpa [Memory.erase, h, Memory.read_cons] using ih

theorem Memory.read_erase_ne (m : List Host.Cell) {a b : Nat} (hab : b ≠ a) :
    Memory.read (Memory.erase m a) b = Memory.read m b := by
  induction m with
  | nil => rfl
  | cons c m ih =>
    by_cases h : c.1 = a
    · have : c.1 ≠ b := fun e => hab (e.symm.trans h)
      simpa [Memory.erase, h, Memory.read_cons, hab, Ne.symm hab] using ih
    · have ih' := ih
      simp only [Memory.erase] at ih'
      simp [Memory.erase, h, Memory.read_cons, ih']

theorem Memory.not_mem_erase (m : List Host.Cell) (a : Nat) :
    ∀ c ∈ Memory.erase m a, c.1 ≠ a := by
  intro c hc
  simpa [Memory.erase] using (List.mem_filter.mp hc).2

theorem Memory.read_insert_same (m : List Host.Cell) (a : Nat) (v : Byte)
    (h : ∀ c ∈ m, c.1 ≠ a) : Memory.read (Memory.insert a v m) a = v := by
  induction m with
  | nil => simp [Memory.insert, Memory.read_cons]
  | cons c m ih =>
    have hc : c.1 ≠ a := h c (by simp)
    by_cases hlt : a < c.1
    · simp [Memory.insert, hlt, Memory.read_cons]
    · simp [Memory.insert, hlt, Memory.read_cons, hc, ih (fun d hd => h d (by simp [hd]))]

theorem Memory.read_insert_ne (m : List Host.Cell) {a b : Nat} (v : Byte) (hab : b ≠ a) :
    Memory.read (Memory.insert a v m) b = Memory.read m b := by
  induction m with
  | nil => simp [Memory.insert, Memory.read_cons, Ne.symm hab]
  | cons c m ih =>
    by_cases hlt : a < c.1
    · simp [Memory.insert, hlt, Memory.read_cons, Ne.symm hab]
    · simp [Memory.insert, hlt, Memory.read_cons, ih]

/-- A read after a write to the same address gives the byte written. -/
@[simp] theorem Memory.read_write_same (m : List Host.Cell) (a : Nat) (v : Byte) :
    Memory.read (Memory.write m a v) a = v := by
  unfold Memory.write
  split
  · next h => rw [Memory.read_erase_same, h]
  · exact Memory.read_insert_same _ _ _ (Memory.not_mem_erase m a)

/-- A write leaves every other address alone (R88). -/
theorem Memory.read_write_ne (m : List Host.Cell) {a b : Nat} (v : Byte) (hab : b ≠ a) :
    Memory.read (Memory.write m a v) b = Memory.read m b := by
  unfold Memory.write
  split
  · exact Memory.read_erase_ne m hab
  · rw [Memory.read_insert_ne _ v hab, Memory.read_erase_ne m hab]

theorem Memory.read_write (m : List Host.Cell) (a b : Nat) (v : Byte) :
    Memory.read (Memory.write m a v) b = if b = a then v else Memory.read m b := by
  by_cases h : b = a
  · subst h; simp
  · simp [h, Memory.read_write_ne m v h]

theorem Memory.wf_erase {m : List Host.Cell} (h : Memory.wf m) (a : Nat) :
    Memory.wf (Memory.erase m a) :=
  ⟨h.1.filter _, fun c hc => h.2 c (List.mem_filter.mp hc).1⟩

theorem Memory.mem_insert {m : List Host.Cell} {a : Nat} {v : Byte} {c : Host.Cell} :
    c ∈ Memory.insert a v m ↔ c = (a, v) ∨ c ∈ m := by
  induction m with
  | nil => simp [Memory.insert]
  | cons d m ih =>
    by_cases hlt : a < d.1
    · simp [Memory.insert, hlt]
    · simp only [Memory.insert, hlt, if_false, List.mem_cons, ih]
      tauto

theorem Memory.wf_insert {m : List Host.Cell} (h : Memory.wf m) {a : Nat} {v : Byte}
    (ha : ∀ c ∈ m, c.1 ≠ a) (hv : v ≠ Memory.unlisted) (hb : a < 4294967296) :
    Memory.wf (Memory.insert a v m) := by
  refine ⟨?_, fun c hc => ?_⟩
  · induction m with
    | nil => simp [Memory.insert]
    | cons d m ih =>
      have hd : d.1 ≠ a := ha d (by simp)
      have hp := List.pairwise_cons.mp h.1
      by_cases hlt : a < d.1
      · simp only [Memory.insert, hlt, if_true]
        refine List.pairwise_cons.mpr ⟨fun c hc => ?_, h.1⟩
        rcases List.mem_cons.mp hc with rfl | hc
        · exact hlt
        · exact Nat.lt_trans hlt (hp.1 c hc)
      · simp only [Memory.insert, hlt, if_false]
        have htail : Memory.wf m := ⟨hp.2, fun c hc => h.2 c (by simp [hc])⟩
        refine List.pairwise_cons.mpr ⟨fun c hc => ?_, ih htail (fun c hc => ha c (by simp [hc]))⟩
        rcases Memory.mem_insert.mp hc with rfl | hc
        · show d.1 < a
          omega
        · exact hp.1 c hc
  · rcases Memory.mem_insert.mp hc with rfl | hc
    · exact ⟨hv, hb⟩
    · exact h.2 c hc

/-- Every store keeps the canonical form. -/
theorem Memory.wf_write {m : List Host.Cell} (h : Memory.wf m) {a : Nat} (v : Byte)
    (ha : a < 4294967296) : Memory.wf (Memory.write m a v) := by
  unfold Memory.write
  split
  · exact Memory.wf_erase h a
  · next hv => exact Memory.wf_insert (Memory.wf_erase h a) (Memory.not_mem_erase m a) hv ha

/-- Memory at reset is in canonical form. -/
theorem Memory.wf_reset : Memory.wf State.reset.mem := by decide

/-- An address below every cell is not listed. -/
theorem Memory.read_of_lt {m : List Host.Cell} {a : Nat} (h : ∀ c ∈ m, a < c.1) :
    Memory.read m a = Memory.unlisted := by
  induction m with
  | nil => rfl
  | cons c m ih =>
    have hc : c.1 ≠ a := Nat.ne_of_gt (h c (by simp))
    simp [Memory.read_cons, hc, ih (fun d hd => h d (by simp [hd]))]

/-- In canonical form, memories that read alike are equal lists. -/
theorem Memory.eq_of_read_eq {m n : List Host.Cell} (hm : Memory.wf m) (hn : Memory.wf n)
    (h : ∀ a, Memory.read m a = Memory.read n a) : m = n := by
  induction m generalizing n with
  | nil =>
    cases n with
    | nil => rfl
    | cons d n =>
      have := h d.1
      simp [Memory.read_cons] at this
      exact absurd this.symm (hn.2 d (by simp)).1
  | cons c m ih =>
    cases n with
    | nil =>
      have := h c.1
      simp [Memory.read_cons] at this
      exact absurd this (hm.2 c (by simp)).1
    | cons d n =>
      have hpm := List.pairwise_cons.mp hm.1
      have hpn := List.pairwise_cons.mp hn.1
      have hcd : c.1 = d.1 := by
        rcases Nat.lt_trichotomy c.1 d.1 with hlt | heq | hgt
        · have h1 := h c.1
          have h2 : Memory.read (d :: n) c.1 = Memory.unlisted :=
            Memory.read_of_lt (fun e he => by
              rcases List.mem_cons.mp he with rfl | he
              · exact hlt
              · exact Nat.lt_trans hlt (hpn.1 e he))
          rw [h2] at h1
          simp [Memory.read_cons] at h1
          exact absurd h1 (hm.2 c (by simp)).1
        · exact heq
        · have h1 := h d.1
          have h2 : Memory.read (c :: m) d.1 = Memory.unlisted :=
            Memory.read_of_lt (fun e he => by
              rcases List.mem_cons.mp he with rfl | he
              · exact hgt
              · exact Nat.lt_trans hgt (hpm.1 e he))
          rw [h2] at h1
          simp [Memory.read_cons] at h1
          exact absurd h1.symm (hn.2 d (by simp)).1
      have hv : c.2 = d.2 := by
        have h1 := h c.1
        simpa [Memory.read_cons, hcd] using h1
      have hce : c = d := Prod.ext hcd hv
      subst hce
      congr 1
      refine ih ⟨hpm.2, fun e he => hm.2 e (by simp [he])⟩
        ⟨hpn.2, fun e he => hn.2 e (by simp [he])⟩ (fun a => ?_)
      by_cases ha : c.1 = a
      · subst ha
        rw [Memory.read_of_lt hpm.1, Memory.read_of_lt hpn.1]
      · have h1 := h a
        simpa [Memory.read_cons, ha] using h1

end Sys2Proof.Machine
end

