-- ==== Sys2Proof/Laws/Bus.lean ====
section
/-! SUPPORT. What a command's byte accesses can do, once for each shared operation: they touch only the memory path (spec 20_memory.md R87), and with nothing in between they are plain reads and writes. -/

namespace Sys2Proof.Machine

/-! ### MemoryPathOnly is a preorder that preserves everything else -/

theorem MemoryPathOnly.refl (s : State) : MemoryPathOnly s s := rfl

theorem MemoryPathOnly.trans {s t u : State} (h : MemoryPathOnly s t) (k : MemoryPathOnly t u) :
    MemoryPathOnly s u := by
  unfold MemoryPathOnly at *
  rw [k, h]

theorem MemoryPathOnly.plane {s t : State} (h : MemoryPathOnly s t) : t.plane = s.plane := by
  rw [h]

theorem MemoryPathOnly.font {s t : State} (h : MemoryPathOnly s t) : t.font = s.font := by
  rw [h]

theorem MemoryPathOnly.plat {s t : State} (h : MemoryPathOnly s t) : t.plat = s.plat := by
  rw [h]

theorem MemoryPathOnly.foldl {α : Type} (f : State → α → State)
    (hf : ∀ s a, MemoryPathOnly s (f s a)) (l : List α) (s : State) :
    MemoryPathOnly s (l.foldl f s) := by
  induction l generalizing s with
  | nil => exact .refl s
  | cons a l ih => exact (hf s a).trans (ih (f s a))

/-! ### The channels -/

theorem pchStep_memoryPathOnly (s : State) : MemoryPathOnly s (pchStep s) := by
  unfold pchStep; split <;> rfl

theorem pserStep_memoryPathOnly (s : State) : MemoryPathOnly s (pserStep s) := by
  unfold pserStep
  split
  · split <;> rfl
  · split
    · rfl
    · unfold pserShift; split <;> rfl

theorem outsideStore_memoryPathOnly (a : Word) (v : Byte) (s : State) :
    MemoryPathOnly s (outsideStore a v s) := by
  unfold outsideStore; split <;> rfl

theorem runIntrusion_memoryPathOnly (i : Intrusion) (s : State) :
    MemoryPathOnly s (runIntrusion i s) := by
  cases i with
  | outside a v => exact outsideStore_memoryPathOnly a v s
  | pch => exact pchStep_memoryPathOnly s
  | pser => exact pserStep_memoryPathOnly s

theorem takeIntrusions_memoryPathOnly (s : State) : MemoryPathOnly s (takeIntrusions s) := by
  unfold takeIntrusions
  split
  · rfl
  · refine MemoryPathOnly.trans (t := { s with mid := _ }) rfl ?_
    exact MemoryPathOnly.foldl _ (fun t i => runIntrusion_memoryPathOnly i t) _ _

theorem busRead_memoryPathOnly (a : Word) (s : State) : MemoryPathOnly s (busRead a s).2 :=
  takeIntrusions_memoryPathOnly s

theorem busWrite_memoryPathOnly (a : Word) (v : Byte) (s : State) :
    MemoryPathOnly s (busWrite a v s) :=
  (takeIntrusions_memoryPathOnly s).trans rfl

theorem drawPixel_memoryPathOnly (op : WriteOp) (v : Pixel) (x y : Nat) (s : State) :
    MemoryPathOnly s (drawPixel op v x y s) :=
  (busRead_memoryPathOnly _ s).trans (busWrite_memoryPathOnly _ _ _)

theorem glyphBit_memoryPathOnly (c r col : Nat) (s : State) :
    MemoryPathOnly s (glyphBit c r col s).2 :=
  takeIntrusions_memoryPathOnly s

theorem drawGlyphPixel_memoryPathOnly (op : WriteOp) (fg bg : Pixel) (x y g : Nat) (s : State)
    (rc : Nat × Nat) : MemoryPathOnly s (drawGlyphPixel op fg bg x y g s rc) :=
  (glyphBit_memoryPathOnly _ _ _ s).trans (drawPixel_memoryPathOnly _ _ _ _ _)

theorem drawCell_memoryPathOnly (op : WriteOp) (fg bg : Pixel) (x y g : Nat) (s : State) :
    MemoryPathOnly s (drawCell op fg bg x y g s) :=
  MemoryPathOnly.foldl _ (drawGlyphPixel_memoryPathOnly op fg bg x y g) _ _

theorem rowBits_memoryPathOnly (c r : Nat) (s : State) : MemoryPathOnly s (rowBits c r s).2 := by
  unfold rowBits
  simp only
  split
  · exact takeIntrusions_memoryPathOnly s
  · exact (takeIntrusions_memoryPathOnly s).trans (takeIntrusions_memoryPathOnly _)

theorem drawRowByte_memoryPathOnly (op : WriteOp) (cw x y : Nat) (p : BitVec 18) (s : State)
    (i : Nat) : MemoryPathOnly s (drawRowByte op cw x y p s i) :=
  (busRead_memoryPathOnly _ s).trans (busWrite_memoryPathOnly _ _ _)

theorem drawBulkRow_memoryPathOnly (op : WriteOp) (fg bg : Pixel) (x y g : Nat) (s : State)
    (r : Nat) : MemoryPathOnly s (drawBulkRow op fg bg x y g s r) :=
  (rowBits_memoryPathOnly _ _ s).trans
    (MemoryPathOnly.foldl _ (drawRowByte_memoryPathOnly op _ x (y + r) _) _ _)

theorem drawCellBulk_memoryPathOnly (op : WriteOp) (fg bg : Pixel) (x y g : Nat) (s : State) :
    MemoryPathOnly s (drawCellBulk op fg bg x y g s) :=
  MemoryPathOnly.foldl _ (drawBulkRow_memoryPathOnly op fg bg x y g) _ _

/-! ### What every access keeps: an induction packaged once

`P` holds of the state before; if other agents' steps and a store keep it, so do the drawing operations. -/

/-- A property of states that every piece of a drawing command keeps. -/
structure DrawStable (P : State → Prop) : Prop where
  mid : ∀ s l, P s → P { s with mid := l }
  intrude : ∀ s i, P s → P (runIntrusion i s)
  store : ∀ s (a : Word) v, P s → P { s with mem := Memory.write s.mem a.toNat v }

theorem DrawStable.takeIntrusions {P : State → Prop} (h : DrawStable P) {s : State} (hs : P s) :
    P (takeIntrusions s) := by
  unfold Machine.takeIntrusions
  split
  · exact hs
  · have : ∀ (l : List Intrusion) (t : State), P t →
        P (l.foldl (fun t i => runIntrusion i t) t) := by
      intro l
      induction l with
      | nil => exact fun t ht => ht
      | cons i l ih => exact fun t ht => ih _ (h.intrude t i ht)
    exact this _ _ (h.mid s _ hs)

theorem DrawStable.busRead {P : State → Prop} (h : DrawStable P) {s : State} (hs : P s) (a : Word) :
    P (busRead a s).2 := h.takeIntrusions hs

theorem DrawStable.busWrite {P : State → Prop} (h : DrawStable P) {s : State} (hs : P s) (a : Word)
    (v : Byte) : P (busWrite a v s) := h.store _ a v (h.takeIntrusions hs)

theorem DrawStable.drawPixel {P : State → Prop} (h : DrawStable P) {s : State} (hs : P s)
    (op : WriteOp) (v : Pixel) (x y : Nat) : P (drawPixel op v x y s) :=
  h.busWrite (h.busRead hs _) _ _

theorem foldl_keeps {α : Type} {P : State → Prop} (f : State → α → State)
    (hf : ∀ s a, P s → P (f s a)) (l : List α) {s : State} (hs : P s) : P (l.foldl f s) := by
  induction l generalizing s with
  | nil => exact hs
  | cons a l ih => exact ih (hf s a hs)

theorem DrawStable.drawCell {P : State → Prop} (h : DrawStable P) {s : State} (hs : P s)
    (op : WriteOp) (fg bg : Pixel) (x y g : Nat) : P (drawCell op fg bg x y g s) := by
  refine foldl_keeps (P := P) (drawGlyphPixel op fg bg x y g) (fun t rc ht => ?_) _ hs
  exact h.drawPixel (h.takeIntrusions ht) _ _ _ _

theorem DrawStable.rowBits {P : State → Prop} (h : DrawStable P) {s : State} (hs : P s) (c r : Nat) :
    P (rowBits c r s).2 := by
  unfold Machine.rowBits
  simp only
  split
  · exact h.takeIntrusions hs
  · exact h.takeIntrusions (h.takeIntrusions hs)

theorem DrawStable.drawCellBulk {P : State → Prop} (h : DrawStable P) {s : State} (hs : P s)
    (op : WriteOp) (fg bg : Pixel) (x y g : Nat) : P (drawCellBulk op fg bg x y g s) := by
  refine foldl_keeps (P := P) (drawBulkRow op fg bg x y g) (fun t r ht => ?_) _ hs
  refine foldl_keeps (P := P) _ (fun u i hu => ?_) _ (h.rowBits ht g r)
  exact h.busWrite (h.busRead hu _) _ _

/-! ### The canonical form of memory -/

/-- A store by an agent outside the block keeps memory in canonical form. -/
theorem outsideStore_wf (a : Word) (v : Byte) {s : State} (h : Memory.wf s.mem) :
    Memory.wf (outsideStore a v s).mem := by
  unfold outsideStore
  split
  · exact h
  · exact Memory.wf_write h v (BitVec.isLt _)

/-- The pixel channel stores nothing. -/
theorem pchStep_wf {s : State} (h : Memory.wf s.mem) : Memory.wf (pchStep s).mem := by
  unfold pchStep; split <;> exact h

/-- The serialiser stores nothing. -/
theorem pserStep_wf {s : State} (h : Memory.wf s.mem) : Memory.wf (pserStep s).mem := by
  unfold pserStep
  split
  · split <;> exact h
  · split
    · exact h
    · unfold pserShift; split <;> exact h

/-- The platform reset does not touch memory (R470). -/
theorem platformReset_wf {s : State} (h : Memory.wf s.mem) : Memory.wf (platformReset s).mem := h

/-- Every piece of a drawing command keeps memory in canonical form. -/
theorem wf_drawStable : DrawStable (fun s => Memory.wf s.mem) where
  mid _ _ h := h
  intrude s i h := by
    cases i with
    | outside a v => exact outsideStore_wf a v h
    | pch => exact pchStep_wf h
    | pser => exact pserStep_wf h
  store _ _ v h := Memory.wf_write h v (BitVec.isLt _)

/-! ### With nothing in between -/

theorem takeIntrusions_of_nil {s : State} (h : s.mid = []) : takeIntrusions s = s := by
  unfold takeIntrusions; rw [h]

theorem busRead_of_nil {s : State} (h : s.mid = []) (a : Word) :
    busRead a s = (Memory.read s.mem a.toNat, s) := by
  unfold busRead; rw [takeIntrusions_of_nil h]

theorem busWrite_of_nil {s : State} (h : s.mid = []) (a : Word) (v : Byte) :
    busWrite a v s = { s with mem := Memory.write s.mem a.toNat v } := by
  unfold busWrite; rw [takeIntrusions_of_nil h]

/-- SET_PIXEL's read-modify-write with nothing in between (R253). -/
theorem drawPixel_of_nil {s : State} (h : s.mid = []) (op : WriteOp) (v : Pixel) (x y : Nat) :
    drawPixel op v x y s =
      { s with
        mem := Memory.write s.mem (pixAddr s x y).toNat
          (applyOp op (Memory.read s.mem (pixAddr s x y).toNat) (pixShift x) v) } := by
  unfold drawPixel
  simp only [busRead_of_nil h]
  exact busWrite_of_nil h _ _

end Sys2Proof.Machine
end

