-- ==== Sys2Proof/Laws/Encoding.lean ====
section
/-! SUPPORT. The fields of the two encodings (spec 30_encoding.md R112, R116, R118): a word's fields as arithmetic on it, a word put together from its fields, and the opcode map's rows. -/

namespace Sys2Proof

/-! ### The fields of an assembled timing word (R112) -/

theorem twDur_assemble (dur : BitVec 16) (hs vs trig : Bool) :
    twDur (twAssemble dur hs vs trig) = dur := by
  apply BitVec.eq_of_getLsbD_eq
  intro i hi
  simp only [twDur, twAssemble, BitVec.getLsbD_extractLsb', BitVec.getLsbD_append]
  simp [hi]

theorem twHs_assemble (dur : BitVec 16) (hs vs trig : Bool) :
    twHs (twAssemble dur hs vs trig) = hs := by
  simp only [twHs, twAssemble, BitVec.getLsbD_append]
  simp

theorem twVs_assemble (dur : BitVec 16) (hs vs trig : Bool) :
    twVs (twAssemble dur hs vs trig) = vs := by
  simp only [twVs, twAssemble, BitVec.getLsbD_append]
  simp

theorem twTrig_assemble (dur : BitVec 16) (hs vs trig : Bool) :
    twTrig (twAssemble dur hs vs trig) = trig := by
  simp only [twTrig, twAssemble, BitVec.getLsbD_append]
  simp

theorem twRsv_assemble (dur : BitVec 16) (hs vs trig : Bool) :
    twRsv (twAssemble dur hs vs trig) = 0#13 := by
  apply BitVec.eq_of_getLsbD_eq
  intro i hi
  simp only [twRsv, twAssemble, BitVec.getLsbD_extractLsb', BitVec.getLsbD_append]
  have a0 : ¬ (19 + i < 16) := by omega
  have a1 : ¬ (19 + i - 16 < 1) := by omega
  have a2 : ¬ (19 + i - 16 - 1 < 1) := by omega
  have a3 : ¬ (19 + i - 16 - 1 - 1 < 1) := by omega
  simp [a0, a1, a2, a3]

/-! ### A word is its fields -/

/-- A word with RSV = 0 is put together from its other fields (R116). -/
theorem cw_split (w : Word) (h : cwRsv w = 0#18) :
    cwAssemble (cwOpc w) (cwOp w) (cwV w) (cwBg w) = w := by
  have hz : ∀ i, i < 18 → w.getLsbD (14 + i) = false := by
    intro i hi
    have := congrArg (fun b => b.getLsbD i) h
    simpa [cwRsv, hi] using this
  apply BitVec.eq_of_getLsbD_eq
  intro i hi
  simp only [cwAssemble, cwOpc, cwOp, cwV, cwBg, BitVec.getLsbD_append, BitVec.getLsbD_extractLsb']
  by_cases h8 : i < 8
  · simp [h8]
  · by_cases h10 : i - 8 < 2
    · simp [h8, h10]; congr 1; omega
    · by_cases h12 : i - 8 - 2 < 2
      · simp [h8, h10, h12]; congr 1; omega
      · by_cases h14 : i - 8 - 2 - 2 < 2
        · simp [h8, h10, h12, h14]; congr 1; omega
        · have := hz (i - 14) (by omega)
          rw [show 14 + (i - 14) = i by omega] at this
          simp [h8, h10, h12, h14, this]

/-- A word with RSV = 0 is put together from its other fields (R112). -/
theorem tw_split (w : Word) (h : twRsv w = 0#13) :
    twAssemble (twDur w) (twHs w) (twVs w) (twTrig w) = w := by
  have hz : ∀ i, i < 13 → w.getLsbD (19 + i) = false := by
    intro i hi
    have := congrArg (fun b => b.getLsbD i) h
    simpa [twRsv, hi] using this
  apply BitVec.eq_of_getLsbD_eq
  intro i hi
  simp only [twAssemble, twDur, twHs, twVs, twTrig, BitVec.getLsbD_append,
    BitVec.getLsbD_extractLsb', BitVec.getLsbD_ofBool]
  by_cases h8 : i < 16
  · simp [h8]
  · by_cases h10 : i = 16
    · subst h10; simp
    · by_cases h12 : i = 17
      · subst h12; simp
      · by_cases h14 : i = 18
        · subst h14; simp
        · have := hz (i - 19) (by omega)
          rw [show 19 + (i - 19) = i by omega] at this
          have a1 : ¬ (i - 16 < 1) := by omega
          have a2 : ¬ (i - 16 - 1 < 1) := by omega
          have a3 : ¬ (i - 16 - 1 - 1 < 1) := by omega
          simp [h8, a1, a2, a3, this]

theorem writeOp_field {o : BitVec 2} {op : WriteOp} (h : writeOpOf o = some op) :
    writeOpField op = o := by
  revert h; revert o; cases op <;> decide

theorem opcodeRow_bare {n : BitVec 8} {i : Instr} (h : opcodeRow n.toNat = some (.bare i)) :
    i.isCommand = true ∧ encode i = cwAssemble n 0 0 0 := by
  generalize hm : n.toNat = m at h
  have hn : n = BitVec.ofNat 8 m := by rw [← hm]; simp
  unfold opcodeRow at h
  split at h <;> simp at h <;> subst h <;> subst hn <;> exact ⟨rfl, rfl⟩

theorem opcodeRow_pixel {n : BitVec 8} (h : opcodeRow n.toNat = some .pixel) : n = 0x11#8 := by
  revert h; revert n; decide

theorem opcodeRow_glyph {n : BitVec 8} (h : opcodeRow n.toNat = some .glyph) : n = 0x19#8 := by
  revert h; revert n; decide

theorem opcodeRow_bulk {n : BitVec 8} (h : opcodeRow n.toNat = some .glyphBulk) : n = 0x1A#8 := by
  revert h; revert n; decide

/-! ### Command word fields as numbers (R116) -/

theorem cwOpc_toNat (w : Word) : (cwOpc w).toNat = w.toNat % 256 := by
  simp [cwOpc, BitVec.extractLsb'_toNat]

theorem cwOp_toNat (w : Word) : (cwOp w).toNat = w.toNat / 256 % 4 := by
  simp [cwOp, BitVec.extractLsb'_toNat, Nat.shiftRight_eq_div_pow]

theorem cwV_toNat (w : Word) : (cwV w).toNat = w.toNat / 1024 % 4 := by
  simp [cwV, BitVec.extractLsb'_toNat, Nat.shiftRight_eq_div_pow]

theorem cwBg_toNat (w : Word) : (cwBg w).toNat = w.toNat / 4096 % 4 := by
  simp [cwBg, BitVec.extractLsb'_toNat, Nat.shiftRight_eq_div_pow]

theorem cwRsv_toNat (w : Word) : (cwRsv w).toNat = w.toNat / 16384 := by
  have := w.isLt
  simp [cwRsv, BitVec.extractLsb'_toNat, Nat.shiftRight_eq_div_pow]
  omega

theorem writeOpOf_none_iff (o : BitVec 2) : writeOpOf o = none ↔ o.toNat = 3 := by
  revert o; decide

/-- The unassigned opcodes (R118). -/
theorem opcodeRow_none_iff (n : BitVec 8) :
    opcodeRow n.toNat = none ↔
      n.toNat ∉ [0x01, 0x02, 0x03, 0x04, 0x05, 0x06, 0x07, 0x08, 0x09, 0x0A, 0x0B,
        0x10, 0x11, 0x18, 0x19, 0x1A] := by
  revert n; decide

/-- The opcodes that use no field (R118). -/
theorem opcodeRow_bare_iff (n : BitVec 8) :
    (∃ i, opcodeRow n.toNat = some (.bare i)) ↔
      n.toNat ∈ [0x01, 0x02, 0x03, 0x04, 0x05, 0x06, 0x07, 0x08, 0x09, 0x0A, 0x0B,
        0x10, 0x18] := by
  generalize n.toNat = m
  constructor
  · rintro ⟨i, h⟩
    unfold opcodeRow at h
    split at h <;> simp at h ⊢
  · intro h; simp at h
    rcases h with h|h|h|h|h|h|h|h|h|h|h|h|h <;> subst h <;> exact ⟨_, rfl⟩

theorem opcodeRow_pixel_iff (n : BitVec 8) : opcodeRow n.toNat = some .pixel ↔ n.toNat = 0x11 := by
  revert n; decide

theorem opcodeRow_glyph_iff (n : BitVec 8) : opcodeRow n.toNat = some .glyph ↔ n.toNat = 0x19 := by
  revert n; decide

theorem opcodeRow_bulk_iff (n : BitVec 8) : opcodeRow n.toNat = some .glyphBulk ↔ n.toNat = 0x1A := by
  revert n; decide

end Sys2Proof
end

