-- ==== Sys2Proof/Laws/Mode.lean ====
section
/-! SUPPORT. The validator, the encodability checks and the compiler, by what the spec says of them (spec 40_mode.md R152, R155, R156; 41_timing_program.md R204 to R208), cited instead of unfolding them. -/

namespace Sys2Proof.Machine

/-! ### The validator -/

theorem inv1_iff (m : ModeDesc) :
    inv1 m = true ↔ m.hVis.toNat ≠ 0 ∧ m.tVis.toNat % m.hVis.toNat = 0 := by
  simp [inv1, divisible]

/-- validate is the conjunction of the five invariants (R152). -/
theorem validate_iff (m : ModeDesc) : validate m = true ↔ ValidDescriptor m := by
  unfold validate ValidDescriptor
  by_cases h : inv1 m = true
  · obtain ⟨h0, h1⟩ := (inv1_iff m).mp h
    simp [inv2, inv3, inv4, inv5, periodOrZero, h, divisible, h0, h1]
    tauto
  · have h' := h
    rw [inv1_iff] at h'
    simp [h]
    intro h0 h1
    exact absurd ⟨h0, h1⟩ h'

/-! ### What validity gives (R152, R155) -/

theorem ValidDescriptor.period_pos {m : ModeDesc} (h : ValidDescriptor m) : 1 ≤ pixelPeriod m :=
  Nat.pos_of_ne_zero h.2.2.1

theorem ValidDescriptor.width {m : ModeDesc} (h : ValidDescriptor m) : 16 ≤ m.hVis.toNat := by
  obtain ⟨h0, -, -, -, h16, -⟩ := h
  omega

/-- The visible width is H_VIS pixel periods (inv1). -/
theorem ValidDescriptor.visible {m : ModeDesc} (h : ValidDescriptor m) :
    m.hVis.toNat * pixelPeriod m = m.tVis.toNat :=
  Nat.mul_div_cancel' (Nat.dvd_of_mod_eq_zero h.2.1)

/-- The line is L_CLK pixel periods (inv2). -/
theorem ValidDescriptor.line {m : ModeDesc} (h : ValidDescriptor m) :
    lineClocks m * pixelPeriod m = m.tLine.toNat :=
  Nat.div_mul_cancel (Nat.dvd_of_mod_eq_zero h.2.2.2.1)

/-- T_LINE > T_VIS says that B_CLK >= 1 (ENC6's two forms). -/
theorem ValidDescriptor.porch_iff {m : ModeDesc} (h : ValidDescriptor m) :
    m.tVis.toNat < m.tLine.toNat ↔ m.hVis.toNat < lineClocks m := by
  rw [← h.visible, ← h.line]
  exact Nat.mul_lt_mul_right h.period_pos

/-- For a valid descriptor, the checks the model makes are R156's. -/
theorem encodable_iff {m : ModeDesc} (h : ValidDescriptor m) :
    encodable m = true ↔ EncodableDescriptor m := by
  unfold encodable EncodableDescriptor
  rw [h.porch_iff]
  simp only [Bool.and_eq_true, decide_eq_true_eq]
  unfold durMax countMax porchClocks
  constructor
  · rintro ⟨⟨⟨⟨⟨⟨⟨⟨⟨h1, h2⟩, h3⟩, h4⟩, h5⟩, h6⟩, h7⟩, h8⟩, h9⟩, h10⟩
    refine ⟨?_, ?_, ?_, ?_, ?_, ?_, ?_, ?_, ?_, ?_⟩ <;> omega
  · rintro ⟨h1, h2, h3, h4, h5, h6, h7, h8, h9, h10⟩
    refine ⟨⟨⟨⟨⟨⟨⟨⟨⟨?_, ?_⟩, ?_⟩, ?_⟩, ?_⟩, ?_⟩, ?_⟩, ?_⟩, ?_⟩, ?_⟩ <;> omega

/-- What SET_MODE accepts (R157, R160). -/
theorem accepted_iff (m : ModeDesc) :
    accepted m = true ↔ ValidDescriptor m ∧ EncodableDescriptor m := by
  unfold accepted
  rw [Bool.and_eq_true, validate_iff]
  constructor
  · rintro ⟨hv, he⟩; exact ⟨hv, (encodable_iff hv).mp he⟩
  · rintro ⟨hv, he⟩; exact ⟨hv, (encodable_iff hv).mpr he⟩

/-! ### The arithmetic of an accepted descriptor -/

/-- What the compiler relies on, in its own quantities (R155, R156). -/
theorem encodable_clocks {m : ModeDesc} (hv : ValidDescriptor m) (he : EncodableDescriptor m) :
    16 ≤ m.hVis.toNat ∧ 1 ≤ syncClocks m ∧ 1 ≤ porchClocks m ∧
      lineClocks m = porchClocks m + m.hVis.toNat ∧ syncClocks m ≠ porchClocks m ∧
      syncClocks m < lineClocks m ∧ lineClocks m ≤ 65535 := by
  have hp := hv.porch_iff.mp he.2.2.2.2.2.1
  obtain ⟨-, -, -, -, h5, -, h7, h8, h9, -⟩ := he
  have hw := hv.width
  unfold porchClocks
  refine ⟨hw, h5, ?_, ?_, ?_, ?_, h9⟩ <;> omega

/-! ### A compiled word (R112, R115) -/

theorem twDur_twWord {dur : Nat} (h : dur ≤ 65535) (hs vs trig : Bool) :
    (twDur (twWord dur hs vs trig)).toNat = dur := by
  simp only [twWord, encode, twDur_assemble, BitVec.toNat_ofNat]
  omega

@[simp] theorem twHs_twWord (dur : Nat) (hs vs trig : Bool) :
    twHs (twWord dur hs vs trig) = hs := twHs_assemble _ _ _ _

@[simp] theorem twVs_twWord (dur : Nat) (hs vs trig : Bool) :
    twVs (twWord dur hs vs trig) = vs := twVs_assemble _ _ _ _

@[simp] theorem twTrig_twWord (dur : Nat) (hs vs trig : Bool) :
    twTrig (twWord dur hs vs trig) = trig := twTrig_assemble _ _ _ _

@[simp] theorem twRsv_twWord (dur : Nat) (hs vs trig : Bool) :
    twRsv (twWord dur hs vs trig) = 0#13 := twRsv_assemble _ _ _ _

/-- A compiled word with DUR in 1..65535 is legal (R114). -/
theorem twLegal_twWord {dur : Nat} (h1 : 1 ≤ dur) (h2 : dur ≤ 65535) (hs vs trig : Bool) :
    twLegal (twWord dur hs vs trig) = true := by
  have hd := twDur_twWord h2 hs vs trig
  have : twDur (twWord dur hs vs trig) ≠ 0#16 := by
    intro e; rw [e] at hd; simp at hd; omega
  simp [twLegal, this]

/-- The three shapes VIS can take (R206), each word with its DUR, and what holds of the DURs. -/
theorem compileVis_cases {m : ModeDesc} (hv : ValidDescriptor m) (he : EncodableDescriptor m) :
    (∃ a b c d, compileVis m = #v[twWord a true false false, twWord b false false false,
        twWord c false false true, twWord d false false false] ∧
      1 ≤ a ∧ 1 ≤ b ∧ 1 ≤ c ∧ 1 ≤ d ∧ a + b + c + d = lineClocks m ∧ a = syncClocks m ∧
      a + b = lineClocks m - m.hVis.toNat) ∨
    (∃ a b c d, compileVis m = #v[twWord a true false false, twWord b true false true,
        twWord c false false false, twWord d false false false] ∧
      1 ≤ a ∧ 1 ≤ b ∧ 1 ≤ c ∧ 1 ≤ d ∧ a + b + c + d = lineClocks m ∧ a + b = syncClocks m ∧
      a = lineClocks m - m.hVis.toNat) ∨
    (∃ a b c d, compileVis m = #v[twWord a true false false, twWord b true false true,
        twWord c true false false, twWord d false false false] ∧
      1 ≤ a ∧ 1 ≤ b ∧ 1 ≤ c ∧ 1 ≤ d ∧ a + b + c + d = lineClocks m ∧ a + b + c = syncClocks m ∧
      a = lineClocks m - m.hVis.toNat) := by
  obtain ⟨hw, h1, h2, hL, hne, hlt, -⟩ := encodable_clocks hv he
  unfold compileVis
  by_cases hb : syncClocks m < porchClocks m
  · rw [if_pos hb]
    refine .inl ⟨_, _, _, _, rfl, ?_⟩
    omega
  · rw [if_neg hb]
    unfold compileVisShort
    by_cases hc : 2 ≤ lineClocks m - syncClocks m
    · simp only [if_pos hc]
      refine .inr (.inl ⟨_, _, _, _, rfl, ?_⟩)
      omega
    · simp only [if_neg hc]
      refine .inr (.inr ⟨_, _, _, _, rfl, ?_⟩)
      omega

end Sys2Proof.Machine
end

