-- ==== Sys2Proof/Laws/Exec.lean ====
section
/-! SUPPORT. Everything an instruction can do, said once: from `exec i s = .next t` follows one of the cases of `ExecTo`, each with the conditions under which it arises. Cited instead of unfolding the meanings (spec 60_exceptions.md R432; 44_phase_engine.md R353). -/

namespace Sys2Proof.Machine

/-- The next states of an instruction. -/
inductive ExecTo (s : State) : Instr → State → Prop where
  /-- A command faults (R432). -/
  | fault (i : Instr) (c : FaultCode) (hi : i.isCommand = true) (hc : c ≠ .none) :
      ExecTo s i (faulted c s)
  /-- A command holds (R353). -/
  | hold (i : Instr) (h : Hold) (hi : i.isCommand = true) : ExecTo s i (pending h s)
  /-- CLEANUP in UNINIT or held, STOP in IDLE or STOPPING: nothing (R352, R358). -/
  | same (i : Instr) (hi : i = .cleanup ∨ i = .stop) : ExecTo s i s
  /-- A command that only answers (R158, R161, R163 to R165). -/
  | result (i : Instr) (v : Word)
      (hi : i = .validate ∨ i = .setMode ∨ i = .getWidth ∨ i = .getHeight ∨ i = .getStride) :
      ExecTo s i (withResult v s)
  /-- INIT claims (R350). -/
  | claim (h : s.engine = .uninit) :
      ExecTo s .init { s with engine := .idle, phase := .vsync, token := false }
  /-- CLEANUP releases (R352). -/
  | release (h : s.engine = .idle) : ExecTo s .cleanup { s with engine := .uninit }
  /-- A held CLEANUP releases (R352). -/
  | releaseHeld (h : s.engine = .idle) :
      ExecTo s .cleanup (completed { s with engine := .uninit })
  /-- SET_MODE applies the staged mode (R160). -/
  | apply (hb : s.engine = .uninit ∨ s.engine = .idle) (ha : accepted s.stage = true) :
      ExecTo s .setMode (withResult 1#32 (applyMode s))
  /-- START primes the cycle (R356). -/
  | prime (he : s.engine = .idle) (hm : s.modeValid = true) (hp : s.pch.rem = 0) :
      ExecTo s .start (completed (vsyncEntry { s with engine := .running }))
  /-- STOP clears the running flag (R358). -/
  | stopping (h : s.engine = .running) : ExecTo s .stop { s with engine := .stopping }
  /-- PUBLISH (R400). -/
  | publish (h : (arg0 s).toNat % 4 = 0) : ExecTo s .publish { s with liveHandle := arg0 s }
  /-- WAIT_FRAME takes the token (R403). -/
  | takeToken (h : s.token = true) : ExecTo s .waitFrame (completed { s with token := false })
  /-- SET_PLANE (R251). -/
  | plane : ExecTo s .setPlane { s with
      plane := { base := arg0 s, stride := arg1 s, rows := arg2 s }, planeValid := true }
  /-- SET_FONT (R301). -/
  | font : ExecTo s .setFont { s with
      font := { base := arg0 s, cw := arg1 s, ch := arg2 s }, fontValid := true }
  /-- A drawing command draws (R253, R306, R308). -/
  | draw (i : Instr) (t : State)
      (hi : (∃ op v, i = .setPixel op v) ∨ (∃ op fg bg, i = .drawGlyph op fg bg) ∨
        (∃ op fg bg, i = .drawGlyphBulk op fg bg))
      (hm : MemoryPathOnly s t) (hs : ∀ P : State → Prop, DrawStable P → P s → P t) :
      ExecTo s i t
  /-- A timing word executes (R210). -/
  | word (dur : BitVec 16) (hs vs trig : Bool) (h : dur ≠ 0#16) :
      ExecTo s (.tw dur hs vs trig)
        (if trig then emitTrigger (countLines vs (beginWord (encode (.tw dur hs vs trig)) s))
         else countLines vs (beginWord (encode (.tw dur hs vs trig)) s))

theorem geometryQuery_cases (i : Instr) (v : Word) (s : State)
    (hi : i = .getWidth ∨ i = .getHeight ∨ i = .getStride) : ExecTo s i (geometryQuery v s) := by
  unfold geometryQuery
  split
  · exact .result i v (by rcases hi with h | h | h <;> simp [h])
  · exact .fault i .noMode (by rcases hi with rfl | rfl | rfl <;> rfl) (by decide)

theorem glyphChecked_cases (i : Instr) (x y g : Nat) (draw : State → State) (s : State)
    (hi : (∃ op fg bg, i = .drawGlyph op fg bg) ∨ (∃ op fg bg, i = .drawGlyphBulk op fg bg))
    (hm : MemoryPathOnly s (draw s)) (hs : ∀ P : State → Prop, DrawStable P → P s → P (draw s)) :
    ExecTo s i (glyphChecked x y g draw s) := by
  have hc : i.isCommand = true := by
    rcases hi with ⟨_, _, _, rfl⟩ | ⟨_, _, _, rfl⟩ <;> rfl
  unfold glyphChecked
  split
  · exact .fault i .noTarget hc (by decide)
  split
  · exact .fault i .arg hc (by decide)
  split
  · exact .fault i .bounds hc (by decide)
  split
  · exact .hold i .memory hc
  · exact .draw i _ (.inr hi) hm hs

/-- Everything an instruction can do when it answers a next state. -/
theorem exec_cases {i : Instr} {s t : State} (h : exec i s = .next t) : ExecTo s i t := by
  cases i with
  | init =>
    obtain rfl := Host.Outcome.next.inj h
    split
    · exact .fault _ .state rfl (by decide)
    · next he =>
      split
      · exact .fault _ .resource rfl (by decide)
      · exact .claim (by simpa using he)
  | cleanup =>
    obtain rfl := Host.Outcome.next.inj h
    split
    · unfold cleanupHeld
      split
      · next he => exact .releaseHeld he
      · exact .same _ (.inl rfl)
    · unfold cleanupIssued
      split
      · exact .same _ (.inl rfl)
      · next he => exact .release he
      · exact .fault _ .state rfl (by decide)
      · exact .hold _ .park rfl
  | validate =>
    obtain rfl := Host.Outcome.next.inj h
    exact .result _ _ (by simp)
  | setMode =>
    simp only [exec, execSetMode] at h
    split at h
    · obtain rfl := Host.Outcome.next.inj h
      exact .result _ _ (by simp)
    · next hb =>
      split at h
      · next ha =>
        obtain rfl := Host.Outcome.next.inj h
        refine .apply ?_ ha
        cases he : s.engine <;> simp [engineBusy, he] at hb ⊢
      · obtain rfl := Host.Outcome.next.inj h
        exact .result _ _ (by simp)
  | start =>
    obtain rfl := Host.Outcome.next.inj h
    split
    · exact .fault _ .state rfl (by decide)
    · next he =>
      split
      · exact .fault _ .noMode rfl (by decide)
      · next hm =>
        split
        · exact .hold _ .pixelChannel rfl
        · next hp => exact .prime (by simpa using he) (by simpa using hm) (by simpa using hp)
  | stop =>
    obtain rfl := Host.Outcome.next.inj h
    split
    · exact .fault _ .state rfl (by decide)
    · exact .same _ (.inr rfl)
    · exact .same _ (.inr rfl)
    · next he => exact .stopping he
  | publish =>
    obtain rfl := Host.Outcome.next.inj h
    split
    · exact .fault _ .arg rfl (by decide)
    · next ha => exact .publish (by simpa using ha)
  | waitFrame =>
    obtain rfl := Host.Outcome.next.inj h
    split
    · next ht => exact .takeToken ht
    · exact .hold _ .frameToken rfl
  | getWidth =>
    obtain rfl := Host.Outcome.next.inj h
    exact geometryQuery_cases _ _ _ (by simp)
  | getHeight =>
    obtain rfl := Host.Outcome.next.inj h
    exact geometryQuery_cases _ _ _ (by simp)
  | getStride =>
    obtain rfl := Host.Outcome.next.inj h
    exact geometryQuery_cases _ _ _ (by simp)
  | setPlane =>
    simp only [exec, execSetPlane] at h
    split at h
    · obtain rfl := Host.Outcome.next.inj h
      exact .fault _ .arg rfl (by decide)
    · split at h
      · obtain rfl := Host.Outcome.next.inj h
        exact .fault _ .arg rfl (by decide)
      · obtain rfl := Host.Outcome.next.inj h
        exact .plane
  | setPixel op v =>
    simp only [exec, execSetPixel] at h
    split at h
    · obtain rfl := Host.Outcome.next.inj h
      exact .fault _ .noTarget rfl (by decide)
    · split at h
      · obtain rfl := Host.Outcome.next.inj h
        exact .fault _ .bounds rfl (by decide)
      · split at h
        · obtain rfl := Host.Outcome.next.inj h
          exact .hold _ .memory rfl
        · obtain rfl := Host.Outcome.next.inj h
          exact .draw _ _ (.inl ⟨op, v, rfl⟩) (drawPixel_memoryPathOnly _ _ _ _ _)
            (fun P hP hs => hP.drawPixel hs _ _ _ _)
  | setFont =>
    simp only [exec, execSetFont] at h
    split at h
    · obtain rfl := Host.Outcome.next.inj h
      exact .fault _ .arg rfl (by decide)
    · split at h
      · obtain rfl := Host.Outcome.next.inj h
        exact .fault _ .arg rfl (by decide)
      · obtain rfl := Host.Outcome.next.inj h
        exact .font
  | drawGlyph op fg bg =>
    obtain rfl := Host.Outcome.next.inj h
    exact glyphChecked_cases _ _ _ _ _ _ (.inl ⟨op, fg, bg, rfl⟩)
      (drawCell_memoryPathOnly _ _ _ _ _ _ _) (fun P hP hs => hP.drawCell hs _ _ _ _ _ _)
  | drawGlyphBulk op fg bg =>
    obtain rfl := Host.Outcome.next.inj h
    exact glyphChecked_cases _ _ _ _ _ _ (.inr ⟨op, fg, bg, rfl⟩)
      (drawCellBulk_memoryPathOnly _ _ _ _ _ _ _) (fun P hP hs => hP.drawCellBulk hs _ _ _ _ _ _)
  | tw dur hs vs trig =>
    simp only [exec, execTw] at h
    split at h
    · cases h
    · next hd =>
      obtain rfl := Host.Outcome.next.inj h
      exact .word dur hs vs trig hd

/-- A START whose hold is not met keeps holding (R353, R356). -/
theorem start_holds {s : State} (h : holdMet .pixelChannel s = false) :
    exec .start s = .next (pending .pixelChannel s) := by
  simp only [holdMet, Bool.or_eq_false_iff, bne_eq_false_iff_eq, Bool.not_eq_false', beq_eq_false_iff_ne] at h
  simp only [exec, execStart, h.1.1, h.1.2, if_pos h.2, ne_eq, not_true_eq_false, if_false]
  rfl

/-- A held CLEANUP whose hold is not met keeps holding (R352). -/
theorem cleanup_holds {s : State} (hp : (portAt s s.port).hold = some .park)
    (h : holdMet .park s = false) : exec .cleanup s = .next s := by
  have he : s.engine ≠ .idle := by simpa [holdMet] using h
  simp [exec, execCleanup, hp, cleanupHeld, he]

/-- A WAIT_FRAME whose hold is not met keeps holding (R403). -/
theorem waitFrame_holds {s : State} (h : holdMet .frameToken s = false) :
    exec .waitFrame s = .next (pending .frameToken s) := by
  have ht : s.token = false := h
  simp only [exec, execWaitFrame, ht]
  rfl

/-- Every instruction but a timing word of DUR 0 answers a next state (I1). -/
theorem exec_completes {i : Instr} (h : i.wellFormed = true) (s : State) :
    ∃ t, exec i s = .next t := by
  cases i with
  | setMode => simp only [exec, execSetMode]; split <;> [exact ⟨_, rfl⟩; (split <;> exact ⟨_, rfl⟩)]
  | setPlane =>
    simp only [exec, execSetPlane]; split <;> [exact ⟨_, rfl⟩; (split <;> exact ⟨_, rfl⟩)]
  | setFont =>
    simp only [exec, execSetFont]; split <;> [exact ⟨_, rfl⟩; (split <;> exact ⟨_, rfl⟩)]
  | setPixel op v =>
    simp only [exec, execSetPixel]
    split <;> [exact ⟨_, rfl⟩; (split <;> [exact ⟨_, rfl⟩; (split <;> exact ⟨_, rfl⟩)])]
  | tw dur hs vs trig =>
    have hd : dur ≠ 0#16 := by simpa [Instr.wellFormed] using h
    simp only [exec, execTw, if_neg hd]
    exact ⟨_, rfl⟩
  | _ => exact ⟨_, rfl⟩

end Sys2Proof.Machine
end

