-- ==== Sys2Proof/Laws/Pixel.lean ====
section
/-! SUPPORT. The fields of a byte: what the write operators do to a field, seen bit by bit (spec 42_pixel_plane.md R252, R254), and what the masked write of one plane byte does to the fields it covers and to the others (43_font_blitter.md R308). -/

namespace Sys2Proof.Machine

/-! ### Fields of a byte -/

theorem fieldOf_bit (b : Byte) (sh j : Nat) (hj : j < 2) :
    (fieldOf b sh).getLsbD j = b.getLsbD (sh + j) := by
  simp [fieldOf, hj]

theorem field_ext {p q : Pixel} (h0 : p.getLsbD 0 = q.getLsbD 0)
    (h1 : p.getLsbD 1 = q.getLsbD 1) : p = q := by
  apply BitVec.eq_of_getLsbD_eq
  intro i hi
  have : i = 0 ∨ i = 1 := by omega
  rcases this with rfl | rfl <;> assumption

theorem fieldMask_bit {sh i : Nat} (hi : i < 8) :
    (fieldMask sh).getLsbD i = (decide (sh ≤ i) && decide (i < sh + 2)) := by
  unfold fieldMask
  rw [BitVec.getLsbD_shiftLeft]
  by_cases h : i < sh
  · simp [hi, h]
  · have : (3#8).getLsbD (i - sh) = decide (i - sh < 2) := by
      have hlt : i - sh < 8 := by omega
      generalize i - sh = k at hlt
      interval_cases k <;> decide
    simp [hi, h, this]
    rw [Bool.eq_iff_iff]; simp; omega

theorem fieldValue_bit {sh i : Nat} (v : Pixel) (hi : i < 8) :
    (fieldValue sh v).getLsbD i = (decide (sh ≤ i) && v.getLsbD (i - sh)) := by
  unfold fieldValue
  rw [BitVec.getLsbD_shiftLeft]
  by_cases h : i < sh
  · simp [hi, h]
  · have h' : sh ≤ i := by omega
    have : i - sh < 8 := by omega
    simp [hi, h, h', this]

/-- What one bit of a byte becomes under a write operator with the given mask and pattern bits. -/
def maskedBit (op : WriteOp) (b m p : Bool) : Bool :=
  match op with
  | .set => (b && !m) || p
  | .xor => b ^^ p
  | .and => b && (p || !m)

theorem applyMasked_bit (op : WriteOp) (b m p : Byte) {i : Nat} (hi : i < 8) :
    (applyMasked op b m p).getLsbD i = maskedBit op (b.getLsbD i) (m.getLsbD i) (p.getLsbD i) := by
  cases op <;> simp [applyMasked, maskedBit, hi]

theorem maskedBit_off (op : WriteOp) (b : Bool) : maskedBit op b false false = b := by
  cases op <;> cases b <;> rfl

theorem fieldOp_bit (op : WriteOp) (f v : Pixel) (j : Nat) (hj : j < 2) :
    (fieldOp op f v).getLsbD j = maskedBit op (f.getLsbD j) true (v.getLsbD j) := by
  cases op <;> simp [fieldOp, maskedBit, hj]

/-- A field whose mask bits are set and whose pattern bits hold v becomes what the operator makes of it. -/
theorem field_hit (op : WriteOp) (b m p : Byte) (sh : Nat) (hsh : sh + 2 ≤ 8) (v : Pixel)
    (hm : ∀ j, j < 2 → m.getLsbD (sh + j) = true)
    (hp : ∀ j, j < 2 → p.getLsbD (sh + j) = v.getLsbD j) :
    fieldOf (applyMasked op b m p) sh = fieldOp op (fieldOf b sh) v := by
  apply field_ext <;>
    rw [fieldOf_bit _ _ _ (by omega), applyMasked_bit _ _ _ _ (by omega), hm _ (by omega),
      hp _ (by omega), fieldOp_bit _ _ _ _ (by omega), fieldOf_bit _ _ _ (by omega)]

/-- A field whose mask and pattern bits are clear keeps its value. -/
theorem field_miss (op : WriteOp) (b m p : Byte) (sh : Nat) (hsh : sh + 2 ≤ 8)
    (hm : ∀ j, j < 2 → m.getLsbD (sh + j) = false)
    (hp : ∀ j, j < 2 → p.getLsbD (sh + j) = false) :
    fieldOf (applyMasked op b m p) sh = fieldOf b sh := by
  apply field_ext <;>
    rw [fieldOf_bit _ _ _ (by omega), applyMasked_bit _ _ _ _ (by omega), hm _ (by omega),
      hp _ (by omega), maskedBit_off, fieldOf_bit _ _ _ (by omega)]

/-- apply_op on the field it names (R252, R254). -/
theorem fieldOf_applyOp_same (op : WriteOp) (b : Byte) (x : Nat) (v : Pixel) :
    fieldOf (applyOp op b (pixShift x) v) (pixShift x) = fieldOp op (fieldOf b (pixShift x)) v := by
  have hs : pixShift x + 2 ≤ 8 := by unfold pixShift; omega
  refine field_hit op b _ _ _ hs v ?_ ?_
  · intro j hj; rw [fieldMask_bit (by omega)]; simp; omega
  · intro j hj; rw [fieldValue_bit _ (by omega)]; simp

theorem pixShift_apart {x y : Nat} (h : pixShift x ≠ pixShift y) (j : Nat) (hj : j < 2) :
    ¬ (pixShift x ≤ pixShift y + j ∧ pixShift y + j < pixShift x + 2) := by
  unfold pixShift at *; omega

/-- apply_op on any other field (R254 (c)). -/
theorem fieldOf_applyOp_ne (op : WriteOp) (b : Byte) (x y : Nat) (v : Pixel)
    (h : pixShift x ≠ pixShift y) :
    fieldOf (applyOp op b (pixShift x) v) (pixShift y) = fieldOf b (pixShift y) := by
  have hs : pixShift y + 2 ≤ 8 := by unfold pixShift; omega
  refine field_miss op b _ _ _ hs ?_ ?_
  · intro j hj; rw [fieldMask_bit (by omega)]
    have := pixShift_apart h j hj
    simp; omega
  · intro j hj; rw [fieldValue_bit _ (by omega)]
    have := pixShift_apart h j hj
    by_cases h1 : pixShift x ≤ pixShift y + j
    · have : pixShift x + 2 ≤ pixShift y + j := by omega
      simp [h1]
      exact BitVec.getLsbD_of_ge _ _ (by omega)
    · simp [h1]

/-- A byte is its four fields. -/
theorem byte_ext {b c : Byte} (h : ∀ x, fieldOf b (pixShift x) = fieldOf c (pixShift x)) : b = c := by
  apply BitVec.eq_of_getLsbD_eq
  intro i hi
  have := congrArg (fun p => p.getLsbD (i % 2)) (h (3 - i / 2))
  rw [fieldOf_bit _ _ _ (by omega), fieldOf_bit _ _ _ (by omega)] at this
  have e : pixShift (3 - i / 2) + i % 2 = i := by unfold pixShift; omega
  rwa [e] at this

/-! ### OR-folds -/

theorem foldl_or_bit {α : Type} {n : Nat} (f : α → BitVec n) (l : List α) (e : BitVec n) (i : Nat) :
    (l.foldl (fun m a => m ||| f a) e).getLsbD i = (e.getLsbD i || l.any (fun a => (f a).getLsbD i)) := by
  induction l generalizing e with
  | nil => simp
  | cons a l ih => simp [ih, Bool.or_assoc]

theorem byteMask_bit (cw x i : Nat) {j : Nat} (hj : j < 8) :
    (byteMask cw x i).getLsbD j = true ↔
      ∃ col, col < cw ∧ (x + col) / 4 = i ∧ pixShift (x + col) ≤ j ∧ j < pixShift (x + col) + 2 := by
  unfold byteMask
  rw [foldl_or_bit]
  simp [columnsIn, fieldMask_bit hj]

theorem bytePattern_bit (cw x i : Nat) (p : BitVec 18) {j : Nat} (hj : j < 8) :
    (bytePattern cw x i p).getLsbD j = true ↔
      ∃ col, col < cw ∧ (x + col) / 4 = i ∧ pixShift (x + col) ≤ j ∧
        (patternPixel cw p col).getLsbD (j - pixShift (x + col)) = true := by
  unfold bytePattern
  rw [foldl_or_bit]
  simp [columnsIn, fieldValue_bit _ hj]

/-- The masked write of plane byte i, on the field of one of the columns it covers (R308). -/
theorem rowByte_hit (op : WriteOp) (b : Byte) (cw x i col : Nat) (p : BitVec 18)
    (hc : col < cw) (hi : (x + col) / 4 = i) :
    fieldOf (applyMasked op b (byteMask cw x i) (bytePattern cw x i p)) (pixShift (x + col)) =
      fieldOp op (fieldOf b (pixShift (x + col))) (patternPixel cw p col) := by
  have hs : pixShift (x + col) + 2 ≤ 8 := by unfold pixShift; omega
  refine field_hit op b _ _ _ hs _ ?_ ?_
  · intro j hj
    rw [byteMask_bit _ _ _ (by omega)]
    exact ⟨col, hc, hi, by omega, by omega⟩
  · intro j hj
    rw [Bool.eq_iff_iff, bytePattern_bit _ _ _ _ (by omega)]
    constructor
    · rintro ⟨c, h1, h2, h3, h4⟩
      by_cases hcc : c = col
      · subst hcc; rwa [show pixShift (x + c) + j - pixShift (x + c) = j by omega] at h4
      · exfalso
        have hne : pixShift (x + c) ≠ pixShift (x + col) := by unfold pixShift; omega
        have := pixShift_apart hne j hj
        have hge : 2 ≤ pixShift (x + col) + j - pixShift (x + c) := by omega
        rw [BitVec.getLsbD_of_ge _ _ hge] at h4
        cases h4
    · intro h
      refine ⟨col, hc, hi, by omega, ?_⟩
      rwa [show pixShift (x + col) + j - pixShift (x + col) = j by omega]

/-- The masked write of plane byte i, on a field of none of the columns (R308). -/
theorem rowByte_miss (op : WriteOp) (b : Byte) (cw x i px : Nat) (p : BitVec 18) (hi : px / 4 = i)
    (hpx : ∀ col, col < cw → px ≠ x + col) :
    fieldOf (applyMasked op b (byteMask cw x i) (bytePattern cw x i p)) (pixShift px) =
      fieldOf b (pixShift px) := by
  have hs : pixShift px + 2 ≤ 8 := by unfold pixShift; omega
  refine field_miss op b _ _ _ hs ?_ ?_
  · intro j hj
    rw [← Bool.not_eq_true, byteMask_bit _ _ _ (by omega)]
    rintro ⟨c, h1, h2, h3, h4⟩
    have := hpx c h1
    have hne : pixShift (x + c) ≠ pixShift px := by unfold pixShift; omega
    exact pixShift_apart hne j hj ⟨h3, h4⟩
  · intro j hj
    rw [← Bool.not_eq_true, bytePattern_bit _ _ _ _ (by omega)]
    rintro ⟨c, h1, h2, h3, h4⟩
    have := hpx c h1
    have hne : pixShift (x + c) ≠ pixShift px := by unfold pixShift; omega
    have := pixShift_apart hne j hj
    have hge : 2 ≤ pixShift px + j - pixShift (x + c) := by omega
    rw [BitVec.getLsbD_of_ge _ _ hge] at h4
    cases h4

end Sys2Proof.Machine
end

