-- ==== Sys2Proof/Laws/Glyph.lean ====
section
/-! SUPPORT. The pieces a glyph command is made of, each with the one lemma that says what it does: a byte write seen through the plane's pixels (spec 42_pixel_plane.md R250), painting pieces that compose (`Paints`, `Paints.foldl`), one pixel of the per-pixel path (43_font_blitter.md R306) and one plane byte of the bulk path (R308). -/

namespace Sys2Proof.Machine

/-! ### The plane's bytes and pixels -/

/-- The plane as SET_PLANE leaves it does not wrap (R251). -/
def PlaneFits (s : State) : Prop :=
  s.plane.base.toNat + s.plane.stride.toNat * s.plane.rows.toNat ≤ 4294967296

/-- The address of a byte of a plane that does not wrap, as a number (R250). -/
theorem planeByteAddr_toNat {s : State} (h : PlaneFits s) {i y : Nat} (hi : i < s.plane.stride.toNat)
    (hy : y < s.plane.rows.toNat) :
    (planeByteAddr s i y).toNat = s.plane.base.toNat + y * s.plane.stride.toNat + i := by
  unfold planeByteAddr
  rw [BitVec.toNat_ofNat]
  refine Nat.mod_eq_of_lt ?_
  unfold PlaneFits at h
  have h1 : (y + 1) * s.plane.stride.toNat ≤ s.plane.stride.toNat * s.plane.rows.toNat := by
    rw [Nat.mul_comm s.plane.stride.toNat]; exact Nat.mul_le_mul_right _ hy
  have h2 : (y + 1) * s.plane.stride.toNat = y * s.plane.stride.toNat + s.plane.stride.toNat := Nat.succ_mul _ _
  omega

/-- Different bytes of a plane that does not wrap have different addresses. -/
theorem planeByteAddr_inj {s : State} (h : PlaneFits s) {i y j z : Nat} (hi : i < s.plane.stride.toNat)
    (hy : y < s.plane.rows.toNat) (hj : j < s.plane.stride.toNat) (hz : z < s.plane.rows.toNat)
    (e : (planeByteAddr s i y).toNat = (planeByteAddr s j z).toNat) : i = j ∧ y = z := by
  rw [planeByteAddr_toNat h hi hy, planeByteAddr_toNat h hj hz] at e
  have e1 : i + s.plane.stride.toNat * y = j + s.plane.stride.toNat * z := by
    rw [Nat.mul_comm _ y, Nat.mul_comm _ z]; omega
  have hp : 0 < s.plane.stride.toNat := by omega
  have d := congrArg (· / s.plane.stride.toNat) e1
  simp only [Nat.add_mul_div_left _ _ hp, Nat.div_eq_of_lt hi, Nat.div_eq_of_lt hj] at d
  have hyz : y = z := by omega
  subst hyz
  exact ⟨by omega, rfl⟩

/-- One masked byte write seen through the plane's pixels (R306, R308). -/
theorem planePixel_write {s : State} (h : PlaneFits s) (m : List Host.Cell) {i y qx qy : Nat} (b : Byte)
    (hi : i < s.plane.stride.toNat) (hy : y < s.plane.rows.toNat) (hqx : qx < 4 * s.plane.stride.toNat)
    (hqy : qy < s.plane.rows.toNat) :
    planePixel s (Memory.write m (planeByteAddr s i y).toNat b) qx qy =
      if qx / 4 = i ∧ qy = y then fieldOf b (pixShift qx) else planePixel s m qx qy := by
  unfold planePixel
  rw [Memory.read_write]
  by_cases e : qx / 4 = i ∧ qy = y
  · rw [if_pos e, if_pos]
    show (planeByteAddr s (qx / 4) qy).toNat = _
    rw [e.1, e.2]
  · rw [if_neg e, if_neg]
    intro e'
    exact e (planeByteAddr_inj h (by omega) hqy hi hy e')

/-- What a piece of a drawing command does: it changes memory alone, no byte outside the given ones, and it applies the operator with the value v to exactly the pixels in K. -/
structure Paints (s0 : State) (op : WriteOp) (v : Nat → Nat → Pixel) (bytes : List Word)
    (K : Nat → Nat → Prop) (s t : State) : Prop where
  same : t = { s with mem := t.mem }
  out : ∀ a, (∀ b ∈ bytes, b.toNat ≠ a) → Memory.read t.mem a = Memory.read s.mem a
  hit : ∀ qx qy, qx < 4 * s0.plane.stride.toNat → qy < s0.plane.rows.toNat → K qx qy →
    planePixel s0 t.mem qx qy = fieldOp op (planePixel s0 s.mem qx qy) (v qx qy)
  miss : ∀ qx qy, qx < 4 * s0.plane.stride.toNat → qy < s0.plane.rows.toNat → ¬ K qx qy →
    planePixel s0 t.mem qx qy = planePixel s0 s.mem qx qy

/-- A state that differs from s0 in memory alone, and there not in the given font bytes. -/
def SameFont (s0 : State) (font : List Word) (s : State) : Prop :=
  s = { s0 with mem := s.mem } ∧ ∀ b ∈ font, Memory.read s.mem b.toNat = Memory.read s0.mem b.toNat

/-- A piece that stays away from the font keeps it. -/
theorem Paints.sameFont {s0 : State} {op : WriteOp} {v : Nat → Nat → Pixel} {bytes font : List Word}
    {K : Nat → Nat → Prop} {s t : State} (h : Paints s0 op v bytes K s t) (hs : SameFont s0 font s)
    (apart : ∀ a ∈ font, a ∉ bytes) : SameFont s0 font t := by
  refine ⟨?_, fun b hb => ?_⟩
  · rw [h.same, hs.1]
  · rw [h.out, hs.2 b hb]
    intro c hc e
    exact apart b hb (BitVec.eq_of_toNat_eq e ▸ hc)

/-- Pieces that paint disjoint sets of pixels paint their union. -/
theorem Paints.foldl {α : Type} {s0 : State} {op : WriteOp} {v : Nat → Nat → Pixel}
    {bytes font : List Word} (apart : ∀ a ∈ font, a ∉ bytes) (f : State → α → State)
    (K : α → Nat → Nat → Prop) (l : List α)
    (hf : ∀ a ∈ l, ∀ s, SameFont s0 font s → Paints s0 op v bytes (K a) s (f s a))
    (hd : l.Pairwise (fun a b => ∀ qx qy, ¬ (K a qx qy ∧ K b qx qy)))
    (s : State) (hs : SameFont s0 font s) :
    Paints s0 op v bytes (fun qx qy => ∃ a ∈ l, K a qx qy) s (l.foldl f s) := by
  induction l generalizing s with
  | nil => exact ⟨rfl, fun _ _ => rfl, fun _ _ _ _ h => by simp at h, fun _ _ _ _ _ => rfl⟩
  | cons a l ih =>
    have h1 := hf a (by simp) s hs
    have hp := List.pairwise_cons.mp hd
    have h2 := ih (fun b hb => hf b (by simp [hb])) hp.2 (f s a) (h1.sameFont hs apart)
    refine ⟨?_, ?_, ?_, ?_⟩
    · show l.foldl f (f s a) = { s with mem := (l.foldl f (f s a)).mem }
      rw [h2.same, h1.same]
    · intro c hc
      exact (h2.out c hc).trans (h1.out c hc)
    · intro qx qy hx hy hk
      show planePixel s0 (l.foldl f (f s a)).mem qx qy = _
      by_cases ha : K a qx qy
      · rw [h2.miss qx qy hx hy, h1.hit qx qy hx hy ha]
        rintro ⟨b, hb, hkb⟩
        exact hp.1 b hb qx qy ⟨ha, hkb⟩
      · have : ∃ b ∈ l, K b qx qy := by
          obtain ⟨b, hb, hkb⟩ := hk
          rcases List.mem_cons.mp hb with rfl | hb
          · exact absurd hkb ha
          · exact ⟨b, hb, hkb⟩
        rw [h2.hit qx qy hx hy this, h1.miss qx qy hx hy ha]
    · intro qx qy hx hy hk
      show planePixel s0 (l.foldl f (f s a)).mem qx qy = _
      rw [h2.miss qx qy hx hy (fun ⟨b, hb, hkb⟩ => hk ⟨b, by simp [hb], hkb⟩),
        h1.miss qx qy hx hy (fun ha => hk ⟨a, by simp, ha⟩)]

/-! ### Font bits -/

theorem glyphBit_of_nil {s : State} (h : s.mid = []) (c r col : Nat) :
    glyphBit c r col s = (glyphBitIn s c r col, s) := by
  unfold glyphBit
  simp only [busRead_of_nil h]
  rfl

theorem fontByte_mem {s : State} {g r col : Nat} (hcw : s.font.cw.toNat = 8 ∨ s.font.cw.toNat = 9)
    (hr : r < s.font.ch.toNat) (hc : col < s.font.cw.toNat) :
    fontByteAddr s (fontRow s g r) (glyphBitOffset s g col / 8) ∈ glyphFontBytes s g := by
  unfold glyphFontBytes
  rw [List.mem_flatMap]
  refine ⟨r, List.mem_range.mpr hr, ?_⟩
  simp only
  have hoff : glyphBitOffset s g col = glyphBitOffset s g 0 + col := by simp [glyphBitOffset]
  rcases hcw with h8 | h9
  · have : fontCw s = 8 := h8
    rw [if_pos this]
    have e : glyphBitOffset s g 0 % 8 = 0 := by simp [glyphBitOffset, this]
    have : glyphBitOffset s g col / 8 = glyphBitOffset s g 0 / 8 := by omega
    simp [this]
  · have : fontCw s = 9 := h9
    rw [if_neg (by omega)]
    have : glyphBitOffset s g col / 8 = glyphBitOffset s g 0 / 8 ∨
        glyphBitOffset s g col / 8 = glyphBitOffset s g 0 / 8 + 1 := by omega
    rcases this with e | e <;> simp [e]

theorem glyphBitIn_sameFont {s0 s : State} {g r col : Nat} (hs : SameFont s0 (glyphFontBytes s0 g) s)
    (hcw : s0.font.cw.toNat = 8 ∨ s0.font.cw.toNat = 9)
    (hr : r < s0.font.ch.toNat) (hc : col < s0.font.cw.toNat) :
    glyphBitIn s g r col = glyphBitIn s0 g r col := by
  unfold glyphBitIn
  have e : fontByteAddr s (fontRow s g r) (glyphBitOffset s g col / 8) =
      fontByteAddr s0 (fontRow s0 g r) (glyphBitOffset s0 g col / 8) := by
    rw [hs.1]; rfl
  have e2 : glyphBitOffset s g col = glyphBitOffset s0 g col := by rw [hs.1]; rfl
  rw [e, e2, hs.2 _ (fontByte_mem hcw hr hc)]

/-! ### The per-pixel path -/

theorem mem_coveredBytes {cw x i : Nat} (h : 1 ≤ cw) :
    i ∈ coveredBytes cw x ↔ ∃ col, col < cw ∧ (x + col) / 4 = i := by
  unfold coveredBytes
  rw [List.mem_range']
  constructor
  · rintro ⟨k, hk, rfl⟩
    by_cases h0 : k = 0
    · exact ⟨0, by omega, by omega⟩
    · exact ⟨4 * (x / 4 + k) - x, by omega, by omega⟩
  · rintro ⟨col, hc, rfl⟩
    exact ⟨(x + col) / 4 - x / 4, by omega, by omega⟩

theorem planeByte_mem {s : State} {x y r col : Nat} (hr : r < s.font.ch.toNat)
    (hc : col < s.font.cw.toNat) :
    pixAddr s (x + col) (y + r) ∈ glyphPlaneBytes s x y := by
  unfold glyphPlaneBytes
  rw [List.mem_flatMap]
  refine ⟨r, List.mem_range.mpr hr, ?_⟩
  rw [List.mem_map]
  exact ⟨(x + col) / 4,
    (mem_coveredBytes (show 1 ≤ fontCw s by unfold fontCw; omega)).mpr ⟨col, hc, rfl⟩, rfl⟩

/-- The colour a glyph gives the pixel (qx, qy) of its cell at (x, y) (R306). -/
def cellColour (s : State) (fg bg : Pixel) (x y g qx qy : Nat) : Pixel :=
  if glyphBitIn s g (qy - y) (qx - x) then fg else bg

/-- The cell at (x, y) lies wholly inside the plane (R305). -/
def CellFits (s : State) (x y : Nat) : Prop :=
  x + s.font.cw.toNat - 1 < 4 * s.plane.stride.toNat ∧ y + s.font.ch.toNat - 1 < s.plane.rows.toNat

/-- One pixel of the cell, on the per-pixel path (R306). -/
theorem drawGlyphPixel_paints {s0 s : State} (hm : s0.mid = []) (hp : PlaneFits s0) (op : WriteOp)
    (fg bg : Pixel) {x y g r col : Nat} (hcw : s0.font.cw.toNat = 8 ∨ s0.font.cw.toNat = 9) (hfit : CellFits s0 x y)
    (hr : r < s0.font.ch.toNat) (hc : col < s0.font.cw.toNat)
    (hs : SameFont s0 (glyphFontBytes s0 g) s) :
    Paints s0 op (cellColour s0 fg bg x y g) (glyphPlaneBytes s0 x y)
      (fun qx qy => qx = x + col ∧ qy = y + r) s
      (drawGlyphPixel op fg bg x y g s (r, col)) := by
  have hm' : s.mid = [] := by rw [hs.1]; exact hm
  have ea : pixAddr s (x + col) (y + r) = pixAddr s0 (x + col) (y + r) := by rw [hs.1]; rfl
  have e : drawGlyphPixel op fg bg x y g s (r, col) =
      { s with mem :=
          (Memory.write s.mem (pixAddr s0 (x + col) (y + r)).toNat
            (applyOp op (Memory.read s.mem (pixAddr s0 (x + col) (y + r)).toNat) (pixShift (x + col))
              (if glyphBitIn s0 g r col then fg else bg))) } := by
    unfold drawGlyphPixel
    rw [glyphBit_of_nil hm']
    simp only
    rw [drawPixel_of_nil hm', ea, glyphBitIn_sameFont hs hcw hr hc]
  have hx : x + col < 4 * s0.plane.stride.toNat := by have := hfit.1; omega
  have hy : y + r < s0.plane.rows.toNat := by have := hfit.2; omega
  have pw := fun qx qy (b : Byte) (h1 : qx < 4 * s0.plane.stride.toNat)
    (h2 : qy < s0.plane.rows.toNat) => planePixel_write hp s.mem (i := (x + col) / 4) (y := y + r) (qx := qx) (qy := qy) b (by omega) hy h1 h2
  rw [e]
  refine ⟨rfl, ?_, ?_, ?_⟩
  · intro a ha
    refine Memory.read_write_ne _ _ ?_
    intro e; exact ha _ (planeByte_mem hr hc) e.symm
  · rintro qx qy h1 h2 ⟨rfl, rfl⟩
    refine (pw _ _ _ h1 h2).trans ?_
    rw [if_pos ⟨rfl, rfl⟩, fieldOf_applyOp_same]
    simp [cellColour, planePixel]
  · intro qx qy h1 h2 hk
    refine (pw _ _ _ h1 h2).trans ?_
    by_cases hq : qx / 4 = (x + col) / 4 ∧ qy = y + r
    · rw [if_pos hq, fieldOf_applyOp_ne]
      · unfold planePixel pixAddr; rw [hq.1, hq.2]
      · intro e; apply hk; refine ⟨?_, hq.2⟩; unfold pixShift at e; omega
    · rw [if_neg hq]

theorem cellPixels_mem {cw ch : Nat} {rc : Nat × Nat} :
    rc ∈ cellPixels cw ch ↔ rc.1 < ch ∧ rc.2 < cw := by
  rcases rc with ⟨r, c⟩
  simp [cellPixels]

theorem cellPixels_nodup (cw ch : Nat) : (cellPixels cw ch).Nodup := by
  unfold cellPixels
  rw [List.nodup_flatMap]
  refine ⟨fun r _ => ?_, ?_⟩
  · exact (List.nodup_range).map (fun a b h => by simpa using h)
  · refine List.nodup_range.imp ?_
    intro a b hab p h1 h2
    simp at h1 h2
    obtain ⟨c, -, rfl⟩ := h1
    obtain ⟨d, -, h⟩ := h2
    simp at h; exact hab h.1.symm

/-- The pixels of the cell at (x, y) (R306). -/
def inCell (s : State) (x y qx qy : Nat) : Prop :=
  x ≤ qx ∧ qx < x + s.font.cw.toNat ∧ y ≤ qy ∧ qy < y + s.font.ch.toNat

/-- The pixels a piece paints, said another way. -/
theorem Paints.congr {s0 : State} {op : WriteOp} {v : Nat → Nat → Pixel} {bytes : List Word}
    {K L : Nat → Nat → Prop} {s t : State} (h : Paints s0 op v bytes K s t) (hk : ∀ x y, K x y ↔ L x y) :
    Paints s0 op v bytes L s t :=
  ⟨h.same, h.out, fun _ _ a b c => h.hit _ _ a b ((hk _ _).mpr c),
    fun _ _ a b c => h.miss _ _ a b (fun k => c ((hk _ _).mp k))⟩

/-! ### The bulk-row path -/

theorem rowBits_of_nil {s : State} (h : s.mid = []) (c r : Nat) :
    (rowBits c r s).2 = s := by
  unfold rowBits
  simp only [busRead_of_nil h]
  split <;> rfl

/-- One plane byte of a row of the cell, on the bulk path (R308), for a row pattern that holds the values v. -/
theorem rowByte_paints {s0 s : State} (hm : s0.mid = []) (hp : PlaneFits s0) (op : WriteOp)
    (v : Nat → Nat → Pixel) {x y r i : Nat} (p : BitVec 18) (hfit : CellFits s0 x y) (hcw : 1 ≤ s0.font.cw.toNat)
    (hr : r < s0.font.ch.toNat) (hi : i ∈ coveredBytes (fontCw s0) x)
    (hv : ∀ col, col < s0.font.cw.toNat → patternPixel (fontCw s0) p col = v (x + col) (y + r))
    {font : List Word} (hs : SameFont s0 font s) :
    Paints s0 op v (glyphPlaneBytes s0 x y)
      (fun qx qy => qx / 4 = i ∧ qy = y + r ∧ x ≤ qx ∧ qx < x + s0.font.cw.toNat) s
      (drawRowByte op (fontCw s0) x (y + r) p s i) := by
  have hm' : s.mid = [] := by rw [hs.1]; exact hm
  have hi' := (mem_coveredBytes hcw).mp hi
  have ea : planeByteAddr s i (y + r) = planeByteAddr s0 i (y + r) := by rw [hs.1]; rfl
  have hx : i < s0.plane.stride.toNat := by
    obtain ⟨col, hc, rfl⟩ := hi'
    have := hfit.1; omega
  have hy : y + r < s0.plane.rows.toNat := by have := hfit.2; omega
  have e : drawRowByte op (fontCw s0) x (y + r) p s i =
      { s with mem :=
          (Memory.write s.mem (planeByteAddr s0 i (y + r)).toNat
            (applyMasked op (Memory.read s.mem (planeByteAddr s0 i (y + r)).toNat)
              (byteMask (fontCw s0) x i) (bytePattern (fontCw s0) x i p))) } := by
    unfold drawRowByte
    simp only [busRead_of_nil hm', busWrite_of_nil hm', ea]
  have pw := fun qx qy (b : Byte) (h1 : qx < 4 * s0.plane.stride.toNat)
    (h2 : qy < s0.plane.rows.toNat) => planePixel_write hp s.mem (i := i) (y := y + r) (qx := qx) (qy := qy) b hx hy h1 h2
  rw [e]
  refine ⟨rfl, ?_, ?_, ?_⟩
  · intro a ha
    refine Memory.read_write_ne _ _ ?_
    intro e
    refine ha (planeByteAddr s0 i (y + r)) ?_ e.symm
    unfold glyphPlaneBytes
    rw [List.mem_flatMap]
    exact ⟨r, List.mem_range.mpr hr, List.mem_map.mpr ⟨i, hi, rfl⟩⟩
  · rintro qx qy h1 h2 ⟨hq, rfl, ha, hb⟩
    refine (pw _ _ _ h1 h2).trans ?_
    rw [if_pos ⟨hq, rfl⟩]
    have hcol : qx - x < s0.font.cw.toNat := by omega
    have hxq : x + (qx - x) = qx := by omega
    have := rowByte_hit op (Memory.read s.mem (planeByteAddr s0 i (y + r)).toNat) (fontCw s0) x i
      (qx - x) p hcol (by rw [hxq]; exact hq)
    rw [hxq, hv _ hcol, hxq] at this
    rw [this]
    unfold planePixel pixAddr
    rw [hq]
  · intro qx qy h1 h2 hk
    refine (pw _ _ _ h1 h2).trans ?_
    by_cases hq : qx / 4 = i ∧ qy = y + r
    · rw [if_pos hq, rowByte_miss _ _ _ _ _ _ _ hq.1]
      · unfold planePixel pixAddr; rw [hq.1, hq.2]
      · intro col hc e
        exact hk ⟨hq.1, hq.2, by omega, by unfold fontCw at hc; omega⟩
    · rw [if_neg hq]

end Sys2Proof.Machine
end

