-- ==== Sys2Proof/Laws/PerInstr.lean ====
section
/-! SUPPORT. Statements made per instruction: every instruction's word lies in its format, reserved bits 0 (spec 30_encoding.md R112, R116) and, for a command, an assigned opcode (R118). -/

namespace Sys2Proof.Laws.EncodeInFormat

/-- The word of a command has RSV = 0 and an assigned opcode (R116, R118); that of a timing word has RSV = 0 (R112). -/
def Statement (i : Instr) : Prop :=
  (i.isCommand = true → cwRsv (encode i) = 0#18 ∧ opcodeRow (cwOpc (encode i)).toNat ≠ none) ∧
  (i.isCommand = false → twRsv (encode i) = 0#13)

theorem init : Statement .init := by unfold Statement; decide
theorem cleanup : Statement .cleanup := by unfold Statement; decide
theorem validate : Statement .validate := by unfold Statement; decide
theorem setMode : Statement .setMode := by unfold Statement; decide
theorem start : Statement .start := by unfold Statement; decide
theorem stop : Statement .stop := by unfold Statement; decide
theorem publish : Statement .publish := by unfold Statement; decide
theorem waitFrame : Statement .waitFrame := by unfold Statement; decide
theorem getWidth : Statement .getWidth := by unfold Statement; decide
theorem getHeight : Statement .getHeight := by unfold Statement; decide
theorem getStride : Statement .getStride := by unfold Statement; decide
theorem setPlane : Statement .setPlane := by unfold Statement; decide
theorem setPixel (op : WriteOp) (v : Pixel) : Statement (.setPixel op v) := by
  unfold Statement; revert v; cases op <;> decide
theorem setFont : Statement .setFont := by unfold Statement; decide
theorem drawGlyph (op : WriteOp) (fg bg : Pixel) : Statement (.drawGlyph op fg bg) := by
  unfold Statement; revert fg bg; cases op <;> decide
theorem drawGlyphBulk (op : WriteOp) (fg bg : Pixel) : Statement (.drawGlyphBulk op fg bg) := by
  unfold Statement; revert fg bg; cases op <;> decide
theorem tw (dur : BitVec 16) (hs vs trig : Bool) : Statement (.tw dur hs vs trig) :=
  ⟨fun h => by simp [Instr.isCommand] at h, fun _ => twRsv_assemble dur hs vs trig⟩

end Sys2Proof.Laws.EncodeInFormat
end

