-- ==== Sys2Proof/Laws/Step.lean ====
section
/-! SUPPORT. Everything one agent's step can do, said once: from `agentStep a s = .next t` follows one of the cases of `StepTo` (spec 00_scope.md R8; 10_state.md R48, R49, R53; 44_phase_engine.md R353, R375). -/

namespace Sys2Proof.Machine

/-- The next states of one agent's step. -/
inductive StepTo (s : State) : Agent → State → Prop where
  /-- The agent's step is not enabled, or the host has nothing to do (R8, R53). -/
  | idle (a : Agent) : StepTo s a s
  /-- A ready host loads a register (R88). -/
  | load (h : Nat) (c : HostCtx) (v : Word) (hc : s.hosts[h]? = some c) (hs : c.status = .ready) :
      StepTo s (.host h) (updHost h (fun c => { c with loaded := v }) (takeAccess h s))
  /-- A host that waits on a port with nothing pending goes on (R53). -/
  | goesOn (h : Nat) (c : HostCtx) (hc : s.hosts[h]? = some c) (hs : c.status = .waiting)
      (hh : (portAt s h).hold = none) : StepTo s (.host h) (settle h s)
  /-- An access that has no meaning (R49), or a command for another port (R52). -/
  | refuse (h : Nat) (c : HostCtx) (hc : s.hosts[h]? = some c) (hs : c.status = .ready) :
      StepTo s (.host h) (refuseAccess h s)
  /-- A store to a register other than CMD (R37, R48, R54). -/
  | store (h : Nat) (c : HostCtx) (r : Reg) (v : Word) (hc : s.hosts[h]? = some c)
      (hs : c.status = .ready) (hr : ∀ p, r ≠ .cmd p) :
      StepTo s (.host h) (regWrite r v (takeAccess h s))
  /-- A command issued on the host's own port (R52, R53). -/
  | issued (h : Nat) (c : HostCtx) (w : Word) (i : Instr) (t : State) (hc : s.hosts[h]? = some c)
      (hs : c.status = .ready) (hh : (portAt s h).hold = none) (hd : decodeCommand w = .ok i)
      (he : exec i { updPort h (fun q => { q with cmd := w }) (takeAccess h s) with port := h } =
        .next t) : StepTo s (.host h) (settle h t)
  /-- An illegal command word issued there (R120). -/
  | issuedIllegal (h : Nat) (c : HostCtx) (w : Word) (hc : s.hosts[h]? = some c)
      (hs : c.status = .ready) (hh : (portAt s h).hold = none) :
      StepTo s (.host h) (settle h (raiseFault .opcode
        { updPort h (fun q => { q with cmd := w }) (takeAccess h s) with port := h }))
  /-- A held command tried once more (R353). -/
  | retried (h : Nat) (c : HostCtx) (i : Instr) (t : State) (hc : s.hosts[h]? = some c)
      (hs : c.status = .waiting) (hd : decodeCommand (portAt s h).cmd = .ok i)
      (he : exec i { s with port := h } = .next t) : StepTo s (.host h) (settle h t)
  /-- A held word that is no command: a case no run reaches (R120). -/
  | retriedIllegal (h : Nat) (c : HostCtx) (hc : s.hosts[h]? = some c) (hs : c.status = .waiting)
      (hd : ∀ i, decodeCommand (portAt s h).cmd ≠ .ok i) :
      StepTo s (.host h) (settle h (raiseFault .opcode { s with port := h }))
  /-- The ENGINE step (R367). -/
  | engine : StepTo s .engine (engineStep s)
  /-- The TCH step (R373). -/
  | tch : StepTo s .tch (tchStep s)
  /-- The PCH step (R377). -/
  | pch : StepTo s .pch (pchStep s)
  /-- The PSER step (R378). -/
  | pser : StepTo s .pser (pserStep s)
  /-- TGEN runs out of words (R211). -/
  | tgenIdle (h : s.tgen.fifo = []) : StepTo s .tgen (tgenIdle s)
  /-- TGEN executes the head word of its FIFO (R375). -/
  | tgenWord (q : QueuedWord) (qs : List QueuedWord) (i : Instr) (t : State)
      (hf : s.tgen.fifo = q :: qs) (hd : decodeTiming q.word = .ok i)
      (he : exec i { s with tgen := { s.tgen with fifo := qs, width := q.width } } = .next t) :
      StepTo s .tgen t
  /-- An agent outside the block stores a byte (R87). -/
  | outside (a : Word) (v : Byte) : StepTo s (.outside a v) (outsideStore a v s)
  /-- The platform reset (R470). -/
  | reset : StepTo s .reset (platformReset s)

theorem storeCommand_cases {s t : State} {h p : Nat} {w : Word} {c : HostCtx}
    (hc : s.hosts[h]? = some c) (hs : c.status = .ready) (hi : storeCommand h p w s = .next t) :
    StepTo s (.host h) t := by
  by_cases hp : p = h
  · subst hp
    cases hh : (portAt s p).hold with
    | none =>
      rw [storeCommand_own hh] at hi
      obtain ⟨u, hu, rfl⟩ := mapNext_eq_next hi
      unfold perform at hu
      split at hu
      · next i hd => exact .issued p c w i u hc hs hh hd hu
      · obtain rfl := Host.Outcome.next.inj hu
        exact .issuedIllegal p c w hc hs hh
    | some k =>
      rw [storeCommand_pending (by simp [hh])] at hi
      obtain rfl := Host.Outcome.next.inj hi
      exact .idle _
  · rw [storeCommand_other hp] at hi
    obtain rfl := Host.Outcome.next.inj hi
    exact .refuse h c hc hs

theorem resume_cases {s t : State} {h : Nat} {c : HostCtx} (hc : s.hosts[h]? = some c)
    (hs : c.status = .waiting) (hr : resume h s = .next t) : StepTo s (.host h) t := by
  have retry : mapNext (settle h) (perform h (portAt s h).cmd s) = .next t →
      StepTo s (.host h) t := by
    intro hm
    obtain ⟨u, hu, rfl⟩ := mapNext_eq_next hm
    unfold perform at hu
    split at hu
    · next i hd => exact .retried h c i u hc hs hd hu
    · next e he =>
      obtain rfl := Host.Outcome.next.inj hu
      exact .retriedIllegal h c hc hs (fun i hi => by rw [hi] at he; cases he)
  unfold resume at hr
  split at hr
  · next hh =>
    obtain rfl := Host.Outcome.next.inj hr
    exact .goesOn h c hc hs hh
  · obtain rfl := Host.Outcome.next.inj hr
    exact .idle _
  all_goals exact retry hr

theorem access_cases {s t : State} {h : Nat} {c : HostCtx} {a : Access}
    (hc : s.hosts[h]? = some c) (hs : c.status = .ready) (ha : access h a s = .next t) :
    StepTo s (.host h) t := by
  cases a with
  | load off width =>
    simp only [access] at ha
    split at ha
    · obtain rfl := Host.Outcome.next.inj ha
      exact .load h c _ hc hs
    · obtain rfl := Host.Outcome.next.inj ha
      exact .refuse h c hc hs
  | store off width v =>
    simp only [access] at ha
    split at ha
    · split at ha
      · exact storeCommand_cases hc hs ha
      · next hne =>
        obtain rfl := Host.Outcome.next.inj ha
        exact .store h c _ v hc hs hne
    · obtain rfl := Host.Outcome.next.inj ha
      exact .refuse h c hc hs

/-- Everything one agent's step can do when it answers a next state. -/
theorem agentStep_cases {a : Agent} {s t : State} (h : agentStep a s = .next t) : StepTo s a t := by
  cases a with
  | host n =>
    simp only [agentStep, hostTurn] at h
    split at h
    · obtain rfl := Host.Outcome.next.inj h
      exact .idle _
    · next c hc =>
      split at h
      · obtain rfl := Host.Outcome.next.inj h
        exact .idle _
      · next hs => exact resume_cases hc hs h
      · next hs =>
        split at h
        · obtain rfl := Host.Outcome.next.inj h
          exact .idle _
        · exact access_cases hc hs h
  | engine => obtain rfl := Host.Outcome.next.inj h; exact .engine
  | tch => obtain rfl := Host.Outcome.next.inj h; exact .tch
  | tgen =>
    simp only [agentStep, tgenTurn] at h
    split at h
    · next hf => obtain rfl := Host.Outcome.next.inj h; exact .tgenIdle hf
    · next w ws hf =>
      unfold executeWord at h
      split at h
      · next i hd => exact .tgenWord w ws i t hf hd h
      · cases h
  | pch => obtain rfl := Host.Outcome.next.inj h; exact .pch
  | pser => obtain rfl := Host.Outcome.next.inj h; exact .pser
  | outside w v => obtain rfl := Host.Outcome.next.inj h; exact .outside w v
  | reset => obtain rfl := Host.Outcome.next.inj h; exact .reset

end Sys2Proof.Machine
end

