-- ==== Sys2Proof/Tests/Slice0.lean ====
section
/-! SUPPORT. The model's own tests. Expected results come from spec/95_test_vectors.md (the vector's name stands beside each) or from the table of the rule cited; the witnesses at the end show, for each statement with hypotheses, a concrete state and operands that meet them. -/

open Sys2Proof Sys2Proof.Machine

namespace Sys2Proof.Tests

/-! ### WellFormed -/

/-- R114 (a): the one ill-formed term the syntax can write. -/
theorem test_wellFormed_refuses_dur_zero : (Instr.tw 0#16 true false false).wellFormed = false := by
  decide
theorem test_wellFormed_accepts_dur_one : (Instr.tw 1#16 true true true).wellFormed = true := by
  decide

/-! ### Decoding, one word for every constructor (R112, R116, R118; E7 to E11, R123, R115) -/

theorem test_decode_init : decodeCommand 0x00000001#32 = .ok .init := by decide
theorem test_decode_cleanup : decodeCommand 0x00000002#32 = .ok .cleanup := by decide
theorem test_decode_validate : decodeCommand 0x00000003#32 = .ok .validate := by decide
theorem test_decode_setMode : decodeCommand 0x00000004#32 = .ok .setMode := by decide
theorem test_decode_start : decodeCommand 0x00000005#32 = .ok .start := by decide
theorem test_decode_stop : decodeCommand 0x00000006#32 = .ok .stop := by decide
theorem test_decode_publish : decodeCommand 0x00000007#32 = .ok .publish := by decide
theorem test_decode_waitFrame : decodeCommand 0x00000008#32 = .ok .waitFrame := by decide
theorem test_decode_getWidth : decodeCommand 0x00000009#32 = .ok .getWidth := by decide
theorem test_decode_getHeight : decodeCommand 0x0000000A#32 = .ok .getHeight := by decide
theorem test_decode_getStride : decodeCommand 0x0000000B#32 = .ok .getStride := by decide
theorem test_decode_setPlane : decodeCommand 0x00000010#32 = .ok .setPlane := by decide
theorem test_decode_setPixel : decodeCommand 0x00000C11#32 = .ok (.setPixel .set 3#2) := by decide
theorem test_decode_setFont : decodeCommand 0x00000018#32 = .ok .setFont := by decide
theorem test_decode_drawGlyph :
    decodeCommand 0x00002619#32 = .ok (.drawGlyph .and 1#2 2#2) := by decide
theorem test_decode_drawGlyphBulk :
    decodeCommand 0x0000181A#32 = .ok (.drawGlyphBulk .set 2#2 1#2) := by decide
/-- E1, E2, E3, E4. -/
theorem test_decode_tw :
    decodeTiming 0x000100AC#32 = .ok (.tw 172#16 true false false) ∧
    decodeTiming 0x00040168#32 = .ok (.tw 360#16 false false true) ∧
    decodeTiming 0x000202F1#32 = .ok (.tw 753#16 false true false) ∧
    decodeTiming 0x00070001#32 = .ok (.tw 1#16 true true true) := by decide

/-- E12 to E18: each refusal under its own name. -/
theorem test_decode_illegal_commands :
    decodeCommand 0x00000000#32 = .error .unassignedOpcode ∧
    decodeCommand 0x0000000C#32 = .error .unassignedOpcode ∧
    decodeCommand 0x00000311#32 = .error .reservedOperator ∧
    decodeCommand 0x00000101#32 = .error .unusedField ∧
    decodeCommand 0x00001011#32 = .error .unusedField ∧
    decodeCommand 0x00004003#32 = .error .reservedBits ∧
    decodeCommand 0x000000FF#32 = .error .unassignedOpcode := by decide

/-- E5, E6. -/
theorem test_decode_illegal_timing :
    twLegal 0x00010000#32 = false ∧ twLegal 0x00080005#32 = false ∧
    decodeTiming 0x00080005#32 = .error .reservedBits ∧ twLegal 0x000100AC#32 = true := by decide

/-- The table's numbering (opcode_table.json): a CW row and the TW row. -/
theorem test_decodeTableWord :
    decodeTableWord 32 0x00000008 = some .waitFrame ∧
    decodeTableWord 32 0x000100AC = some (.tw 172#16 true false false) ∧
    decodeTableWord 32 0x00080005 = none := by decide

/-! ### Small states -/

/-- What f reads from the next state, where there is one. -/
def after {α : Type} (f : State → α) : Host.Outcome State Fault Refusal → Option α
  | .next s => some (f s)
  | .fault _ => none
  | .refused _ => none

/-- The ARG registers of port 0. -/
def withArgs (a b c : Nat) (s : State) : State :=
  updPort 0 (fun q => { q with
    arg0 := BitVec.ofNat 32 a, arg1 := BitVec.ofNat 32 b, arg2 := BitVec.ofNat 32 c }) s

/-- A descriptor in STAGE order (R37). -/
def desc (a b c d e f g h : Nat) : ModeDesc :=
  { hVis := BitVec.ofNat 32 a, vVis := BitVec.ofNat 32 b, tLine := BitVec.ofNat 32 c
    nLines := BitVec.ofNat 32 d, nVsync := BitVec.ofNat 32 e, lStart := BitVec.ofNat 32 f
    tHsync := BitVec.ofNat 32 g, tVis := BitVec.ofNat 32 h }

def v1 : ModeDesc := desc 720 350 44400 375 3 22 8256 34560
def v2 : ModeDesc := desc 16 1 20 4 1 2 10 16
def v3 : ModeDesc := desc 16 1 20 4 1 2 19 16
def v4 : ModeDesc := desc 16 1 20 4 1 2 3 16
def v5 : ModeDesc := desc 16 2 40 6 1 2 5 32
def v6 : ModeDesc := desc 16 1 20 4 1 2 4 16
def v7 : ModeDesc := desc 16 2 40 6 1 2 9 32

/-- Reset with a staged descriptor. -/
def staged (m : ModeDesc) : State := { State.reset with stage := m }

/-- K1's start: the V2 mode, IDLE, LIVE_HANDLE = 0x1000. -/
def idleState : State :=
  { applyMode (staged v2) with engine := .idle, liveHandle := 0x1000#32 }

/-- K1 after step 1. -/
def runningState : State := vsyncEntry { idleState with engine := .running }

/-- TGEN with these words in its FIFO, of a frame 16 pixels wide. -/
def queue (ws : List Word) : Tgen :=
  { fifo := ws.map (fun w => { word := w, width := 16 }), cur := none, left := 0, width := 0 }

/-- A state with turns to come. -/
def withTurns (l : List Agent) (s : State) : State := { s with sched := l.map plainTurn }

/-- Host h about to make an access. -/
def hostAbout (h : Nat) (a : Access) (s : State) : State :=
  { s with
    hosts := s.hosts.set h { status := .ready, program := [a], loaded := 7#32 }
    sched := [plainTurn (.host h)] }

/-- Host 0 about to make an access. -/
def about (a : Access) (s : State) : State := hostAbout 0 a s

/-- The plane of A1 to A6. -/
def planeState : State :=
  { State.reset with
    plane := { base := 0x20000000#32, stride := 180#32, rows := 350#32 }, planeValid := true }

/-- With it a font at 0x10000000, and the memory given. -/
def glyphState (cw ch : Nat) (mem : List Host.Cell) : State :=
  { planeState with
    font := { base := 0x10000000#32, cw := BitVec.ofNat 32 cw, ch := BitVec.ofNat 32 ch }
    fontValid := true
    mem := mem }

/-- The first four bytes of the first n plane rows, all 0xFF. -/
def onesPlane (n : Nat) : List Host.Cell :=
  (List.range n).flatMap (fun r => (List.range 4).map (fun i => (0x20000000 + 180 * r + i, 0xFF#8)))

/-- The first four bytes of plane row r. -/
def rowBytes (r : Nat) (s : State) : List Byte :=
  (List.range 4).map (fun i => Memory.read s.mem (0x20000000 + 180 * r + i))

/-! ### The commands, at most two tests each -/

/-- Program 3, command 3; F10. -/
theorem test_init : after (fun t => (t.engine, t.fault)) (exec .init { State.reset with resOk := true })
    = some (.idle, .none) := by decide
theorem test_init_no_resources :
    after (fun t => (t.engine, t.fault)) (exec .init State.reset) = some (.uninit, .resource) := by decide

/-- F14, F6. -/
theorem test_cleanup : after (fun t => (t.engine, t.fault)) (exec .cleanup idleState)
    = some (.uninit, .none) := by decide
theorem test_cleanup_running : after (fun t => (t.engine, t.fault)) (exec .cleanup runningState)
    = some (.running, .state) := by decide

/-- V1, V6. -/
theorem test_validate : after (fun t => (portAt t 0).result) (exec .validate (staged v1)) = some 1#32 := by
  decide
theorem test_validate_inv5 :
    after (fun t => (portAt t 0).result) (exec .validate (staged v6)) = some 0#32 := by decide

/-- V8 to V14 and V16 to V21: what VALIDATE and SET_MODE answer. -/
theorem test_validate_table :
    [desc 16 1 20 3 1 2 10 16, desc 720 350 44400 374 3 22 8256 34560, desc 0 1 20 4 1 2 10 16,
     desc 24 1 30 4 1 2 3 24, desc 720 350 44400 375 3 22 8256 34561,
     desc 720 350 44401 375 3 22 8256 34560, desc 16 1 20 4 1 1 10 16, desc 16 1 16 4 1 2 3 16,
     desc 16 1 20 4 1 2 0 16, desc 16 1 20 4 1 2 20 16, desc 16 1 70000 4 1 2 10 16,
     desc 16 1 20 4 0 1 10 16, desc 16 0 20 4 1 2 10 16, ModeDesc.zero, v7].map
        (fun m => (validate m, accepted m)) =
    [(false, false), (false, false), (false, false), (false, false), (false, false), (false, false),
     (true, false), (true, false), (true, false), (true, false), (true, false), (true, false),
     (true, false), (false, false), (true, false)] := by decide

/-- V1 to V5: the compiled programs. -/
theorem test_compile_vis :
    [v1, v2, v3, v4, v5].map (fun m => (compileVis m).toList) =
    [[0x000100AC#32, 0x00000021#32, 0x00040168#32, 0x00000168#32],
     [0x00010004#32, 0x00050006#32, 0x00000005#32, 0x00000005#32],
     [0x00010004#32, 0x00050007#32, 0x00010008#32, 0x00000001#32],
     [0x00010003#32, 0x00000001#32, 0x00040008#32, 0x00000008#32],
     [0x00010002#32, 0x00000002#32, 0x00040008#32, 0x00000008#32]] := by decide
theorem test_compile_blank_vsync :
    [v1, v2, v3, v4, v5].map (fun m => (compileBlank m).toList ++ (compileVsync m).toList) =
    [[0x000100AC#32, 0x000002F1#32, 0x000300AC#32, 0x000202F1#32],
     [0x0001000A#32, 0x0000000A#32, 0x0003000A#32, 0x0002000A#32],
     [0x00010013#32, 0x00000001#32, 0x00030013#32, 0x00020001#32],
     [0x00010003#32, 0x00000011#32, 0x00030003#32, 0x00020011#32],
     [0x00010002#32, 0x00000012#32, 0x00030002#32, 0x00020012#32]] := by decide

/-- Program 1, command 3 (V1); program 5, command 2. -/
theorem test_setMode :
    after (fun t => ((portAt t 0).result, t.modeValid, t.count.toList, t.pixwords)) (exec .setMode (staged v1))
      = some (1#32, true, [3#32, 19#32, 350#32, 3#32], 15750#32) := by decide
theorem test_setMode_running :
    after (fun t => ((portAt t 0).result, t.mode)) (exec .setMode { runningState with stage := v1 })
      = some (0#32, v2) := by decide

/-- K1 step 1; F4. -/
theorem test_start :
    after (fun t => (t.engine, t.phase, t.frameHandle, t.pch, t.tch)) (exec .start idleState) =
      some (.running, .vsync, 0x1000#32, { addr := 0x1000#32, rem := 1, past := false },
        { prog := .vsync, idx := 0, rem := 2, done := false }) := by decide
theorem test_start_no_mode :
    after (fun t => (t.engine, t.fault)) (exec .start { State.reset with engine := .idle })
      = some (.idle, .noMode) := by decide

/-- K3; F5. -/
theorem test_stop : after (fun t => (t.engine, t.fault)) (exec .stop runningState)
    = some (.stopping, .none) := by decide
theorem test_stop_uninit : after (fun t => (t.engine, t.fault)) (exec .stop State.reset)
    = some (.uninit, .state) := by decide

/-- Program 1, command 6; F9. -/
theorem test_publish :
    after (fun t => (t.liveHandle, t.fault)) (exec .publish (withArgs 0x20000000 0 0 State.reset))
      = some (0x20000000#32, .none) := by decide
theorem test_publish_unaligned :
    after (fun t => (t.liveHandle, t.fault)) (exec .publish (withArgs 0x20000002 0 0 idleState))
      = some (0x1000#32, .arg) := by decide

/-- H2's stale token; H6. -/
theorem test_waitFrame :
    after (fun t => (t.token, (portAt t 0).hold)) (exec .waitFrame { idleState with token := true })
      = some (false, none) := by decide
theorem test_waitFrame_holds :
    after (fun t => (t.token, (portAt t 0).hold)) (exec .waitFrame idleState)
      = some (false, some .frameToken) := by decide

/-- The geometry of V1 (STRIDE 180); F7. -/
theorem test_getWidth :
    after (fun t => (portAt t 0).result) (exec .getWidth (applyMode (staged v1))) = some 720#32 := by decide
theorem test_getHeight :
    after (fun t => (portAt t 0).result) (exec .getHeight (applyMode (staged v1))) = some 350#32 := by decide
theorem test_getStride :
    after (fun t => (portAt t 0).result) (exec .getStride (applyMode (staged v1))) = some 180#32 := by decide
theorem test_getWidth_no_mode :
    after (fun t => (t.fault, (portAt t 0).result)) (exec .getWidth State.reset) = some (.noMode, 0#32) := by
  decide

/-- D4, D5. -/
theorem test_setPlane :
    after (fun t => (t.planeValid, t.plane.base, t.fault))
      (exec .setPlane (withArgs 0xFFFFFF00 1 0x100 State.reset)) = some (true, 0xFFFFFF00#32, .none) := by
  decide
theorem test_setPlane_wraps :
    after (fun t => (t.planeValid, t.fault)) (exec .setPlane (withArgs 0xFFFFFF00 1 0x101 State.reset))
      = some (false, .arg) := by decide

/-- A3 with P10's byte; A4. -/
theorem test_setPixel :
    after (fun t => Memory.read t.mem 0x2000F617)
      (exec (.setPixel .xor 2#2)
        (withArgs 719 349 0 { planeState with mem := [(0x2000F617, 0x55#8)] })) = some 0x57#8 := by decide
theorem test_setPixel_bounds :
    after (fun t => (t.fault, t.mem)) (exec (.setPixel .set 3#2) (withArgs 720 0 0 planeState))
      = some (.bounds, []) := by decide

/-- P1 to P12: the byte, x mod 4, the value, the operator; the byte after. -/
theorem test_operators :
    [applyOp .set 0x00#8 (pixShift 0) 3#2, applyOp .set 0xFF#8 (pixShift 1) 0#2,
     applyOp .set 0x1B#8 (pixShift 2) 2#2, applyOp .set 0xE4#8 (pixShift 3) 1#2,
     applyOp .xor 0xE4#8 (pixShift 0) 3#2, applyOp .xor 0xE4#8 (pixShift 3) 3#2,
     applyOp .and 0xE4#8 (pixShift 0) 1#2, applyOp .and 0xE4#8 (pixShift 1) 2#2,
     applyOp .and 0xFF#8 (pixShift 2) 0#2, applyOp .xor 0x55#8 (pixShift 3) 2#2,
     applyOp .and 0xE4#8 (pixShift 2) 3#2, applyOp .xor 0xE4#8 (pixShift 1) 0#2] =
    [0xC0#8, 0xCF#8, 0x1B#8, 0xE5#8, 0x24#8, 0xE7#8, 0x64#8, 0xE4#8, 0xF3#8, 0x57#8, 0xE4#8, 0xE4#8] := by
  decide

/-- D10, D11. -/
theorem test_setFont :
    after (fun t => (t.fontValid, t.font.base, t.fault))
      (exec .setFont (withArgs 0xFFFFF040 9 14 State.reset)) = some (true, 0xFFFFF040#32, .none) := by
  decide
theorem test_setFont_wraps :
    after (fun t => (t.fontValid, t.fault)) (exec .setFont (withArgs 0xFFFFF041 9 14 State.reset))
      = some (false, .arg) := by decide

/-- G3 and G4, on the per-pixel path. -/
theorem test_drawGlyph_nine_wide :
    after (rowBytes 0) (exec (.drawGlyph .set 3#2 0#2)
      (withArgs 0 0 0x41 (glyphState 9 14 [(0x100003F1, 0x0C#8)]))) = some [0x03#8, 0xC0#8, 0x00#8, 0x00#8] := by
  decide +kernel
theorem test_drawGlyph_unaligned :
    after (fun t => (rowBytes 0 t, rowBytes 7 t)) (exec (.drawGlyph .set 0#2 2#2)
      (withArgs 2 0 0x41 (glyphState 8 8 ((0x10000201, 0x81#8) :: onesPlane 8)))) =
      some ([0xF2#8, 0xAA#8, 0x8F#8, 0xFF#8], [0xFA#8, 0xAA#8, 0xAF#8, 0xFF#8]) := by decide +kernel

/-- G2 and G7, on the bulk path. -/
theorem test_drawGlyphBulk_background :
    after (fun t => (rowBytes 0 t, rowBytes 7 t)) (exec (.drawGlyphBulk .set 2#2 1#2)
      (withArgs 0 0 0x41 (glyphState 8 8 [(0x10000201, 0x18#8)]))) =
      some ([0x56#8, 0x95#8, 0x00#8, 0x00#8], [0x55#8, 0x55#8, 0x00#8, 0x00#8]) := by decide +kernel
theorem test_drawGlyphBulk_last_column :
    after (rowBytes 0) (exec (.drawGlyphBulk .set 3#2 0#2)
      (withArgs 0 0 0x1F (glyphState 9 8 [(0x100000A0, 0x01#8), (0x100000A1, 0xFF#8)]))) =
      some [0xFF#8, 0xFF#8, 0xC0#8, 0x00#8] := by decide +kernel

/-- Program 3's line 2: TW 6, HS, TRIG. -/
theorem test_tw :
    after (fun t => (t.hsync, t.vsync, t.tgen.left, t.history, t.executed))
      (exec (.tw 6#16 true false true) idleState) =
      some (true, false, 6, [.trigger], [0x00050006#32]) := by decide
/-- E5: DUR = 0 stops the model (I1). -/
theorem test_tw_dur_zero :
    exec (.tw 0#16 true false false) idleState = .fault (.illegalTimingWord 0x00010000#32) := rfl

/-! ### Steps -/

/-- Program 2's end state word, 0x000000DE: RUNNING, PHASE 3, MODE, PLANE and FONT valid. -/
theorem test_status :
    statusWord { State.reset with engine := .running, phase := .postVisibleBlank, modeValid := true, planeValid := true, fontValid := true }
      = 0x000000DE#32 := by decide

/-- F1: an unassigned opcode stored to CMD. -/
theorem test_step_illegal_command :
    after (fun t => (t.fault, (portAt t 0).cmd, (portAt t 0).hold)) (step (about (.store 0x100#9 4 0#32) State.reset))
      = some (.opcode, 0#32, none) := by decide

/-- R49: a byte load leaves the refusal mark and the host is stuck. -/
theorem test_step_byte_load :
    after (fun t => (t.refusalMark, (t.hosts[0]?).map HostCtx.status))
      (step (about (.load 0x000#9 1) State.reset)) = some (true, some .refused) := by decide

/-- withFetchWord: the very next step runs the word, a command or a timing word. -/
theorem test_withFetchWord :
    after (fun t => (t.engine, (portAt t 0).cmd)) (step (State.reset.withFetchWord 32 0x00000001))
      = some (.idle, 1#32) ∧
    after (fun t => (t.hsync, t.tgen.left)) (step (State.reset.withFetchWord 32 0x000100AC))
      = some (true, 172) := by decide

/-- K1 steps 2 and 3: TCH moves the two VSYNC words and raises completion. -/
theorem test_tch :
    after (fun t => (t.tgen.fifo, t.tch.rem, t.tch.done)) (step (withTurns [.tch] runningState))
      = some ([{ word := 0x0003000A#32, width := 16 }], 1, false) := by decide

/-- K1 step 12: the token and FRAME_CB. -/
theorem test_engine_release :
    after (fun t => (t.phase, t.token, t.history, t.tch))
      (step (withTurns [.engine] { runningState with
        phase := .visible, tch := { prog := .vis, idx := 0, rem := 0, done := true } })) =
      some (.postVisibleBlank, true, [.frameCb], { prog := .blank, idx := 0, rem := 2, done := false }) := by
  decide

/-- K3 step 15: the park. -/
theorem test_engine_park :
    after (fun t => (t.engine, t.phase, t.tch.prog, t.frameHandle, t.pch.rem))
      (step (withTurns [.engine] { runningState with
        engine := .stopping, phase := .postVisibleBlank, pch := { addr := 0x1004#32, rem := 0, past := false }
        tch := { prog := .blank, idx := 0, rem := 0, done := true } })) =
      some (.idle, .vsync, .none, 0x1000#32, 0) := by decide

/-- Program 3: PCH reads the framebuffer word, PSER shifts its pixels MSB pair first. -/
theorem test_pch :
    after (fun t => (t.pser.fifo, t.pch)) (step (withTurns [.pch] { runningState with
      mem := [(0x1000, 0x1B#8), (0x1001, 0xE4#8), (0x1003, 0xFF#8)] })) =
      some ([{ b0 := 0x1B#8, b1 := 0xE4#8, b2 := 0x00#8, b3 := 0xFF#8 }], { addr := 0x1004#32, rem := 0, past := false }) := by
  decide
theorem test_pser :
    after (fun t => t.shifted) (step (withTurns [.pser] { runningState with
      pser := { fifo := [{ b0 := 0x1B#8, b1 := 0xE4#8, b2 := 0x00#8, b3 := 0xFF#8 }], left := 16, line := 0,
                row := [], triggers := [], nextLine := 1 } })) =
      some [{ line := 0, pixels := [0, 1, 2, 3, 3, 2, 1, 0, 0, 0, 0, 0, 3, 3, 3, 3] }] := by decide

/-- R376: the word at 0xFFFFFFFC is the last; with one more to read, PCH stops. -/
theorem test_pch_stops_at_the_top :
    after (fun t => t.pch) (step (withTurns [.pch] { runningState with
      pch := { addr := 0xFFFFFFFC#32, rem := 2, past := false } })) =
      some { addr := 0#32, rem := 1, past := true } ∧
    after (fun t => (t.pch.rem, t.pser.fifo)) (step (withTurns [.pch] { runningState with
      pch := { addr := 0#32, rem := 1, past := true } })) = some (1, []) := by decide

/-- R378: a word of the V2 mode still in TGEN's FIFO begins a line of 16 pixels after SET_MODE has made the mode V1's 720. -/
theorem test_line_keeps_its_width :
    after (fun t => t.pser.triggers) (step (withTurns [.tgen]
      { applyMode (staged v1) with tgen := queue [0x00050006#32] })) =
      some [{ line := 0, width := 16 }] := by decide

/-- R52: host 0 stores a command to CMD of port 1. -/
theorem test_step_other_port :
    after (fun t => (t.refusalMark, t.engine, (portAt t 1).cmd))
      (step (about (.store 0x120#9 4 1#32) { State.reset with resOk := true })) =
      some (true, .uninit, 0#32) := by decide

/-- R56 with HS_POL and PIX_POL inverting; R258 and R483 with TRIG_LAT = 2: the V2 mode has B_CLK = 4, so its first pixel stands on clock 6 and its last on clock 21. -/
theorem test_outputs :
    let s := { applyMode (staged v2) with
      plat := { Platform.atReset with hsPol := true, pixPol := true, trigLat := 2, unrealisable := [1] } }
    hsyncPin s = true ∧ vsyncPin s = false ∧ pixPins s = 3#2 ∧ pixelClockNs s = none ∧
    [5, 6, 21, 22].map (pixOnClock s (List.replicate 16 2#2)) = [0#2, 2#2, 2#2, 0#2] := by decide

/-! ### Witnesses: the hypotheses of each statement are met

Each theorem is named after its statement; where the statement has several clauses there is a witness for each, at a boundary of its range. -/

/-- The turn the witnesses below take, and the turns after it: none. -/
abbrev turn (a : Agent) : Turn := plainTurn a

theorem witness_DecodeOfEncode :
    (Instr.tw 65535#16 true true true).wellFormed = true ∧ (Instr.tw 1#16 false false false).wellFormed = true ∧
    (Instr.drawGlyphBulk .and 3#2 3#2).wellFormed = true ∧ Instr.init.wellFormed = true := by decide

theorem witness_EncodeOfDecode :
    decodeCommand 0x00003E1A#32 = .ok (.drawGlyphBulk .and 3#2 3#2) ∧
    decodeTiming 0x0007FFFF#32 = .ok (.tw 65535#16 true true true) := by decide

/-- Every access the witnesses below name is one `hostAbout` brings. -/
theorem accessOf_hostAbout {h : Nat} {s : State} (hh : h < s.hosts.length) (a : Access) :
    AccessOf (hostAbout h a s) (turn (.host h)) [] h a :=
  .intro ⟨rfl, rfl⟩ ⟨{ status := .ready, program := [a], loaded := 7#32 },
    by simp [hostAbout, hh], rfl, rfl⟩

/-- (a) an unassigned opcode, (b) RSV, (c) an unused field, for a bare command and for SET_PIXEL, (d) OP = 3; and a legal word. Host 7 about to store the first to its port, the last one. -/
theorem witness_IllegalCommandWordsFault :
    (IllegalCommandWord 0x0000000C#32 ∧ IllegalCommandWord 0x00004003#32 ∧
      IllegalCommandWord 0x00000101#32 ∧ IllegalCommandWord 0x00001011#32 ∧
      IllegalCommandWord 0x00000311#32 ∧ ¬ IllegalCommandWord 0x00003E1A#32) ∧
    (let s := hostAbout 7 (.store 0x1E0#9 4 0x0000000C#32) State.reset
     AccessOf s (turn (.host 7)) [] 7 (.store 0x1E0#9 4 0x0000000C#32) ∧ 7 < s.ports.length ∧
     (0x1E0#9).toNat = 0x100 + 0x20 * 7 ∧ (portAt s 7).hold = none) := by
  refine ⟨⟨?_, ?_, ?_, ?_, ?_, ?_⟩, accessOf_hostAbout (by decide) _, by decide, rfl, rfl⟩ <;>
    unfold IllegalCommandWord <;> decide

/-- Host 7 about to store INIT to CMD of its port, the last one; the same with a command pending there; host 0 about to store it to that port. -/
theorem witness_StepRunsStoredCommand :
    (let s := hostAbout 7 (.store 0x1E0#9 4 1#32) State.reset
     AccessOf s (turn (.host 7)) [] 7 (.store 0x1E0#9 4 1#32) ∧ 7 < s.ports.length ∧
     (0x1E0#9).toNat = 0x100 + 0x20 * 7 ∧ (portAt s 7).hold = none ∧ decodeCommand 1#32 = .ok .init) ∧
    (let s := updPort 7 (fun q => { q with hold := some .frameToken })
       (hostAbout 7 (.store 0x1E0#9 4 1#32) State.reset)
     AccessOf s (turn (.host 7)) [] 7 (.store 0x1E0#9 4 1#32) ∧ 7 < s.ports.length ∧
     (portAt s 7).hold ≠ none) ∧
    (let s := hostAbout 0 (.store 0x1E0#9 4 1#32) State.reset
     AccessOf s (turn (.host 0)) [] 0 (.store 0x1E0#9 4 1#32) ∧ 7 < s.ports.length ∧ 7 ≠ 0) := by
  refine ⟨⟨accessOf_hostAbout (by decide) _, by decide, rfl, rfl, by decide⟩,
    ⟨?_, by decide, by decide⟩, accessOf_hostAbout (by decide) _, by decide, by decide⟩
  exact accessOf_hostAbout (by decide) _

/-- A word at the head of TGEN's FIFO; the FIFO empty. -/
theorem witness_StepRunsTimingWord :
    (let s := { withTurns [.tgen] idleState with tgen := queue [0x000100AC#32] }
     TurnOf s (turn .tgen) [] .tgen ∧ s.tgen.fifo = [{ word := 0x000100AC#32, width := 16 }] ∧
     decodeTiming 0x000100AC#32 = .ok (.tw 172#16 true false false)) ∧
    (let s := { withTurns [.tgen] idleState with tgen := queue [], hsync := true }
     TurnOf s (turn .tgen) [] .tgen ∧ s.tgen.fifo = []) :=
  ⟨⟨⟨rfl, rfl⟩, rfl, by decide⟩, ⟨rfl, rfl⟩, rfl⟩

/-- Host 0 held on its port in a WAIT_FRAME, or in a SET_PIXEL whose byte is not admitted. -/
def heldState (h : Hold) (w : Word) : State :=
  { updPort 0 (fun q => { q with cmd := w, hold := some h }) idleState with
    hosts := [{ status := .waiting, program := [], loaded := 0 }], sched := [plainTurn (.host 0)] }

theorem witness_StepRetriesHeldCommand :
    (let s := heldState .frameToken 8#32
     TurnOf s (turn (.host 0)) [] (.host 0) ∧
     (∃ c, s.hosts[0]? = some c ∧ c.status = .waiting) ∧ (portAt s 0).hold = some .frameToken ∧
     decodeCommand (portAt s 0).cmd = .ok .waitFrame) ∧
    (let s := heldState .memory 0x00000C11#32
     TurnOf s (turn (.host 0)) [] (.host 0) ∧
     (∃ c, s.hosts[0]? = some c ∧ c.status = .waiting) ∧ (portAt s 0).hold = some .memory ∧
     decodeCommand (portAt s 0).cmd = .ok (.setPixel .set 3#2)) :=
  ⟨⟨⟨rfl, rfl⟩, ⟨_, rfl, rfl⟩, rfl, by decide⟩, ⟨rfl, rfl⟩, ⟨_, rfl, rfl⟩, rfl, by decide⟩

theorem accessOf_about (a : Access) : AccessOf (about a State.reset) (turn (.host 0)) [] 0 a :=
  accessOf_hostAbout (by decide) a

/-- STAGE[0] and STAGE[7]; the ARGs of ports 0 and 7. -/
theorem witness_StageAndArgStores :
    (AccessOf (about (.store 0x040#9 4 5#32) State.reset) (turn (.host 0)) [] 0 (.store 0x040#9 4 5#32) ∧
      (0x040#9).toNat = 0x040 + 4 * 0) ∧
    (AccessOf (about (.store 0x05C#9 4 5#32) State.reset) (turn (.host 0)) [] 0 (.store 0x05C#9 4 5#32) ∧
      (0x05C#9).toNat = 0x040 + 4 * 7) ∧
    (AccessOf (about (.store 0x104#9 4 5#32) State.reset) (turn (.host 0)) [] 0 (.store 0x104#9 4 5#32) ∧
      (0x104#9).toNat = 0x104 + 0x20 * 0) ∧
    (0x1E8#9).toNat = 0x108 + 0x20 * 7 ∧ (0x1EC#9).toNat = 0x10C + 0x20 * 7 ∧ 7 < State.reset.ports.length :=
  ⟨⟨accessOf_about _, rfl⟩, ⟨accessOf_about _, rfl⟩, ⟨accessOf_about _, rfl⟩, rfl, rfl, by decide⟩

/-- The reserved offsets at the ends of each range, and stores at the ends of the read-only ones, with their writable neighbours. -/
theorem witness_ReservedAndReadOnlyAccesses :
    AccessOf (about (.load 0x01C#9 4) State.reset) (turn (.host 0)) [] 0 (.load 0x01C#9 4) ∧
    AccessOf (about (.store 0x060#9 4 5#32) State.reset) (turn (.host 0)) [] 0 (.store 0x060#9 4 5#32) ∧
    ReservedOffset 8 0x01C#9 ∧ ReservedOffset 8 0x02C#9 ∧ ReservedOffset 8 0x03C#9 ∧
    ReservedOffset 8 0x0B0#9 ∧ ReservedOffset 8 0x0FC#9 ∧ ReservedOffset 8 0x114#9 ∧
    ReservedOffset 8 0x1FC#9 ∧ ReservedOffset 7 0x1E0#9 ∧ ¬ ReservedOffset 8 0x1E0#9 ∧
    ¬ WritableOffset 8 0x03C#9 ∧ WritableOffset 8 0x040#9 ∧ WritableOffset 8 0x05C#9 ∧
    ¬ WritableOffset 8 0x060#9 ∧ ¬ WritableOffset 8 0x0FC#9 ∧ WritableOffset 8 0x100#9 ∧
    WritableOffset 8 0x1EC#9 ∧ ¬ WritableOffset 8 0x1F0#9 ∧ ¬ WritableOffset 7 0x1E0#9 := by
  refine ⟨accessOf_about _, accessOf_about _, ?_, ?_, ?_, ?_, ?_, ?_, ?_, ?_, ?_, ?_⟩
  any_goals (unfold ReservedOffset; decide)
  unfold WritableOffset
  decide

/-- The first and the last register of each range, a reserved offset, and the ports at its ends. -/
theorem witness_LoadsHaveNoSideEffect :
    (∀ off : RegOffset, AccessOf (about (.load off 4) State.reset) (turn (.host 0)) [] 0 (.load off 4)) ∧
    ([0x000#9, 0x028#9, 0x02C#9, 0x05C#9, 0x07C#9, 0x08C#9, 0x094#9, 0x09C#9, 0x0AC#9, 0x110#9,
      0x1F0#9] : List RegOffset).all (fun off => off.toNat % 4 == 0) = true ∧
    (0x05C#9).toNat = 0x040 + 4 * 7 ∧ (0x07C#9).toNat = 0x060 + 4 * 7 ∧
    (0x08C#9).toNat = 0x080 + 4 * 3 ∧ (0x094#9).toNat = 0x090 + 4 * 1 ∧
    (0x09C#9).toNat = 0x098 + 4 * 1 ∧ (0x0AC#9).toNat = 0x0A0 + 4 * 3 ∧
    (0x110#9).toNat = 0x110 + 0x20 * 0 ∧ (0x1F0#9).toNat = 0x110 + 0x20 * 7 ∧
    ∃ q, State.reset.ports[7]? = some q :=
  ⟨fun _ => accessOf_about _, by decide, rfl, rfl, rfl, rfl, rfl, rfl, rfl, rfl, _, rfl⟩

/-- A host refused for good, whose turn it is. -/
def refusedState : State :=
  { idleState with
    hosts := [{ status := .refused, program := [.load 0x000#9 4], loaded := 7#32 }]
    sched := [plainTurn (.host 0)] }

/-- A byte load, and a word store at an offset that is no multiple of 4; a refused host's turn, and a step of that state. -/
theorem witness_MeaninglessAccessIsRefused :
    (AccessOf (about (.load 0x000#9 1) State.reset) (turn (.host 0)) [] 0 (.load 0x000#9 1) ∧ 1 ≠ 4) ∧
    (AccessOf (about (.store 0x102#9 4 1#32) State.reset) (turn (.host 0)) [] 0 (.store 0x102#9 4 1#32) ∧
      (0x102#9).toNat % 4 ≠ 0) ∧
    TurnOf refusedState (turn (.host 0)) [] (.host 0) ∧
    (∃ c, refusedState.hosts[0]? = some c ∧ c.status = .refused) ∧
    ∃ u, step refusedState = .next u :=
  ⟨⟨accessOf_about _, by decide⟩, ⟨accessOf_about _, by decide⟩, ⟨rfl, rfl⟩, ⟨_, rfl, rfl⟩, _, rfl⟩

/-- V1, whose lines fill the frame exactly (invariant 4 at its bound), and V9, one line short. -/
theorem witness_ValidateWritesItsVerdict :
    ValidDescriptor (staged v1).stage ∧
    ¬ ValidDescriptor (staged (desc 720 350 44400 374 3 22 8256 34560)).stage := by
  unfold ValidDescriptor; decide

theorem witness_SetModeApplies :
    ((staged v1).engine = .uninit ∧ ValidDescriptor (staged v1).stage ∧ EncodableDescriptor (staged v1).stage) ∧
    (idleState.engine = .idle ∧ ValidDescriptor idleState.stage ∧ EncodableDescriptor idleState.stage) := by
  unfold ValidDescriptor EncodableDescriptor; decide

/-- RUNNING; STOPPING; V6, not valid; V7, valid and not encodable. -/
theorem witness_SetModeFailsWhole :
    runningState.engine = .running ∧ ({ runningState with engine := .stopping } : State).engine = .stopping ∧
    ¬ ValidDescriptor (staged v6).stage ∧ ¬ EncodableDescriptor (staged v7).stage := by
  unfold ValidDescriptor EncodableDescriptor; decide

theorem witness_GeometryQueries : idleState.modeValid = true ∧ State.reset.modeValid = false := by decide

/-- V1, LONG-PORCH. -/
theorem witness_AcceptedDescriptorsCompile : ValidDescriptor v1 ∧ EncodableDescriptor v1 := by
  unfold ValidDescriptor EncodableDescriptor; decide
/-- V5, a period of 2 ns and a sync width rounded down. -/
theorem witness_ProgramsTotalTheLine : ValidDescriptor v5 ∧ EncodableDescriptor v5 := by
  unfold ValidDescriptor EncodableDescriptor; decide
/-- V3, SHORT-PORCH with c = 1, and V4, LONG-PORCH with B_CLK - H_CLK = 1. -/
theorem witness_FixedPhaseTrigger :
    (ValidDescriptor v3 ∧ EncodableDescriptor v3) ∧ ValidDescriptor v4 ∧ EncodableDescriptor v4 := by
  unfold ValidDescriptor EncodableDescriptor; decide
/-- V2, SHORT-PORCH with c = 10. -/
theorem witness_EmittedWordsAreLegal : ValidDescriptor v2 ∧ EncodableDescriptor v2 := by
  unfold ValidDescriptor EncodableDescriptor; decide

/-- D4 at the bound; D2, D3 and D5, each one clause of the refusal. -/
theorem witness_SetPlaneTakesItsTarget :
    (let s := withArgs 0xFFFFFF00 1 0x100 State.reset
     (arg1 s).toNat ≠ 0 ∧ (arg2 s).toNat ≠ 0 ∧
       (arg0 s).toNat + (arg1 s).toNat * (arg2 s).toNat ≤ 4294967296) ∧
    (arg1 (withArgs 0x20000000 0 350 State.reset)).toNat = 0 ∧
    (arg2 (withArgs 0x20000000 180 0 State.reset)).toNat = 0 ∧
    (let s := withArgs 0xFFFFFF00 1 0x101 State.reset
     4294967296 < (arg0 s).toNat + (arg1 s).toNat * (arg2 s).toNat) := by decide

/-- A3: the plane's last pixel. -/
theorem witness_SetPixelWritesOneField :
    (withArgs 719 349 0 planeState).mid = [] ∧ PixelReady (withArgs 719 349 0 planeState) := by
  unfold PixelReady; decide

/-- A3, with an outside store and a PCH step before the write; and G11, the last cell of the plane. -/
theorem witness_DrawingTouchesOnlyTheMemoryPath :
    PixelReady { withArgs 719 349 0 planeState with mid := [[], [.outside 0x2000F617#32 1#8, .pch]] } ∧
    TargetsReady (withArgs 712 342 0x41 (glyphState 8 8 [])) ∧
    GlyphReady (withArgs 712 342 0x41 (glyphState 8 8 [])) 712 342 0x41 := by
  refine ⟨by unfold PixelReady; decide, by unfold TargetsReady; decide, by decide, by decide, by decide, ?_⟩
  exact List.all_eq_true.mp (by decide +kernel)

/-- F8; A4; A5. -/
theorem witness_SetPixelFaults :
    State.reset.planeValid = false ∧
    (let s := withArgs 720 0 0 planeState
     s.planeValid = true ∧ 4 * s.plane.stride.toNat ≤ (arg0 s).toNat) ∧
    (let s := withArgs 0 350 0 planeState
     s.planeValid = true ∧ s.plane.rows.toNat ≤ (arg1 s).toNat) := by decide

theorem witness_WriteOperatorLaws :
    (withArgs 0 0 0 planeState).mid = [] ∧ PixelReady (withArgs 0 0 0 planeState) := by
  unfold PixelReady; decide

/-- An outside store to the last byte of the window, to the first one after it, and one between SET_PIXEL's two accesses. -/
theorem witness_OutsideStoreBetweenIsLost :
    (TurnOf (withTurns [.outside 0x400001FF#32 1#8] idleState) (turn (.outside 0x400001FF#32 1#8)) []
        (.outside 0x400001FF#32 1#8) ∧
      (0x400001FF#32).toNat / 0x200 = idleState.plat.regPage.toNat) ∧
    (TurnOf (withTurns [.outside 0x40000200#32 1#8] idleState) (turn (.outside 0x40000200#32 1#8)) []
        (.outside 0x40000200#32 1#8) ∧
      (0x40000200#32).toNat / 0x200 ≠ idleState.plat.regPage.toNat) ∧
    (let s := { withArgs 5 2 0 planeState with mid := [[], [.outside 0x20000169#32 0xAA#8]] }
     PixelReady s ∧ s.mid = [[], [.outside (pixAddr s (arg0 s).toNat (arg1 s).toNat) 0xAA#8]]) := by
  refine ⟨⟨⟨rfl, rfl⟩, by decide⟩, ⟨⟨rfl, rfl⟩, by decide⟩, ?_⟩
  unfold PixelReady
  decide

/-- D10 at the bound, an 8 x 8 font; D8, D9 and D11, each one clause of the refusal. -/
theorem witness_SetFontTakesItsTarget :
    (let s := withArgs 0xFFFFF040 9 14 State.reset
     (arg1 s).toNat = 9 ∧ (arg2 s).toNat = 14 ∧
       (arg0 s).toNat + 32 * (arg1 s).toNat * (arg2 s).toNat ≤ 4294967296) ∧
    (let s := withArgs 0x10000000 8 8 State.reset
     (arg1 s).toNat = 8 ∧ (arg2 s).toNat = 8 ∧
       (arg0 s).toNat + 32 * (arg1 s).toNat * (arg2 s).toNat ≤ 4294967296) ∧
    (let s := withArgs 0x10000000 10 14 State.reset
     ¬ ((arg1 s).toNat = 8 ∨ (arg1 s).toNat = 9)) ∧
    (let s := withArgs 0x10000000 8 16 State.reset
     ¬ ((arg2 s).toNat = 8 ∨ (arg2 s).toNat = 14)) ∧
    (let s := withArgs 0xFFFFF041 9 14 State.reset
     ¬ ((arg0 s).toNat + 32 * (arg1 s).toNat * (arg2 s).toNat ≤ 4294967296)) := by decide

/-- The last column of the last glyph, 9 wide and 8 wide. -/
theorem witness_RowBitsAreGlyphBits :
    ((glyphState 9 14 []).mid = [] ∧ (glyphState 9 14 []).font.cw.toNat = 9 ∧ 8 < (glyphState 9 14 []).font.cw.toNat) ∧
    (glyphState 8 8 []).mid = [] ∧ (glyphState 8 8 []).font.cw.toNat = 8 ∧ 7 < (glyphState 8 8 []).font.cw.toNat ∧
    255 ≤ 255 := by decide

theorem witness_RowPatternHoldsTheColours : ((9 = 8 ∨ 9 = 9) ∧ 8 < 9) ∧ (8 = 8 ∨ 8 = 9) ∧ 0 < 8 := by decide

/-- G8; no plane; G9 (glyph 256); glyph 255 with G10's cell, and with G12's. -/
theorem witness_GlyphChecksInOrder :
    planeState.fontValid = false ∧ State.reset.planeValid = false ∧
    (let s := withArgs 0 0 256 (glyphState 8 8 [])
     s.planeValid = true ∧ s.fontValid = true ∧ 255 < (arg2 s).toNat) ∧
    (let s := withArgs 713 0 255 (glyphState 8 8 [])
     s.planeValid = true ∧ s.fontValid = true ∧ (arg2 s).toNat ≤ 255 ∧
       4 * s.plane.stride.toNat ≤ (arg0 s).toNat + s.font.cw.toNat - 1) ∧
    (let s := withArgs 712 343 255 (glyphState 8 8 [])
     s.planeValid = true ∧ s.fontValid = true ∧ (arg2 s).toNat ≤ 255 ∧
       s.plane.rows.toNat ≤ (arg1 s).toNat + s.font.ch.toNat - 1) := by decide

/-- The plane's first byte not admitted. -/
def holedState : State :=
  { withArgs 0 0 0x41 (glyphState 8 8 []) with
    plat := { Platform.atReset with holes := [(0x20000000, 0x20000000)] } }

theorem witness_InadmissibleDrawingHolds :
    holedState.planeValid = true ∧ holedState.fontValid = true ∧
    (arg0 holedState).toNat < 4 * holedState.plane.stride.toNat ∧
    (arg1 holedState).toNat < holedState.plane.rows.toNat ∧
    admits holedState (pixAddr holedState (arg0 holedState).toNat (arg1 holedState).toNat) = false ∧
    (arg2 holedState).toNat ≤ 255 ∧
    (arg0 holedState).toNat + holedState.font.cw.toNat - 1 < 4 * holedState.plane.stride.toNat ∧
    (arg1 holedState).toNat + holedState.font.ch.toNat - 1 < holedState.plane.rows.toNat ∧
    ∃ a ∈ glyphFontBytes holedState (arg2 holedState).toNat ++
      glyphPlaneBytes holedState (arg0 holedState).toNat (arg1 holedState).toNat,
      admits holedState a = false := by
  refine ⟨rfl, rfl, by decide, by decide, by decide, by decide, by decide, by decide,
    0x20000000#32, ?_, by decide⟩
  decide +kernel

theorem apart_of {l m : List Word} (h : l.all (fun a => !m.contains a) = true) : ∀ a ∈ l, a ∉ m := by
  simpa using h

theorem witness_GlyphsStayInTheirCell :
    let s := withArgs 711 336 255 (glyphState 9 14 [])
    s.mid = [] ∧ TargetsReady s ∧ GlyphReady s (arg0 s).toNat (arg1 s).toNat (arg2 s).toNat := by
  refine ⟨rfl, by unfold TargetsReady; decide, by decide, by decide, by decide, ?_⟩
  exact List.all_eq_true.mp (by decide +kernel)

theorem witness_GlyphsPaintTheirCell :
    let s := withArgs 711 336 255 (glyphState 9 14 [])
    s.mid = [] ∧ TargetsReady s ∧ GlyphReady s (arg0 s).toNat (arg1 s).toNat (arg2 s).toNat ∧
    FontApart s (arg0 s).toNat (arg1 s).toNat (arg2 s).toNat ∧
    719 < 4 * s.plane.stride.toNat ∧ 349 < s.plane.rows.toNat := by
  refine ⟨rfl, by unfold TargetsReady; decide, ⟨by decide, by decide, by decide, ?_⟩, ?_, by decide, by decide⟩
  · exact List.all_eq_true.mp (by decide +kernel)
  · exact apart_of (by decide +kernel)

theorem witness_GlyphPathsAgree :
    let s := withArgs 2 0 0x41 (glyphState 8 8 ((0x10000201, 0x81#8) :: onesPlane 8))
    s.mid = [] ∧ TargetsReady s ∧ Memory.wf s.mem ∧
    FontApart s (arg0 s).toNat (arg1 s).toNat (arg2 s).toNat := by
  exact ⟨rfl, by unfold TargetsReady; decide, by decide +kernel, apart_of (by decide +kernel)⟩

/-- Not UNINIT; UNINIT with the resources taken; UNINIT with them free. -/
theorem witness_InitClaims :
    idleState.engine ≠ .uninit ∧ (State.reset.engine = .uninit ∧ State.reset.resOk = false) ∧
    (let s := { State.reset with resOk := true }
     s.engine = .uninit ∧ s.resOk = true) := by decide

/-- A CLEANUP issued anew in each state; one already held, after the park and before it. -/
theorem witness_CleanupReleases :
    ((portAt State.reset State.reset.port).hold ≠ some .park ∧ State.reset.engine = .uninit) ∧
    ((portAt idleState idleState.port).hold ≠ some .park ∧ idleState.engine = .idle) ∧
    ((portAt runningState runningState.port).hold ≠ some .park ∧ runningState.engine = .running) ∧
    (let s := { runningState with engine := .stopping }
     (portAt s s.port).hold ≠ some .park ∧ s.engine = .stopping) ∧
    (let s := heldState .park 2#32
     (portAt s s.port).hold = some .park ∧ s.engine = .idle) ∧
    (let s := { heldState .park 2#32 with engine := .stopping }
     (portAt s s.port).hold = some .park ∧ s.engine ≠ .idle) := by decide

/-- K1; not IDLE; IDLE without a mode; K6, one pixel word left. -/
theorem witness_StartPrimesTheCycle :
    (idleState.engine = .idle ∧ idleState.modeValid = true ∧ idleState.pch.rem = 0) ∧
    runningState.engine ≠ .idle ∧
    (let s := { State.reset with engine := .idle }
     s.engine = .idle ∧ s.modeValid = false) ∧
    (let s := { idleState with pch := { addr := 0x1000#32, rem := 1, past := false } }
     s.engine = .idle ∧ s.modeValid = true ∧ s.pch.rem ≠ 0) := by decide

theorem witness_StopClearsTheRunningFlag :
    runningState.engine = .running ∧ idleState.engine = .idle ∧
    ({ runningState with engine := .stopping } : State).engine = .stopping ∧ State.reset.engine = .uninit := by
  decide

/-- The engine's turn, in a phase whose words have all moved. -/
def phaseOver (e : EngineState) (p : Phase) (left : Nat) : State :=
  { withTurns [.engine] runningState with
    engine := e, phase := p, pch := { addr := 0x1000#32, rem := left, past := false }
    tch := { prog := programOfPhase p, idx := 0, rem := 0, done := true } }

theorem witness_StoppingParksWithoutANewFrame :
    (∀ p, TurnOf (phaseOver .stopping p 0) (turn .engine) [] .engine) ∧
    (phaseOver .stopping .visible 0).engine = .stopping ∧ (phaseOver .stopping .visible 0).tch.done = true ∧
    (phaseOver .stopping .visible 0).phase ≠ .postVisibleBlank ∧
    (phaseOver .stopping .postVisibleBlank 0).phase = .postVisibleBlank :=
  ⟨fun _ => ⟨rfl, rfl⟩, rfl, rfl, by decide, rfl⟩

/-- Each of the five entries; words still to move; the frame over while one pixel word is left. -/
theorem witness_EngineEntersTheNextPhase :
    (∀ e p, TurnOf (phaseOver e p 0) (turn .engine) [] .engine ∧ (phaseOver e p 0).tch.done = true ∧
      (phaseOver e p 0).phase = p) ∧
    (phaseOver .running .postVisibleBlank 0).engine = .running ∧
    (phaseOver .running .postVisibleBlank 0).pch.rem = 0 ∧
    (phaseOver .stopping .postVisibleBlank 0).engine ≠ .running ∧
    (TurnOf (withTurns [.engine] runningState) (turn .engine) [] .engine ∧
      (withTurns [.engine] runningState).tch.done = false) ∧
    (let s := phaseOver .running .postVisibleBlank 1
     TurnOf s (turn .engine) [] .engine ∧ s.phase = .postVisibleBlank ∧ s.engine = .running ∧ s.pch.rem ≠ 0) :=
  ⟨fun _ _ => ⟨⟨rfl, rfl⟩, rfl, rfl⟩, rfl, rfl, by decide, ⟨⟨rfl, rfl⟩, rfl⟩, ⟨rfl, rfl⟩, rfl, rfl,
    by decide⟩

/-- The last word of a phase with one place left in the FIFO; a parked channel, with no program; the FIFO full. -/
theorem reset_invariant : Invariant (withTurns [.tch] State.reset) := by
  refine .intro Memory.wf_reset ⟨?_, ?_, ?_, ?_, ?_⟩
  · exact .intro (fun _ => ⟨rfl, rfl, rfl⟩) (fun h => by rcases h with h | h <;> cases h)
  · intro h
    cases h
  · exact .intro (fun _ h => by cases h) ⟨by decide, by decide, fun h => absurd rfl h⟩
  · exact .intro rfl ⟨rfl, rfl⟩
  · exact .intro (by decide) ⟨by decide, by decide, by decide⟩

theorem witness_TchMovesOneWord :
    (let s := { withTurns [.tch] runningState with
        tch := { prog := .vsync, idx := 1, rem := 1, done := false }
        tgen := queue (List.replicate 15 0x0003000A#32) }
     TurnOf s (turn .tch) [] .tch ∧ s.tch.prog ≠ .none ∧ 0 < s.tch.rem ∧
       s.tgen.fifo.length < s.plat.tfifoDepth) ∧
    (TurnOf (withTurns [.tch] idleState) (turn .tch) [] .tch ∧ idleState.tch.prog = .none ∧
      (withTurns [.tch] idleState).tch.rem = 0) ∧
    (let s := { withTurns [.tch] runningState with tgen := queue (List.replicate 16 0x0003000A#32) }
     TurnOf s (turn .tch) [] .tch ∧ s.plat.tfifoDepth ≤ s.tgen.fifo.length) ∧
    (TurnOf (withTurns [.tch] State.reset) (turn .tch) [] .tch ∧
      Invariant (withTurns [.tch] State.reset) ∧ State.reset.engine = .uninit) :=
  ⟨⟨⟨rfl, rfl⟩, by decide, by decide, by decide⟩, ⟨⟨rfl, rfl⟩, rfl, rfl⟩, ⟨⟨rfl, rfl⟩, by decide⟩,
    ⟨rfl, rfl⟩, reset_invariant, rfl⟩

theorem witness_TimingWordExecutes : (1#16 : BitVec 16) ≠ 0#16 ∧ (65535#16 : BitVec 16) ≠ 0#16 := by decide

/-- E5 and E6 at the head of TGEN's FIFO. -/
theorem witness_IllegalTimingWordStops :
    (∀ w, let s := { withTurns [.tgen] idleState with tgen := queue [w] }
      TurnOf s (turn .tgen) [] .tgen ∧ s.tgen.fifo = [{ word := w, width := 16 }]) ∧
    (0x00010000#32).toNat % 65536 = 0 ∧ (0x00080005#32).toNat / 524288 ≠ 0 :=
  ⟨fun _ => ⟨⟨rfl, rfl⟩, rfl⟩, by decide, by decide⟩

/-- One word left; the last word below the top of the address space; nothing left; the FIFO full; past the top; a byte not admitted. -/
theorem witness_PchMovesOneWord :
    (let s := withTurns [.pch] runningState
     TurnOf s (turn .pch) [] .pch ∧ 0 < s.pch.rem ∧ s.pser.fifo.length < s.plat.pfifoDepth ∧
       s.pch.past = false ∧ admitsWord s s.pch.addr = true) ∧
    (let s := { withTurns [.pch] runningState with
        pch := { addr := 0xFFFFFFFC#32, rem := 2, past := false } }
     TurnOf s (turn .pch) [] .pch ∧ 0 < s.pch.rem ∧ s.pser.fifo.length < s.plat.pfifoDepth ∧
       s.pch.past = false ∧ admitsWord s s.pch.addr = true) ∧
    (let s := withTurns [.pch] idleState
     TurnOf s (turn .pch) [] .pch ∧ s.pch.rem = 0) ∧
    (let s := { withTurns [.pch] runningState with
        pser := { fifo := List.replicate 16 { b0 := 0, b1 := 0, b2 := 0, b3 := 0 }, left := 0, line := 0,
                  row := [], triggers := [], nextLine := 0 } }
     TurnOf s (turn .pch) [] .pch ∧ s.plat.pfifoDepth ≤ s.pser.fifo.length) ∧
    (let s := { withTurns [.pch] runningState with pch := { addr := 0#32, rem := 1, past := true } }
     TurnOf s (turn .pch) [] .pch ∧ s.pch.past = true) ∧
    (let s := { withTurns [.pch] runningState with
        plat := { Platform.atReset with holes := [(0x1003, 0x1003)] } }
     TurnOf s (turn .pch) [] .pch ∧ admitsWord s s.pch.addr = false) :=
  ⟨⟨⟨rfl, rfl⟩, by decide, by decide, rfl, by decide⟩,
    ⟨⟨rfl, rfl⟩, by decide, by decide, rfl, by decide⟩, ⟨⟨rfl, rfl⟩, rfl⟩, ⟨⟨rfl, rfl⟩, by decide⟩,
    ⟨⟨rfl, rfl⟩, rfl⟩, ⟨rfl, rfl⟩, by decide⟩

/-- Two framebuffer words waiting, and a line of that many pixels in progress. -/
def shifting (pixels : Nat) : State :=
  { runningState with
    pser := { fifo := [{ b0 := 0x1B#8, b1 := 0xE4#8, b2 := 0x00#8, b3 := 0xFF#8 }, { b0 := 0, b1 := 0, b2 := 0, b3 := 0 }]
              left := pixels, line := 0, row := [], triggers := [], nextLine := 1 } }

/-- A line of 16 pixels with another word behind it, and one of 32; and for PSER's turn: nothing to do, two triggers, a late word, and a line with more than a word and with exactly a word left. -/
theorem witness_PserShiftsAWholeLine :
    (let ws := (shifting 16).pser.fifo.take 1
     ws ≠ [] ∧ (shifting 16).pser.fifo = ws ++ (shifting 16).pser.fifo.drop 1 ∧
       (shifting 16).pser.left = 16 * ws.length ∧ (shifting 16).pser.row = []) ∧
    (let ws := (shifting 32).pser.fifo
     ws ≠ [] ∧ (shifting 32).pser.fifo = ws ++ [] ∧
       (shifting 32).pser.left = 16 * ws.length ∧ (shifting 32).pser.row = []) ∧
    (∀ s, TurnOf (withTurns [.pser] s) (turn .pser) [] .pser) ∧
    (idleState.pser.left = 0 ∧ idleState.pser.triggers = []) ∧
    (let p := { (shifting 0).pser with triggers := [{ line := 1, width := 16 }, { line := 2, width := 16 }] }
     p.left = 0 ∧ p.triggers = { line := 1, width := 16 } :: [{ line := 2, width := 16 }]) ∧
    (let p := { (shifting 32).pser with fifo := [] }
     0 < p.left ∧ p.fifo = []) ∧
    16 < (shifting 32).pser.left ∧ (shifting 16).pser.left ≤ 16 :=
  ⟨by decide, by decide, fun _ => ⟨rfl, rfl⟩, by decide, by decide, by decide, by decide, by decide⟩

theorem witness_PublishExchangesTheHandle :
    (arg0 (withArgs 0xFFFFFFFC 0 0 State.reset)).toNat % 4 = 0 ∧
    (arg0 (withArgs 0x20000002 0 0 State.reset)).toNat % 4 ≠ 0 := by decide

theorem witness_WaitFrameTakesTheToken :
    ({ idleState with token := true } : State).token = true ∧ idleState.token = false := by decide

/-- H3: two hosts hold in WAIT_FRAME on ports 0 and 1, and the token is there. -/
def twoWaiters : State :=
  { updPort 0 (fun q => { q with cmd := 8#32, hold := some .frameToken })
      (updPort 1 (fun q => { q with cmd := 8#32, hold := some .frameToken }) idleState) with
    token := true
    hosts := [{ status := .waiting, program := [], loaded := 0 }, { status := .waiting, program := [], loaded := 0 }]
    sched := [plainTurn (.host 0), plainTurn (.host 1)] }

theorem witness_OneWaiterPerRelease :
    twoWaiters.sched = turn (.host 0) :: turn (.host 1) :: [] ∧ (turn (.host 0)).agent = .host 0 ∧
    (turn (.host 1)).agent = .host 1 ∧ 0 ≠ 1 ∧
    (∃ c, twoWaiters.hosts[0]? = some c ∧ c.status = .waiting) ∧
    (∃ c, twoWaiters.hosts[1]? = some c ∧ c.status = .waiting) ∧ 1 < twoWaiters.ports.length ∧
    (portAt twoWaiters 0).hold = some .frameToken ∧ (portAt twoWaiters 1).hold = some .frameToken ∧
    (portAt twoWaiters 0).cmd = 8#32 ∧ (portAt twoWaiters 1).cmd = 8#32 ∧ twoWaiters.token = true :=
  ⟨rfl, rfl, rfl, by decide, ⟨_, rfl, rfl⟩, ⟨_, rfl, rfl⟩, by decide, rfl, rfl, rfl, rfl, rfl⟩

theorem witness_WhoWritesSharedState :
    exec .stop runningState = .next { runningState with engine := .stopping } := rfl

theorem witness_RecordsAreKept :
    let s := { withTurns [.tch] runningState with fault := .bounds }
    s.sched = turn .tch :: [] ∧ (turn .tch).agent ≠ .reset ∧ s.fault ≠ .none ∧ ∃ u, step s = .next u :=
  ⟨rfl, by decide, by decide, _, rfl⟩

/-- F5. -/
theorem witness_FaultsChangeNothingElse :
    ∃ t, exec .stop State.reset = .next t ∧ t.fault ≠ State.reset.fault :=
  ⟨_, rfl, by decide⟩

theorem witness_ResetValues :
    TurnOf (withTurns [.reset] runningState) (turn .reset) [] .reset := ⟨rfl, rfl⟩

/-- The V2 mode's store is legal and every one of its counts is 1. -/
theorem modeInv_v2 {s : State} (h1 : s.progVis = compileVis v2) (h2 : s.progBlank = compileBlank v2)
    (h3 : s.progVsync = compileVsync v2) (h4 : s.count = compileCounts v2) : ModeInv s := by
  intro _
  unfold storeLegal
  rw [h1, h2, h3, h4]
  have ones : (compileCounts v2).toList = [1#32, 1#32, 1#32, 1#32] := by decide
  refine ⟨⟨List.all_eq_true.mp (by decide), List.all_eq_true.mp (by decide),
    List.all_eq_true.mp (by decide)⟩, ?_⟩
  rw [ones]
  simp

/-- K1 after step 1, TCH to step: the invariant holds in a frame in flight, and there is a step. -/
theorem running_invariant : Invariant (withTurns [.tch] runningState) := by
  refine .intro Memory.wf_reset ⟨?_, modeInv_v2 rfl rfl rfl rfl, ?_, ?_, ?_⟩
  · exact .intro (fun h => by rcases h with h | h <;> cases h)
      (fun _ => ⟨rfl, rfl, .inl ⟨by decide, rfl⟩⟩)
  · exact .intro (fun _ h => by cases h) ⟨by decide, by decide, fun _ => by decide⟩
  · exact .intro rfl ⟨rfl, rfl⟩
  · exact .intro (by decide) ⟨by decide, by decide, by decide⟩

theorem witness_StepKeepsTheInvariant :
    Invariant (withTurns [.tch] runningState) ∧ ∃ t, step (withTurns [.tch] runningState) = .next t :=
  ⟨running_invariant, _, rfl⟩

/-- The same state: one line of one word is owed, and PCH has that word to read. -/
theorem witness_StepKeepsThePixelBalance :
    Invariant (withTurns [.tch] runningState) ∧ PixelInv (withTurns [.tch] runningState) ∧
    ∃ t, step (withTurns [.tch] runningState) = .next t := by
  refine ⟨running_invariant, ?_, _, rfl⟩
  refine .intro (fun _ => ⟨by decide, rfl, rfl, rfl, rfl, by decide⟩) ⟨rfl, ?_, ?_, by decide⟩
  · exact fun _ h => by cases h
  · exact fun _ h => by cases h

/-- An engine at the end of its frame, with a CLEANUP held on port 0 if `hold` says so. -/
def lastStep (e : EngineState) (hold : Option Hold) : State :=
  { updPort 0 (fun q => { q with cmd := 2#32, hold := hold }) idleState with
    engine := e, phase := .postVisibleBlank, resOk := true
    tch := { prog := .blank, idx := 0, rem := 0, done := true }
    hosts := { status := if hold.isSome then .waiting else .ready, program := [], loaded := 0 } ::
      List.replicate 7 .atReset }

theorem lastStep_invariant (e : EngineState) (hold : Option Hold) (he : e = .running ∨ e = .stopping) :
    Invariant (lastStep e hold) := by
  refine .intro Memory.wf_reset ⟨?_, modeInv_v2 rfl rfl rfl rfl, ?_, ?_, ?_⟩
  · refine .intro (fun h => ?_) (fun _ => ⟨rfl, rfl, .inr ⟨rfl, rfl⟩⟩)
    rcases he with rfl | rfl <;> rcases h with h | h <;> cases h
  · exact .intro (fun _ h => by cases h)
      ⟨show 0 ≤ 16 by decide, show 0 ≤ 16 by decide, fun _ => show 0 < 2 by decide⟩
  · exact .intro (show (0x1000#32).toNat % 4 = 0 by decide)
      ⟨show (0#32).toNat % 4 = 0 by decide, show (0#32).toNat % 4 = 0 by decide⟩
  · exact .intro (show 1 ≤ 8 by decide) ⟨show 8 ≤ 8 by decide, rfl, rfl⟩

/-- The states of a run that parks in its first step and completes a held CLEANUP in its second; then nothing is enabled. -/
def releaseStates : Nat → State
  | 0 => lastStep .stopping (some .park)
  | 1 => engineStep (lastStep .stopping (some .park))
  | _ + 2 =>
    settle 0 (completed { engineStep (lastStep .stopping (some .park)) with engine := .uninit })

/-- Its turns. -/
def releaseTurns : Nat → Turn
  | 0 => plainTurn .engine
  | 1 => plainTurn (.host 0)
  | _ + 2 => plainTurn .engine

/-- With every host done, an agent is enabled only if it is one of the block's, and those can be asked one by one. -/
theorem nothing_enabled {s : State} (hd : hostsDone s)
    (hb : ∀ a ∈ [Agent.engine, .tch, .tgen, .pch, .pser], agentEnabled a s = false) (a : Agent) :
    agentEnabled a s = false := by
  cases a with
  | host h => exact hostEnabled_of_done hd h
  | outside => rfl
  | reset => rfl
  | _ => exact hb _ (by decide)

theorem releaseRun :
    IsRun releaseStates releaseTurns ∧ WeaklyFair releaseStates releaseTurns ∧
    WithoutReset releaseTurns ∧ Invariant (releaseStates 0) := by
  refine ⟨?_, ?_, ?_, lastStep_invariant _ _ (.inr rfl)⟩
  · rintro (_ | _ | n)
    · rfl
    · rfl
    · rfl
  · intro a n h
    have h1 := h (n + 2) (by omega)
    rw [nothing_enabled (s := releaseStates (n + 2)) ?_ ?_ a] at h1
    · cases h1
    · show ∀ c ∈ (releaseStates 2).hosts, c.status = .ready ∧ c.program = []
      decide
    · show ∀ a ∈ [Agent.engine, .tch, .tgen, .pch, .pser], agentEnabled a (releaseStates 2) = false
      decide
  · rintro (_ | _ | n) h <;> cases h

/-- That run is fair, no reset comes, it begins STOPPING with a CLEANUP held, and no other port takes STATE out of IDLE. -/
theorem witness_FairRunsMakeProgress :
    IsRun releaseStates releaseTurns ∧ WeaklyFair releaseStates releaseTurns ∧
    WithoutReset releaseTurns ∧ Invariant (releaseStates 0) ∧
    (releaseStates 0).engine = .stopping ∧
    (∃ c, (releaseStates 0).hosts[0]? = some c ∧ c.status = .waiting) ∧
    (portAt (releaseStates 0) 0).hold = some .park ∧
    (portAt (releaseStates 0) 0).cmd = 0x00000002#32 ∧
    ∀ m, 0 ≤ m → (releaseStates m).engine = .idle → (releaseTurns m).agent ≠ .host 0 →
      (releaseStates (m + 1)).engine = .idle := by
  obtain ⟨h1, h2, h3, h4⟩ := releaseRun
  refine ⟨h1, h2, h3, h4, rfl, ⟨_, rfl, rfl⟩, rfl, rfl, ?_⟩
  rintro (_ | _ | n) - he ht
  · cases he
  · exact absurd rfl ht
  · cases he

/-- The same run, from its second turn on: every host is done, STATE is UNINIT and nothing is left to read. It begins in the pixel balance. -/
theorem witness_FairRunsEnd :
    IsRun releaseStates releaseTurns ∧ WeaklyFair releaseStates releaseTurns ∧
    WithoutReset releaseTurns ∧ Invariant (releaseStates 0) ∧ PixelInv (releaseStates 0) ∧
    hostsDone (releaseStates 2) ∧ (releaseStates 2).engine ≠ .running ∧
    PixelReadsAdmitted (releaseStates 2) := by
  obtain ⟨h1, h2, h3, h4⟩ := releaseRun
  refine ⟨h1, h2, h3, h4, ?_, ?_, by decide, fun h => absurd h (by decide)⟩
  · refine .intro (fun _ => ⟨by decide, rfl, rfl, rfl, rfl, by decide⟩) ⟨rfl, ?_, ?_, by decide⟩
    · exact fun _ h => by cases h
    · exact fun _ h => by cases h
  · show ∀ c ∈ (releaseStates 2).hosts, c.status = .ready ∧ c.program = []
    decide

/-- A RUNNING engine whose frame's words have all moved, with the pixel channel stuck past the top of the address space: nothing is enabled. -/
def stuckState : State :=
  { lastStep .running none with pch := { addr := 0#32, rem := 1, past := true } }

/-- A RUNNING engine in a fair run: the frame's last words have moved and the pixel channel is stuck past the top of the address space, so nothing is enabled and the machine stays as it is. -/
theorem witness_FairRunsMakeProgress_running :
    let states : Nat → State := fun _ => stuckState
    let turns : Nat → Turn := fun _ => plainTurn .engine
    IsRun states turns ∧ WeaklyFair states turns ∧ WithoutReset turns ∧ Invariant (states 0) ∧
    (states 0).engine = .running := by
  refine ⟨fun _ => rfl, ?_, (fun _ h => by cases h), lastStep_invariant _ _ (.inl rfl), rfl⟩
  intro a n h
  have h1 : agentEnabled a stuckState = true := h n (by omega)
  rw [nothing_enabled (s := stuckState) ?_ (by decide) a] at h1
  · cases h1
  · show ∀ c ∈ stuckState.hosts, c.status = .ready ∧ c.program = []
    decide

/-- The states of a run in which host 0 loads STATUS and then has nothing more to do. -/
def accessStates : Nat → State
  | 0 => { idleState with
      resOk := true
      hosts := { HostCtx.atReset with program := [.load 0x000#9 4] } :: List.replicate 7 .atReset }
  | _ + 1 => { idleState with
      resOk := true
      hosts := { HostCtx.atReset with loaded := statusWord idleState } ::
        List.replicate 7 .atReset }

theorem idleState_invariant : Invariant idleState := by
  refine .intro Memory.wf_reset ⟨?_, modeInv_v2 rfl rfl rfl rfl, ?_, ?_, ?_⟩
  · exact .intro (fun _ => ⟨rfl, rfl, rfl⟩) (fun h => by rcases h with h | h <;> cases h)
  · exact .intro (fun _ h => by cases h) ⟨by decide, by decide, fun h => absurd rfl h⟩
  · exact .intro rfl ⟨rfl, rfl⟩
  · exact .intro (by decide) ⟨by decide, by decide, by decide⟩

theorem witness_FairRunsMakeProgress_host :
    let turns : Nat → Turn := fun _ => plainTurn (.host 0)
    IsRun accessStates turns ∧ WeaklyFair accessStates turns ∧ WithoutReset turns ∧
    Invariant (accessStates 0) ∧
    ∃ c, (accessStates 0).hosts[0]? = some c ∧ c.status = .ready ∧ c.program ≠ [] := by
  refine ⟨?_, ?_, (fun _ h => by cases h), ?_, ⟨_, rfl, rfl, by decide⟩⟩
  · rintro (_ | n) <;> rfl
  · intro a n h
    have h1 := h (n + 1) (by omega)
    rw [nothing_enabled (s := accessStates (n + 1)) ?_ ?_ a] at h1
    · cases h1
    · show ∀ c ∈ (accessStates 1).hosts, c.status = .ready ∧ c.program = []
      decide
    · show ∀ a ∈ [Agent.engine, .tch, .tgen, .pch, .pser], agentEnabled a (accessStates 1) = false
      decide
  · exact idleState_invariant

theorem witness_InvariantExcludesStops : Invariant (withTurns [.tgen] idleState) :=
  idleState_invariant

/-- R477, R471: at reset every register reads 0 and a run that begins there has put out nothing; of the events only FRAME_CB counts. -/
theorem test_observation :
    registerValues State.reset = List.replicate 128 0#32 ∧
    (observation State.reset State.reset).output = { frameCbs := [], executed := [], shifted := [] } ∧
    (outputSince State.reset { State.reset with history := [.trigger, .frameCb] }).frameCbs = [.frameCb] := by
  decide

end Sys2Proof.Tests
end

/-! PROOFS. The statements about the state: the register map, host accesses, and which instruction writes what. -/

namespace Sys2Proof.Machine

/-! ### A host's access as a step -/

/-- The step in which a host makes its next access is that access, made with the turn taken (R91). -/
theorem step_of_accessOf {s : State} {t : Turn} {rest : List Turn} {h : Nat} {a : Access}
    (ha : AccessOf s t rest h a) : step s = access h a (turnTaken s t rest) := by
  obtain ⟨ht, c, hc, hs, hp⟩ := ha
  rw [step_of_turnOf ht]
  exact hostTurn_ready hc hs hp

/-- A store to a register other than CMD writes that register and consumes the access (R37, R48, R54). -/
theorem step_store_reg {s : State} {t : Turn} {rest : List Turn} {h : Nat} {off : RegOffset}
    {v : Word} {r : Reg} (ha : AccessOf s t rest h (.store off 4 v)) (hal : off.toNat % 4 = 0)
    (hr : regAt s.ports.length off = r) (hc : ∀ p, r ≠ .cmd p) :
    step s = .next (regWrite r v (accessTaken s t rest h)) := by
  rw [step_of_accessOf ha]
  exact access_store_reg h ((accessLegal_iff off 4).mpr ⟨rfl, hal⟩) hr hc

/-- A load answers what the register at its offset holds (R88). -/
theorem step_load {s : State} {t : Turn} {rest : List Turn} {h : Nat} {off : RegOffset}
    (ha : AccessOf s t rest h (.load off 4)) (hal : off.toNat % 4 = 0) :
    step s = .next { accessTaken s t rest h with
      hosts := (accessTaken s t rest h).hosts.modify h
        (fun c => { c with loaded := regRead s (regAt s.ports.length off) }) } := by
  rw [step_of_accessOf ha, access_load h ((accessLegal_iff off 4).mpr ⟨rfl, hal⟩)]
  rfl

/-- A store to the CMD of a port is a command for that port (R52, R53). -/
theorem step_store_cmd {s : State} {t : Turn} {rest : List Turn} {h p : Nat} {off : RegOffset}
    {v : Word} (ha : AccessOf s t rest h (.store off 4 v)) (hp : p < s.ports.length)
    (ho : off.toNat = 0x100 + 0x20 * p) :
    step s = storeCommand h p v (turnTaken s t rest) := by
  rw [step_of_accessOf ha]
  exact access_store_cmd h ((accessLegal_iff off 4).mpr ⟨rfl, by omega⟩) (regAt_cmd hp ho)

/-- A legal command word is performed as the command it decodes to (R53). -/
theorem perform_of_decode {w : Word} {i : Instr} (hd : decodeCommand w = .ok i) (p : Nat)
    (s : State) : perform p w s = exec i { s with port := p } := by
  simp [perform, hd]

/-- Settles O5: the host's turn comes down to `storeCommand`, whose three cases are the three clauses. -/
theorem stepRunsStoredCommand : Obligations.StepRunsStoredCommand := by
  intro s t rest h p off v ha hp ho
  have hstep := step_store_cmd ha hp ho
  refine ⟨fun i hph hh hd => ?_, fun hph hh => ?_, fun hph => ?_⟩
  · subst hph
    rw [hstep, storeCommand_own (s := turnTaken s t rest) hh, issue, perform_of_decode hd]
    rfl
  · subst hph
    rw [hstep, storeCommand_pending (s := turnTaken s t rest) hh]
  · rw [hstep, storeCommand_other hph]
    rfl

/-! ### The register map, region by region (R35) -/

theorem regAt_stage {n k : Nat} {off : RegOffset} (hk : k < 8) (ho : off.toNat = 0x040 + 4 * k) :
    regAt n off = .stage k := by
  have e : off.toNat / 4 = 16 + k := by omega
  simp (disch := omega) only [regAt, e, if_neg, if_pos, Nat.add_sub_cancel_left]

theorem regAt_mode {n k : Nat} {off : RegOffset} (hk : k < 8) (ho : off.toNat = 0x060 + 4 * k) :
    regAt n off = .mode k := by
  have e : off.toNat / 4 = 24 + k := by omega
  simp (disch := omega) only [regAt, e, if_neg, if_pos, Nat.add_sub_cancel_left]

theorem regAt_progVis {n k : Nat} {off : RegOffset} (hk : k < 4) (ho : off.toNat = 0x080 + 4 * k) :
    regAt n off = .progVis k := by
  have e : off.toNat / 4 = 32 + k := by omega
  simp (disch := omega) only [regAt, e, if_neg, if_pos, Nat.add_sub_cancel_left]

theorem regAt_progBlank {n k : Nat} {off : RegOffset} (hk : k < 2)
    (ho : off.toNat = 0x090 + 4 * k) : regAt n off = .progBlank k := by
  have e : off.toNat / 4 = 36 + k := by omega
  simp (disch := omega) only [regAt, e, if_neg, if_pos, Nat.add_sub_cancel_left]

theorem regAt_progVsync {n k : Nat} {off : RegOffset} (hk : k < 2)
    (ho : off.toNat = 0x098 + 4 * k) : regAt n off = .progVsync k := by
  have e : off.toNat / 4 = 38 + k := by omega
  simp (disch := omega) only [regAt, e, if_neg, if_pos, Nat.add_sub_cancel_left]

theorem regAt_count {n k : Nat} {off : RegOffset} (hk : k < 4) (ho : off.toNat = 0x0A0 + 4 * k) :
    regAt n off = .count k := by
  have e : off.toNat / 4 = 40 + k := by omega
  simp (disch := omega) only [regAt, e, if_neg, if_pos, Nat.add_sub_cancel_left]

/-- Word r of port bank p: that port's register where the block has the port, reserved where not (R35, R52). -/
theorem regAt_portBank {n p r : Nat} {off : RegOffset} (hr : r < 8)
    (ho : off.toNat = 0x100 + 0x20 * p + 4 * r) :
    regAt n off = if p < n then portReg p r else .reserved := by
  rw [regAt_port (p := p) (r := r) hr (by omega)]
  split
  · next hp => exact portRegAt_own hr hp
  · next hp => exact if_pos (by omega)

theorem portReg_reserved {p r : Nat} (hr : 5 ≤ r) : portReg p r = .reserved := by
  obtain ⟨k, rfl⟩ := Nat.exists_eq_add_of_le' hr
  rfl

/-- A reserved offset names no register (R35, R48). -/
theorem regAt_reserved {n : Nat} {off : RegOffset} (hal : off.toNat % 4 = 0)
    (ho : ReservedOffset n off) : regAt n off = .reserved := by
  obtain h | h | h | ⟨hb, hport⟩ := ho
  · simp (disch := omega) only [regAt, if_neg, if_pos]
  · simp (disch := omega) only [regAt, if_neg, if_pos]
  · simp (disch := omega) only [regAt, if_neg, if_pos]
  · rw [regAt_portBank (p := (off.toNat - 0x100) / 0x20) (r := off.toNat % 0x20 / 4)
      (by omega) (by omega)]
    split
    · exact portReg_reserved (by omega)
    · rfl

/-- The sum of two offsets that stays inside the window, as a number. -/
theorem regOffset_add_toNat {a b : Nat} (h : a + b < 512) :
    (BitVec.ofNat 9 a + BitVec.ofNat 9 b).toNat = a + b := by
  rw [← BitVec.ofNat_add, BitVec.toNat_ofNat, Nat.mod_eq_of_lt h]

/-- Word r of port bank p, its offset written as the bank's offset and a displacement (R35). -/
theorem regAt_bankWord (n : Nat) {p r : Nat} (hp : p < 8) (hr : r < 8) :
    regAt n (0x100#9 + BitVec.ofNat 9 (0x20 * p) + BitVec.ofNat 9 (4 * r)) =
      if p < n then portReg p r else .reserved := by
  refine regAt_portBank hr ?_
  rw [← BitVec.ofNat_add, regOffset_add_toNat (by omega)]

/-- Settles O9: the fixed registers by evaluation, the indexed regions by their lemmas. -/
theorem registerMapIsR35 : Obligations.RegisterMapIsR35 := by
  intro n
  refine ⟨⟨rfl, rfl, rfl, rfl, rfl, rfl, rfl, rfl, rfl, rfl, rfl⟩,
    fun k => ?_, fun k => ?_, fun k => ?_, fun k => ?_, fun k => ?_, fun k => ?_, fun k => ?_,
    fun k => ?_, fun p => ?_⟩
  · have e := regOffset_add_toNat (a := 0x02C) (b := 4 * k) (by omega)
    exact regAt_reserved (by omega) (.inr (.inl (by omega)))
  · exact regAt_stage k.isLt (regOffset_add_toNat (by omega))
  · exact regAt_mode k.isLt (regOffset_add_toNat (by omega))
  · exact regAt_progVis k.isLt (regOffset_add_toNat (by omega))
  · exact regAt_progBlank k.isLt (regOffset_add_toNat (by omega))
  · exact regAt_progVsync k.isLt (regOffset_add_toNat (by omega))
  · exact regAt_count k.isLt (regOffset_add_toNat (by omega))
  · have e := regOffset_add_toNat (a := 0x0B0) (b := 4 * k) (by omega)
    exact regAt_reserved (by omega) (.inr (.inr (.inl (by omega))))
  · have word (r : Nat) (hr : r < 8) := regAt_bankWord n p.isLt hr
    have reserved (r : Nat) (hr : r < 8) (h5 : 5 ≤ r) := (word r hr).trans
      ((congrArg (ite _ · _) (portReg_reserved h5)).trans (ite_self _))
    exact ⟨(congrArg (regAt n) (BitVec.add_zero _).symm).trans (word 0 (by omega)),
      word 1 (by omega), word 2 (by omega), word 3 (by omega), word 4 (by omega), reserved 5 (by omega) (by omega),
      reserved 6 (by omega) (by omega), reserved 7 (by omega) (by omega)⟩

/-! ### STATUS (R36) -/

/-- The fields of STATUS that are wider than a bit, and its reserved bits (R36). -/
theorem statusWord_fields (s : State) :
    (statusWord s).extractLsb' 0 2 = engineBits s.engine ∧
    (statusWord s).extractLsb' 2 2 = phaseBits s.phase ∧
    (statusWord s).extractLsb' 8 4 = 0#4 ∧
    (statusWord s).extractLsb' 12 4 = faultBits s.fault ∧
    (statusWord s).extractLsb' 16 16 = 0#16 := by
  refine ⟨?_, ?_, ?_, ?_, ?_⟩
  all_goals
    simp (disch := decide) only [statusWord, BitVec.extractLsb'_append_eq_of_le,
      BitVec.extractLsb'_append_eq_of_add_le]
    exact BitVec.extractLsb'_eq_self

/-- The flag bits of STATUS (R36). -/
theorem statusWord_flags (s : State) :
    (statusWord s).getLsbD 4 = s.modeValid ∧ (statusWord s).getLsbD 5 = s.token ∧
    (statusWord s).getLsbD 6 = s.planeValid ∧ (statusWord s).getLsbD 7 = s.fontValid := by
  simp only [statusWord, BitVec.getLsbD_append]
  simp

/-- Settles O8: the field and flag lemmas of the STATUS word, which is what offset 0 reads. -/
theorem statusPacksItsFields : Obligations.StatusPacksItsFields := by
  intro s
  obtain ⟨hstate, hphase, hlow, hfault, htop⟩ := statusWord_fields s
  obtain ⟨hmode, htoken, hplane, hfont⟩ := statusWord_flags s
  exact ⟨hstate, hphase, hmode, htoken, hplane, hfont, hlow, hfault, htop⟩

/-! ### Stores to STAGE and the ARG registers (R37, R54) -/

/-- Replacing field k is replacing entry k in R13's order (R37). -/
theorem fieldsInOrder_setDescField {k : Nat} (hk : k < 8) (m : ModeDesc) (v : Word) :
    fieldsInOrder (setDescField m k v) = (fieldsInOrder m).set k v := by
  interval_cases k <;> rfl

/-- A store to word r of a port's bank, other than CMD, writes that register of the port (R54, R410). -/
theorem step_store_portReg {s : State} {t : Turn} {rest : List Turn} {h p r : Nat} {off : RegOffset}
    {v : Word} (ha : AccessOf s t rest h (.store off 4 v)) (hp : p < s.ports.length) (hr : r < 8)
    (ho : off.toNat = 0x100 + 0x20 * p + 4 * r) (hc : ∀ q, portReg p r ≠ .cmd q) :
    step s = .next (regWrite (portReg p r) v (accessTaken s t rest h)) :=
  step_store_reg ha (by omega) ((regAt_portBank hr ho).trans (if_pos hp)) hc

/-- Settles O10: each store is `regWrite` of the register its offset names. -/
theorem stageAndArgStores : Obligations.StageAndArgStores := by
  intro s t rest h off v ha
  refine ⟨fun k hk ho => ?_, fun p hp => ⟨fun ho => ?_, fun ho => ?_, fun ho => ?_⟩⟩
  · exact ⟨_, step_store_reg ha (by omega) (regAt_stage hk ho) (by simp), rfl,
      fieldsInOrder_setDescField hk _ _⟩
  · exact step_store_portReg (r := 1) ha hp (by omega) (by omega) (by simp [portReg])
  · exact step_store_portReg (r := 2) ha hp (by omega) (by omega) (by simp [portReg])
  · exact step_store_portReg (r := 3) ha hp (by omega) (by omega) (by simp [portReg])

/-! ### Registers a host store does not change (R48) -/

/-- Whether a host store has an effect on the register: STAGE, the ARGs, and CMD (R37, R53, R54). -/
def Reg.writable : Reg → Bool
  | .stage _ | .cmd _ | .arg0 _ | .arg1 _ | .arg2 _ => true
  | _ => false

/-- Of a port's bank, RESULT and the words after it are not writable (R35, R48). -/
theorem portReg_not_writable {p r : Nat} (hr : 4 ≤ r) : (portReg p r).writable = false := by
  obtain ⟨k, rfl⟩ := Nat.exists_eq_add_of_le' hr
  cases k <;> rfl

/-- The register map is a chain of conditions: a choice is not writable when neither side is, each under its own condition. -/
theorem not_writable_ite {c : Prop} [Decidable c] {a b : Reg} (ha : c → a.writable = false)
    (hb : ¬ c → b.writable = false) : (if c then a else b).writable = false := by
  by_cases hc : c
  · rw [if_pos hc]; exact ha hc
  · rw [if_neg hc]; exact hb hc

/-- An offset outside `WritableOffset` names a register that is not writable (R35, R48). -/
theorem regAt_not_writable {n : Nat} {off : RegOffset} (hw : ¬ WritableOffset n off) :
    (regAt n off).writable = false := by
  simp only [WritableOffset, not_or, not_and, not_lt] at hw
  obtain ⟨hstage, hport⟩ := hw
  by_cases hb : 0x100 ≤ off.toNat
  · rw [regAt_port (p := (off.toNat - 0x100) / 0x20) (r := off.toNat % 0x20 / 4)
      (by omega) (by omega)]
    by_cases hp : (off.toNat - 0x100) / 0x20 < n
    · have hr := hport hb hp
      rw [portRegAt_own (by omega) hp]
      exact portReg_not_writable (by omega)
    · rw [portRegAt, if_pos (by omega)]
      rfl
  · simp only [regAt]
    iterate 11 refine not_writable_ite (fun _ => rfl) fun _ => ?_
    refine not_writable_ite (fun _ => by omega) fun _ => ?_
    iterate 6 refine not_writable_ite (fun _ => rfl) fun _ => ?_
    omega

/-- A store to a register that is not writable changes nothing (R48). -/
theorem regWrite_of_not_writable {r : Reg} (hr : r.writable = false) (v : Word) (s : State) :
    regWrite r v s = s := by
  cases r with
  | stage | cmd | arg0 | arg1 | arg2 => cases hr
  | _ => rfl

/-- Settles O11: a reserved offset names `.reserved`, which reads 0, and an offset that is not writable names a register whose store does nothing. -/
theorem reservedAndReadOnlyAccesses : Obligations.ReservedAndReadOnlyAccesses := by
  intro s t rest h off v hal
  refine ⟨fun ha ho => ?_, fun ha hw => ?_⟩
  · rw [step_load ha hal, regAt_reserved hal ho]
    rfl
  · have hr := regAt_not_writable hw
    rw [step_store_reg ha hal rfl (fun p hp => by rw [hp] at hr; cases hr),
      regWrite_of_not_writable hr]

/-! ### What an instruction may change (R36 to R47, R54, R55) -/

/-- t differs from s at most in what the instruction may write, its port and STATUS.FAULT beside that. -/
def ChangesOnly (i : Instr) (s t : State) : Prop :=
  match i with
  | .init => t = { s with
      fault := t.fault, ports := t.ports, engine := t.engine, phase := t.phase, token := t.token }
  | .cleanup | .stop => t = { s with fault := t.fault, ports := t.ports, engine := t.engine }
  | .validate | .getWidth | .getHeight | .getStride =>
    t = { s with fault := t.fault, ports := t.ports }
  | .setMode => t = { s with
      fault := t.fault, ports := t.ports, mode := t.mode, modeValid := t.modeValid
      progVis := t.progVis, progBlank := t.progBlank, progVsync := t.progVsync
      count := t.count, pixwords := t.pixwords }
  | .start => t = { s with
      fault := t.fault, ports := t.ports, engine := t.engine, phase := t.phase
      frameHandle := t.frameHandle, tch := t.tch, pch := t.pch }
  | .publish => t = { s with fault := t.fault, ports := t.ports, liveHandle := t.liveHandle }
  | .waitFrame => t = { s with fault := t.fault, ports := t.ports, token := t.token }
  | .setPlane => t = { s with
      fault := t.fault, ports := t.ports, plane := t.plane, planeValid := t.planeValid }
  | .setFont => t = { s with
      fault := t.fault, ports := t.ports, font := t.font, fontValid := t.fontValid }
  | .setPixel _ _ | .drawGlyph _ _ _ | .drawGlyphBulk _ _ _ => t = { s with
      fault := t.fault, ports := t.ports, mem := t.mem, pch := t.pch, pser := t.pser, pix := t.pix
      shifted := t.shifted, refusalMark := t.refusalMark, mid := t.mid }
  | .tw _ _ _ _ => t = { s with
      tgen := t.tgen, pser := t.pser, hsync := t.hsync, vsync := t.vsync
      executed := t.executed, history := t.history }

/-- A change of FAULT and the ports alone is within what any command may change. -/
theorem changesOnly_of_command {i : Instr} (hi : i.isCommand = true) {s t : State}
    (h : t = { s with fault := t.fault, ports := t.ports }) : ChangesOnly i s t := by
  cases i with
  | tw => cases hi
  | _ => rw [h]; rfl

theorem changesOnly_of_draw {i : Instr} {s t : State}
    (hi : (∃ op v, i = .setPixel op v) ∨ (∃ op fg bg, i = .drawGlyph op fg bg) ∨
      (∃ op fg bg, i = .drawGlyphBulk op fg bg))
    (hm : MemoryPathOnly s t) : ChangesOnly i s t := by
  obtain ⟨_, _, rfl⟩ | ⟨_, _, _, rfl⟩ | ⟨_, _, _, rfl⟩ := hi <;> (rw [hm]; rfl)

/-- The frame of every instruction. -/
theorem ExecTo.changesOnly {i : Instr} {s t : State} (h : ExecTo s i t) : ChangesOnly i s t := by
  cases h with
  | fault _ c hi _ => exact changesOnly_of_command hi rfl
  | hold _ h hi => exact changesOnly_of_command hi rfl
  | same _ hi => exact changesOnly_of_command (by obtain rfl | rfl := hi <;> rfl) rfl
  | result _ v hi =>
    exact changesOnly_of_command (by obtain rfl | rfl | rfl | rfl | rfl := hi <;> rfl) rfl
  | draw _ _ hi hm _ => exact changesOnly_of_draw hi hm
  | word dur hs vs trig _ => cases vs <;> cases trig <;> rfl
  | _ => rfl

/-- What a command does to the registers of its own port: CMD and the ARGs stay, and RESULT is written by VALIDATE, SET_MODE and the geometry queries alone (R54, R55). -/
def KeepsPortRegs (i : Instr) (f : Port → Port) : Prop :=
  ∀ q, (f q).cmd = q.cmd ∧ (f q).arg0 = q.arg0 ∧ (f q).arg1 = q.arg1 ∧ (f q).arg2 = q.arg2 ∧
    (i ∉ [.validate, .setMode, .getWidth, .getHeight, .getStride] → (f q).result = q.result)

theorem keepsPortRegs_id (i : Instr) : KeepsPortRegs i id :=
  fun _ => ⟨rfl, rfl, rfl, rfl, fun _ => rfl⟩

theorem keepsPortRegs_hold (i : Instr) (h : Option Hold) :
    KeepsPortRegs i (fun q => { q with hold := h }) :=
  fun _ => ⟨rfl, rfl, rfl, rfl, fun _ => rfl⟩

theorem keepsPortRegs_result {i : Instr}
    (hi : i = .validate ∨ i = .setMode ∨ i = .getWidth ∨ i = .getHeight ∨ i = .getStride)
    (v : Word) : KeepsPortRegs i (fun q => { q with result := v }) :=
  fun _ => ⟨rfl, rfl, rfl, rfl, fun hn => absurd (by simpa using hi) hn⟩

/-- An instruction changes no port but the one that issues it (R52, R54, R55). -/
theorem ExecTo.ports {i : Instr} {s t : State} (h : ExecTo s i t) :
    ∃ f, KeepsPortRegs i f ∧ t.ports = (updPort s.port f s).ports := by
  have unchanged (hp : t.ports = s.ports) :
      ∃ f, KeepsPortRegs i f ∧ t.ports = (updPort s.port f s).ports :=
    ⟨id, keepsPortRegs_id i, hp.trans (List.modify_id _ _).symm⟩
  cases h with
  | fault => exact ⟨_, keepsPortRegs_hold i none, rfl⟩
  | hold _ h => exact ⟨_, keepsPortRegs_hold i (some h), rfl⟩
  | releaseHeld | prime | takeToken => exact ⟨_, keepsPortRegs_hold _ none, rfl⟩
  | result _ v hi => exact ⟨_, keepsPortRegs_result hi v, rfl⟩
  | apply => exact ⟨_, keepsPortRegs_result (by simp) 1#32, rfl⟩
  | draw _ _ _ hm _ => exact unchanged (by rw [hm])
  | word dur hs vs trig _ => exact unchanged (by cases vs <;> cases trig <;> rfl)
  | _ => exact unchanged rfl

/-- A port's registers as an instruction leaves them, whichever port it is. -/
theorem portAt_of_keepsPortRegs {i : Instr} {f : Port → Port} (hf : KeepsPortRegs i f) {s t : State}
    (ht : t.ports = (updPort s.port f s).ports) (p : Nat) :
    (portAt t p).cmd = (portAt s p).cmd ∧ (portAt t p).arg0 = (portAt s p).arg0 ∧
    (portAt t p).arg1 = (portAt s p).arg1 ∧ (portAt t p).arg2 = (portAt s p).arg2 ∧
    (i ∉ [.validate, .setMode, .getWidth, .getHeight, .getStride] →
      (portAt t p).result = (portAt s p).result) ∧
    (p ≠ s.port → portAt t p = portAt s p) := by
  have hport : portAt t p = portAt (updPort s.port f s) p := by rw [portAt, ht]; rfl
  rw [hport, portAt_updPort]
  split
  · next h =>
    obtain ⟨hcmd, h0, h1, h2, hres⟩ := hf (portAt s p)
    exact ⟨hcmd, h0, h1, h2, hres, fun hne => absurd h.1.symm hne⟩
  · exact ⟨rfl, rfl, rfl, rfl, fun _ => rfl, fun _ => rfl⟩

/-- No instruction writes STAGE, the hosts, the schedule or the platform. -/
theorem ChangesOnly.untouched {i : Instr} {s t : State} (h : ChangesOnly i s t) :
    t.stage = s.stage ∧ t.hosts = s.hosts ∧ t.sched = s.sched ∧ t.plat = s.plat := by
  cases i <;>
    exact ⟨(congrArg State.stage h :), (congrArg State.hosts h :), (congrArg State.sched h :),
      (congrArg State.plat h :)⟩

/-- Settles O51: each clause reads the field off the instruction's frame; the port clauses come from the one port it changes. -/
theorem whoWritesSharedState : Obligations.WhoWritesSharedState := by
  intro i s t he
  have h := (exec_cases he).changesOnly
  obtain ⟨f, hf, ht⟩ := (exec_cases he).ports
  have hport := portAt_of_keepsPortRegs hf ht
  obtain ⟨hstage, hhosts, hsched, hplat⟩ := h.untouched
  refine ⟨fun hi => ?_, fun hi => ?_, fun hi => ?_, fun hi => ?_, fun hi => ?_,
    fun hinit hcleanup hstart hstop => ?_, fun hinit hstart => ?_, fun hinit hwait => ?_,
    fun hi => ?_, fun hi p => ?_, fun hpixel hglyph hbulk => ?_, hstage, hhosts, hsched, hplat,
    by simp [ht], fun p => ?_⟩
  · cases i with
    | publish => exact absurd rfl hi
    | _ => exact (congrArg State.liveHandle h :)
  · cases i with
    | start => exact absurd rfl hi
    | _ => exact ⟨(congrArg State.frameHandle h :), (congrArg State.tch h :)⟩
  · cases i with
    | setMode => exact absurd rfl hi
    | _ => exact ⟨(congrArg State.mode h :), (congrArg State.modeValid h :),
        (congrArg State.progVis h :), (congrArg State.progBlank h :),
        (congrArg State.progVsync h :), (congrArg State.count h :),
        (congrArg State.pixwords h :)⟩
  · cases i with
    | setPlane => exact absurd rfl hi
    | _ => exact ⟨(congrArg State.plane h :), (congrArg State.planeValid h :)⟩
  · cases i with
    | setFont => exact absurd rfl hi
    | _ => exact ⟨(congrArg State.font h :), (congrArg State.fontValid h :)⟩
  · cases i with
    | init => exact absurd rfl hinit
    | cleanup => exact absurd rfl hcleanup
    | start => exact absurd rfl hstart
    | stop => exact absurd rfl hstop
    | _ => exact (congrArg State.engine h :)
  · cases i with
    | init => exact absurd rfl hinit
    | start => exact absurd rfl hstart
    | _ => exact (congrArg State.phase h :)
  · cases i with
    | init => exact absurd rfl hinit
    | waitFrame => exact absurd rfl hwait
    | _ => exact (congrArg State.token h :)
  · cases i with
    | tw => cases hi
    | _ => exact ⟨(congrArg State.hsync h :), (congrArg State.vsync h :),
        (congrArg State.executed h :), (congrArg State.tgen h :), (congrArg State.history h :)⟩
  · obtain ⟨_, _, _, _, hres, _⟩ := hport p
    exact hres hi
  · cases i with
    | setPixel op v => exact absurd rfl (hpixel op v)
    | drawGlyph op fg bg => exact absurd rfl (hglyph op fg bg)
    | drawGlyphBulk op fg bg => exact absurd rfl (hbulk op fg bg)
    | _ => exact (congrArg State.mem h :)
  · obtain ⟨hcmd, h0, h1, h2, _, hother⟩ := hport p
    exact ⟨hcmd, h0, h1, h2, hother⟩

/-! ### A refused host (R49) -/

theorem engineStep_hosts (s : State) : (engineStep s).hosts = s.hosts := by
  unfold engineStep
  split
  · unfold enterNextPhase
    split
    · rfl
    · rfl
    · rfl
    · split <;> rfl
  · rfl

theorem tchStep_hosts (s : State) : (tchStep s).hosts = s.hosts := by
  unfold tchStep
  split <;> rfl

theorem regWrite_hosts (r : Reg) (v : Word) (s : State) : (regWrite r v s).hosts = s.hosts := by
  cases r <;> rfl

theorem MemoryPathOnly.hosts {s t : State} (h : MemoryPathOnly s t) : t.hosts = s.hosts := by
  rw [h]

theorem exec_hosts {i : Instr} {s t : State} (h : exec i s = .next t) : t.hosts = s.hosts := by
  obtain ⟨_, hhosts, _⟩ := (exec_cases h).changesOnly.untouched
  exact hhosts

/-- What one agent's step does to the host contexts: nothing, the reset's abandoning of held commands, or a change of the host whose turn it is, which is then not refused. -/
inductive HostsTo (s u : State) : Prop where
  | same (h : u.hosts = s.hosts)
  | abandoned (h : u.hosts = s.hosts.map abandonHeld)
  | changed (g : Nat) (c : HostCtx) (hc : s.hosts[g]? = some c) (hs : c.status ≠ .refused)
      (h : ∀ j, g ≠ j → u.hosts[j]? = s.hosts[j]?)

theorem StepTo.hosts {s u : State} {a : Agent} (h : StepTo s a u) : HostsTo s u := by
  cases h with
  | idle => exact .same rfl
  | load h c v hc hs => exact .changed h c hc (by simp [hs]) fun j hj => by simp [hj]
  | goesOn h c hc hs _ => exact .changed h c hc (by simp [hs]) fun j hj => by simp [hj]
  | refuse h c hc hs =>
    exact .changed h c hc (by simp [hs]) fun j hj => by simp [refuseAccess, hj]
  | store h c r v hc hs _ =>
    exact .changed h c hc (by simp [hs]) fun j hj => by simp [regWrite_hosts, hj]
  | issued h c w i t hc hs _ _ he =>
    exact .changed h c hc (by simp [hs]) fun j hj => by simp [exec_hosts he, hj]
  | issuedIllegal h c w hc hs _ => exact .changed h c hc (by simp [hs]) fun j hj => by simp [hj]
  | retried h c i t hc hs _ he =>
    exact .changed h c hc (by simp [hs]) fun j hj => by simp [exec_hosts he, hj]
  | retriedIllegal h c hc hs _ => exact .changed h c hc (by simp [hs]) fun j hj => by simp [hj]
  | engine => exact .same (engineStep_hosts s)
  | tch => exact .same (tchStep_hosts s)
  | pch => exact .same (pchStep_memoryPathOnly s).hosts
  | pser => exact .same (pserStep_memoryPathOnly s).hosts
  | tgenIdle => exact .same rfl
  | tgenWord q qs i t _ _ he => exact .same (exec_hosts he :)
  | outside a v => exact .same (outsideStore_memoryPathOnly a v s).hosts
  | reset => exact .abandoned rfl

/-- The context of a refused host is left as it is. -/
theorem HostsTo.refused_stays {s u : State} (hu : HostsTo s u) {h : Nat} {c : HostCtx}
    (hc : s.hosts[h]? = some c) (hs : c.status = .refused) : u.hosts[h]? = some c := by
  cases hu with
  | same e => rw [e, hc]
  | abandoned e => simp [e, hc, abandonHeld, hs]
  | changed g d hd hds others =>
    have hne : g ≠ h := by
      rintro rfl
      rw [hc] at hd
      exact hds (Option.some.inj hd ▸ hs)
    rw [others h hne, hc]

/-- Taking the next turn, of the schedule or free, leaves the hosts as they are. -/
theorem nextTurn_hosts (s : State) : (nextTurn s).2.hosts = s.hosts := by
  unfold nextTurn
  split <;> rfl

/-- A refused host stays refused whatever steps (R49, log M18, M20). -/
theorem step_refused_stays {s u : State} {h : Nat} {c : HostCtx} (hc : s.hosts[h]? = some c)
    (hs : c.status = .refused) (hu : step s = .next u) : u.hosts[h]? = some c := by
  have hc' : (beginTurn (nextTurn s).1 (nextTurn s).2).hosts[h]? = some c := by
    rw [beginTurn_hosts, nextTurn_hosts, hc]
  exact (agentStep_cases hu).hosts.refused_stays hc' hs

/-- Settles O13: the refusal of the access, the turn of a refused host, and its permanence over every step. -/
theorem meaninglessAccessIsRefused : Obligations.MeaninglessAccessIsRefused := by
  refine ⟨fun s t rest h off width v ha hw => ?_, fun s t rest h c ht hc hs => ?_,
    fun s u h c hc hs hu => ⟨c, step_refused_stays hc hs hu, hs, rfl, rfl⟩⟩
  · have hl : accessLegal off width = false := by
      rw [Bool.eq_false_iff, Ne, accessLegal_iff]
      omega
    obtain ha | ha := ha
    · rw [step_of_accessOf ha, access_load_illegal h hl]
      rfl
    · rw [step_of_accessOf ha, access_store_illegal h hl]
      rfl
  · rw [step_of_turnOf ht]
    exact hostTurn_refused hc hs

end Sys2Proof.Machine

/-! PROOFS. The statements about memory: the drawing commands between their byte accesses, stores by outside agents, the ring addresses of the programs, and register loads. -/

namespace Sys2Proof.Machine

/-! ### A drawing command that passes its checks (R253, R305, R309) -/

theorem pixInBounds_iff (s : State) (x y : Nat) :
    pixInBounds s x y = true ↔ x < 4 * s.plane.stride.toNat ∧ y < s.plane.rows.toNat := by
  simp [pixInBounds]

/-- SET_PIXEL with a target and in bounds: it draws or, its byte not admitted, holds (R253, R80). -/
theorem exec_setPixel_inBounds (op : WriteOp) (v : Pixel) {s : State} (hp : s.planeValid = true)
    (hx : (arg0 s).toNat < 4 * s.plane.stride.toNat) (hy : (arg1 s).toNat < s.plane.rows.toNat) :
    exec (.setPixel op v) s =
      .next (if admits s (pixAddr s (arg0 s).toNat (arg1 s).toNat) = false then pending .memory s
        else drawPixel op v (arg0 s).toNat (arg1 s).toNat s) := by
  have hb := (pixInBounds_iff s _ _).mpr ⟨hx, hy⟩
  simp only [exec, execSetPixel, hp, hb, Bool.true_eq_false, if_false, holdOn_eq_pending]
  split <;> rfl

/-- SET_PIXEL with its preconditions draws its pixel (R253). -/
theorem exec_setPixel_ready (op : WriteOp) (v : Pixel) {s : State} (h : PixelReady s) :
    exec (.setPixel op v) s = .next (drawPixel op v (arg0 s).toNat (arg1 s).toNat s) := by
  obtain ⟨hp, hx, hy, ha⟩ := h
  rw [exec_setPixel_inBounds op v hp hx hy, if_neg (by simp [ha])]

/-- A glyph command that passes R305: it draws or, one of its bytes not admitted, holds (R309). -/
theorem glyphChecked_passed {s : State} {x y g : Nat} (hp : s.planeValid = true)
    (hf : s.fontValid = true) (hg : g ≤ 255) (hx : x + s.font.cw.toNat - 1 < 4 * s.plane.stride.toNat)
    (hy : y + s.font.ch.toNat - 1 < s.plane.rows.toNat) (draw : State → State) :
    glyphChecked x y g draw s =
      if admitsAll s (glyphFontBytes s g ++ glyphPlaneBytes s x y) = false then pending .memory s
      else draw s := by
  have hb : pixInBounds s (x + fontCw s - 1) (y + fontCh s - 1) = true :=
    (pixInBounds_iff s _ _).mpr ⟨hx, hy⟩
  simp only [glyphChecked, hp, hf, hb, Bool.true_eq_false, or_self, if_false, if_neg hg.not_gt,
    holdOn_eq_pending]

theorem admitsAll_iff (s : State) (as : List Word) :
    admitsAll s as = true ↔ ∀ a ∈ as, admits s a = true := List.all_eq_true

/-- A glyph command with targets and operands ready draws its cell (R306, R308). -/
theorem glyphChecked_ready {s : State} {x y g : Nat} (ht : TargetsReady s) (hr : GlyphReady s x y g)
    (draw : State → State) : glyphChecked x y g draw s = draw s := by
  obtain ⟨hp, hf, -⟩ := ht
  obtain ⟨hg, hx, hy, ha⟩ := hr
  rw [glyphChecked_passed hp hf hg hx hy, if_neg (by simp [(admitsAll_iff s _).mpr ha])]

theorem admitsAll_eq_false_iff (s : State) (as : List Word) :
    admitsAll s as = false ↔ ∃ a ∈ as, admits s a = false := by
  simp only [← Bool.not_eq_true, admitsAll_iff, not_forall, exists_prop]

/-- Settles O24: past its checks each command is its drawing, which keeps to the memory path whatever the interleaving. -/
theorem drawingTouchesOnlyTheMemoryPath : Obligations.DrawingTouchesOnlyTheMemoryPath := by
  refine fun op fg bg s => ⟨fun h => ?_, fun ht hr => ⟨?_, ?_⟩⟩
  · exact ⟨_, exec_setPixel_ready op fg h, drawPixel_memoryPathOnly _ _ _ _ s⟩
  · exact ⟨_, congrArg Host.Outcome.next (glyphChecked_ready ht hr _),
      drawCell_memoryPathOnly _ _ _ _ _ _ s⟩
  · exact ⟨_, congrArg Host.Outcome.next (glyphChecked_ready ht hr _),
      drawCellBulk_memoryPathOnly _ _ _ _ _ _ s⟩

/-- Settles O32: past the checks the one way left is the hold. -/
theorem inadmissibleDrawingHolds : Obligations.InadmissibleDrawingHolds := by
  refine fun op fg bg s hp => ⟨fun hx hy ha => ?_, fun hf hg hx hy ha => ?_⟩
  · rw [exec_setPixel_inBounds op fg hp hx hy, if_pos ha]
  · have holds (draw : State → State) :=
      (glyphChecked_passed hp hf hg hx hy draw).trans (if_pos ((admitsAll_eq_false_iff s _).mpr ha))
    exact ⟨congrArg Host.Outcome.next (holds _), congrArg Host.Outcome.next (holds _)⟩

/-! ### Stores by agents outside the block (R87, R410) -/

/-- The register window is the page of REG_BASE (R35). -/
theorem inWindow_iff (s : State) (a : Word) :
    inWindow s a = true ↔ a.toNat / 0x200 = s.plat.regPage.toNat := by
  have hpage : (a.extractLsb' 9 23).toNat = a.toNat / 0x200 := by
    rw [BitVec.extractLsb'_toNat, Nat.shiftRight_eq_div_pow]
    exact Nat.mod_eq_of_lt (by omega)
  rw [inWindow, beq_iff_eq, ← BitVec.toNat_inj, hpage]

theorem outsideStore_window {s : State} {a : Word} (h : a.toNat / 0x200 = s.plat.regPage.toNat)
    (v : Byte) : outsideStore a v s = { s with refusalMark := true } :=
  if_pos ((inWindow_iff s a).mpr h)

theorem outsideStore_memory {s : State} {a : Word} (h : a.toNat / 0x200 ≠ s.plat.regPage.toNat)
    (v : Byte) : outsideStore a v s = { s with mem := Memory.write s.mem a.toNat v } :=
  if_neg (mt (inWindow_iff s a).mp h)

theorem step_outside {s : State} {t : Turn} {rest : List Turn} {a : Word} {v : Byte}
    (ht : TurnOf s t rest (.outside a v)) :
    step s = .next (outsideStore a v (turnTaken s t rest)) := step_of_turnOf ht

/-! ### What comes between SET_PIXEL's read and its write (R87 item 2) -/

theorem pixAddr_pixelTarget (s : State) :
    (pixAddr s (arg0 s).toNat (arg1 s).toNat).toNat = pixelTarget s :=
  BitVec.toNat_ofNat _ _

/-- Whatever the interleaving, the byte written is what the operator makes of the byte read (R253). -/
theorem drawPixel_read_target (op : WriteOp) (v : Pixel) (x y : Nat) (s : State) :
    Memory.read (drawPixel op v x y s).mem (pixAddr s x y).toNat =
      applyOp op (busRead (pixAddr s x y) s).1 (pixShift x) v :=
  Memory.read_write_same _ _ _

/-- With nothing before it, an access reads memory as it stands. -/
theorem busRead_of_nothing_before {s : State} {later : List (List Intrusion)}
    (h : s.mid = [] :: later) (a : Word) : (busRead a s).1 = Memory.read s.mem a.toNat := by
  simp [busRead, takeIntrusions, h]

/-- Settles O27: the turn is the outside store on either side of the window's bounds; the lost update is the write of the operator's answer to the byte read before. -/
theorem outsideStoreBetweenIsLost : Obligations.OutsideStoreBetweenIsLost := by
  refine ⟨fun s t rest a b ht => ⟨fun hw => ?_, fun hw => ?_⟩, fun op v b s hr hm => ?_⟩
  · rw [step_outside ht, outsideStore_window (s := turnTaken s t rest) hw]
  · rw [step_outside ht, outsideStore_memory (s := turnTaken s t rest) hw]
    exact ⟨_, rfl, rfl, Memory.read_write_same _ _ _, fun x hx => Memory.read_write_ne _ _ hx⟩
  · refine ⟨_, exec_setPixel_ready op v hr, ?_⟩
    rw [← pixAddr_pixelTarget, drawPixel_read_target, busRead_of_nothing_before hm, pixShift]

/-! ### The ring address of a program (R86) -/

/-- A base that is a multiple of the ring's size 2^k does not meet the masked index: their OR is their sum. -/
theorem ringOffset_toNat_of_base {q : Program} {k b : Nat} (hk : k ≤ 9)
    (hbase : (programBase q).toNat = 2 ^ k * b)
    (hmask : (programSize q - 1#9).toNat = 2 ^ k - 1) (i : Nat) :
    (ringOffset q i).toNat = (programBase q).toNat + 4 * i % 2 ^ k := by
  rw [ringOffset, BitVec.toNat_or, BitVec.toNat_and, hbase, hmask, BitVec.toNat_ofNat,
    Nat.and_two_pow_sub_one_eq_mod, Nat.mod_mod_of_dvd _ (Nat.pow_dvd_pow 2 hk),
    Nat.two_pow_add_eq_or_of_lt (Nat.mod_lt _ (Nat.two_pow_pos k))]

theorem ringOffset_toNat {q : Program} (hq : q ≠ .none) (i : Nat) :
    (ringOffset q i).toNat = (programBase q).toNat + 4 * (i % programLength q) := by
  rw [← Nat.mul_mod_mul_left]
  cases q with
  | none => exact absurd rfl hq
  | vsync => exact ringOffset_toNat_of_base (k := 3) (b := 19) (by omega) rfl rfl i
  | blank => exact ringOffset_toNat_of_base (k := 3) (b := 18) (by omega) rfl rfl i
  | vis => exact ringOffset_toNat_of_base (k := 4) (b := 8) (by omega) rfl rfl i

/-- A word of a program or a count, read by an index it has, is that word. -/
theorem some_getD_vector {n k : Nat} (xs : Vector Word n) (hk : k < n) :
    some (xs[k]?.getD 0) = xs[k]? := by
  simp [hk]

/-- Settles O43: the ring address is that of the word in the register map, whose region says what is read. -/
theorem ringStaysInItsProgram : Obligations.RingStaysInItsProgram := by
  intro s i
  have hvis := ringOffset_toNat (q := .vis) (by decide) i
  have hblank := ringOffset_toNat (q := .blank) (by decide) i
  have hvsync := ringOffset_toNat (q := .vsync) (by decide) i
  have h4 := Nat.mod_lt i (show 4 > 0 by omega)
  have h2 := Nat.mod_lt i (show 2 > 0 by omega)
  refine ⟨hvis, hblank, hvsync, ?_, ?_, ?_⟩
  · rw [programWord, regAt_progVis h4 hvis]
    exact some_getD_vector _ h4
  · rw [programWord, regAt_progBlank h2 hblank]
    exact some_getD_vector _ h2
  · rw [programWord, regAt_progVsync h2 hvsync]
    exact some_getD_vector _ h2

/-! ### Register loads (R88) -/

/-- Field k of a descriptor is entry k in R13's order (R37, R42). -/
theorem some_descField {k : Nat} (hk : k < 8) (m : ModeDesc) :
    some (descField m k) = (fieldsInOrder m)[k]? := by
  interval_cases k <;> rfl

/-- Word r of port p's bank reads that register of the port (R35, R52). -/
theorem regRead_portBank {s : State} {p r : Nat} {q : Port} {off : RegOffset}
    (hq : s.ports[p]? = some q) (hr : r < 8) (ho : off.toNat = 0x100 + 0x20 * p + 4 * r) :
    regRead s (regAt s.ports.length off) = regRead s (portReg p r) := by
  obtain ⟨hp, -⟩ := List.getElem?_eq_some_iff.mp hq
  rw [regAt_portBank hr ho, if_pos hp]

theorem portAt_of_getElem? {s : State} {p : Nat} {q : Port} (hq : s.ports[p]? = some q) :
    portAt s p = q := by
  simp [portAt, hq]

/-- Settles O12: a load's step, and the register each offset names, read region by region of the map. -/
theorem loadsHaveNoSideEffect : Obligations.LoadsHaveNoSideEffect := by
  intro s t rest h off ha hal
  have fixed (o : RegOffset) (ho : off.toNat = o.toNat) :
      regRead s (regAt s.ports.length off) = regRead s (regAt s.ports.length o) := by
    rw [BitVec.eq_of_toNat_eq ho]
  refine ⟨_, step_load ha hal, fixed 0x000#9, fixed 0x004#9, fixed 0x008#9, fixed 0x00C#9,
    fixed 0x010#9, fixed 0x014#9, fixed 0x018#9, fixed 0x020#9, fixed 0x024#9, fixed 0x028#9,
    fun k hk ho => ?_, fun k hk ho => ?_, fun k hk ho => ?_, fun k hk ho => ?_, fun k hk ho => ?_,
    fun k hk ho => ?_, fun p q hq => ?_⟩
  · rw [regAt_stage hk ho]; exact some_descField hk _
  · rw [regAt_mode hk ho]; exact some_descField hk _
  · rw [regAt_progVis hk ho]; exact some_getD_vector _ hk
  · rw [regAt_progBlank hk ho]; exact some_getD_vector _ hk
  · rw [regAt_progVsync hk ho]; exact some_getD_vector _ hk
  · rw [regAt_count hk ho]; exact some_getD_vector _ hk
  · have bank (r : Nat) (hr : r < 8) := regRead_portBank (off := off) hq hr
    rw [← portAt_of_getElem? hq]
    exact ⟨fun ho => bank 0 (by omega) ho, fun ho => bank 1 (by omega) (by omega),
      fun ho => bank 2 (by omega) (by omega), fun ho => bank 3 (by omega) (by omega),
      fun ho => bank 4 (by omega) (by omega)⟩

end Sys2Proof.Machine

/-! PROOFS. The statements about the encodings: the two decoders read back what the encoder lays out and accept nothing else, and what a word they refuse does. -/

namespace Sys2Proof.Machine

/-! ### The fields of an assembled command word (R116) -/

theorem cwAssemble_fields (opc : BitVec 8) (op v bg : BitVec 2) :
    cwRsv (cwAssemble opc op v bg) = 0#18 ∧ cwOpc (cwAssemble opc op v bg) = opc ∧
    cwOp (cwAssemble opc op v bg) = op ∧ cwV (cwAssemble opc op v bg) = v ∧
    cwBg (cwAssemble opc op v bg) = bg := by
  refine ⟨?_, ?_, ?_, ?_, ?_⟩
  all_goals
    simp (disch := decide) only [cwAssemble, cwRsv, cwOpc, cwOp, cwV, cwBg,
      BitVec.extractLsb'_append_eq_of_le, BitVec.extractLsb'_append_eq_of_add_le]
    exact BitVec.extractLsb'_eq_self

theorem writeOpOf_writeOpField (o : WriteOp) : writeOpOf (writeOpField o) = some o := by
  cases o <;> rfl

/-! ### What the decoders accept -/

/-- The fields of a command word with RSV = 0 are those of the command i: its row of the opcode map, an operator where the row uses OP, and 0 in every field the row does not use (R116 to R119). -/
inductive CommandFields (opc : BitVec 8) (op v bg : BitVec 2) : Instr → Prop where
  | bare (i : Instr) (hrow : opcodeRow opc.toNat = some (.bare i))
      (hzero : op = 0#2 ∧ v = 0#2 ∧ bg = 0#2) : CommandFields opc op v bg i
  | pixel (o : WriteOp) (hrow : opcodeRow opc.toNat = some .pixel) (hbg : bg = 0#2)
      (hop : writeOpOf op = some o) : CommandFields opc op v bg (.setPixel o v)
  | glyph (o : WriteOp) (hrow : opcodeRow opc.toNat = some .glyph)
      (hop : writeOpOf op = some o) : CommandFields opc op v bg (.drawGlyph o v bg)
  | glyphBulk (o : WriteOp) (hrow : opcodeRow opc.toNat = some .glyphBulk)
      (hop : writeOpOf op = some o) : CommandFields opc op v bg (.drawGlyphBulk o v bg)

/-- The command decoder accepts a word exactly where RSV is 0 and the other fields are a command's, and reads that command (R120). -/
theorem decodeCommand_eq_ok_iff (w : Word) (i : Instr) :
    decodeCommand w = .ok i ↔
      cwRsv w = 0#18 ∧ CommandFields (cwOpc w) (cwOp w) (cwV w) (cwBg w) i := by
  constructor
  · intro h
    unfold decodeCommand at h
    split at h
    · cases h
    next hrsv =>
    refine ⟨not_not.mp hrsv, ?_⟩
    split at h
    · cases h
    · next hrow =>
      split at h
      · next hzero => cases h; exact .bare _ hrow hzero
      · cases h
    · next hrow =>
      split at h
      · cases h
      next hbg =>
      split at h
      · cases h
      · next hop => cases h; exact .pixel _ hrow (not_not.mp hbg) hop
    · next hrow =>
      split at h
      · cases h
      · next hop => cases h; exact .glyph _ hrow hop
    · next hrow =>
      split at h
      · cases h
      · next hop => cases h; exact .glyphBulk _ hrow hop
  · rintro ⟨hrsv, hw⟩
    cases hw with
    | bare _ hrow hzero => simp [decodeCommand, hrsv, hrow, hzero]
    | pixel o hrow hbg hop => simp [decodeCommand, hrsv, hrow, hbg, hop]
    | glyph o hrow hop => simp [decodeCommand, hrsv, hrow, hop]
    | glyphBulk o hrow hop => simp [decodeCommand, hrsv, hrow, hop]

/-- The word laid out from a command's fields is read as that command (R116). -/
theorem decodeCommand_cwAssemble {opc : BitVec 8} {op v bg : BitVec 2} {i : Instr}
    (h : CommandFields opc op v bg i) : decodeCommand (cwAssemble opc op v bg) = .ok i := by
  obtain ⟨hrsv, hopc, hop, hv, hbg⟩ := cwAssemble_fields opc op v bg
  rw [decodeCommand_eq_ok_iff, hopc, hop, hv, hbg]
  exact ⟨hrsv, h⟩

/-- The timing decoder accepts a word exactly where RSV is 0, and reads its fields (R112, log M28). -/
theorem decodeTiming_eq_ok_iff (w : Word) (i : Instr) :
    decodeTiming w = .ok i ↔
      twRsv w = 0#13 ∧ .tw (twDur w) (twHs w) (twVs w) (twTrig w) = i := by
  unfold decodeTiming
  split
  · next h => simp [h]
  · next h => simp [not_not.mp h]

/-! ### Decode of encode (R112, R116, R118) -/

/-- A command without fields is read from the word of its opcode alone (R118, R119). -/
theorem decodeCommand_encode_bare {opc : BitVec 8} {i : Instr}
    (h : opcodeRow opc.toNat = some (.bare i)) : decodeCommand (encode i) = .ok i := by
  obtain ⟨-, he⟩ := opcodeRow_bare h
  rw [he]
  exact decodeCommand_cwAssemble (.bare i h ⟨rfl, rfl, rfl⟩)

theorem decodeTiming_encode_tw (dur : BitVec 16) (hs vs trig : Bool) :
    decodeTiming (encode (.tw dur hs vs trig)) = .ok (.tw dur hs vs trig) := by
  rw [decodeTiming_eq_ok_iff, encode, twRsv_assemble, twDur_assemble, twHs_assemble,
    twVs_assemble, twTrig_assemble]
  exact ⟨rfl, rfl⟩

/-- Settles O2: every command's fields are those its word is laid out from; a timing word is read field by field, with DUR = 0 too (log M28). -/
theorem decodeOfEncode : Obligations.DecodeOfEncode := by
  intro i _
  cases i with
  | init => exact decodeCommand_encode_bare (opc := 0x01#8) rfl
  | cleanup => exact decodeCommand_encode_bare (opc := 0x02#8) rfl
  | validate => exact decodeCommand_encode_bare (opc := 0x03#8) rfl
  | setMode => exact decodeCommand_encode_bare (opc := 0x04#8) rfl
  | start => exact decodeCommand_encode_bare (opc := 0x05#8) rfl
  | stop => exact decodeCommand_encode_bare (opc := 0x06#8) rfl
  | publish => exact decodeCommand_encode_bare (opc := 0x07#8) rfl
  | waitFrame => exact decodeCommand_encode_bare (opc := 0x08#8) rfl
  | getWidth => exact decodeCommand_encode_bare (opc := 0x09#8) rfl
  | getHeight => exact decodeCommand_encode_bare (opc := 0x0A#8) rfl
  | getStride => exact decodeCommand_encode_bare (opc := 0x0B#8) rfl
  | setPlane => exact decodeCommand_encode_bare (opc := 0x10#8) rfl
  | setFont => exact decodeCommand_encode_bare (opc := 0x18#8) rfl
  | setPixel o v =>
    exact decodeCommand_cwAssemble (.pixel o rfl rfl (writeOpOf_writeOpField o))
  | drawGlyph o fg bg =>
    exact decodeCommand_cwAssemble (.glyph o rfl (writeOpOf_writeOpField o))
  | drawGlyphBulk o fg bg =>
    exact decodeCommand_cwAssemble (.glyphBulk o rfl (writeOpOf_writeOpField o))
  | tw dur hs vs trig => exact decodeTiming_encode_tw dur hs vs trig

/-- Settles O1: each sample word, decoded. -/
theorem sampleWordsDecode : Obligations.SampleWordsDecode := by
  unfold Obligations.SampleWordsDecode
  decide

/-! ### Encode of decode (R112, R116, R118) -/

/-- The encoder lays out a command from the fields it is read from (R116). -/
theorem CommandFields.encode_eq {opc : BitVec 8} {op v bg : BitVec 2} {i : Instr}
    (h : CommandFields opc op v bg i) :
    i.isCommand = true ∧ encode i = cwAssemble opc op v bg := by
  cases h with
  | bare _ hrow hzero =>
    obtain ⟨rfl, rfl, rfl⟩ := hzero
    exact opcodeRow_bare hrow
  | pixel o hrow hbg hop =>
    subst hbg
    exact ⟨rfl, by rw [encode, opcodeRow_pixel hrow, writeOp_field hop]; rfl⟩
  | glyph o hrow hop => exact ⟨rfl, by rw [encode, opcodeRow_glyph hrow, writeOp_field hop]⟩
  | glyphBulk o hrow hop => exact ⟨rfl, by rw [encode, opcodeRow_bulk hrow, writeOp_field hop]⟩

theorem encode_of_decodeTiming {w : Word} {i : Instr} (h : decodeTiming w = .ok i) :
    i.isCommand = false ∧ encode i = w := by
  obtain ⟨hrsv, rfl⟩ := (decodeTiming_eq_ok_iff w i).mp h
  exact ⟨rfl, tw_split w hrsv⟩

/-- Settles O3: an accepted word has RSV = 0, and is then put together from the fields the encoder lays out again. -/
theorem encodeOfDecode : Obligations.EncodeOfDecode := by
  refine fun w i => ⟨fun h => ?_, encode_of_decodeTiming⟩
  obtain ⟨hrsv, hfields⟩ := (decodeCommand_eq_ok_iff w i).mp h
  obtain ⟨hcommand, he⟩ := hfields.encode_eq
  exact ⟨hcommand, he.trans (cw_split w hrsv)⟩

/-! ### Illegal command words (R120) -/

/-- The fields above OPC, RSV aside, are 0 together exactly where bits 13 to 8 are (R116). -/
theorem cw_unused_eq_zero_iff (w : Word) :
    (cwOp w = 0#2 ∧ cwV w = 0#2 ∧ cwBg w = 0#2) ↔ w.toNat / 256 % 64 = 0 := by
  simp only [← BitVec.toNat_inj, cwOp_toNat, cwV_toNat, cwBg_toNat, BitVec.toNat_ofNat]
  omega

/-- OP names an operator exactly where it is not 3 (R116, R117). -/
theorem cwOp_names_operator_iff (w : Word) :
    (∃ o, writeOpOf (cwOp w) = some o) ↔ w.toNat / 256 % 4 ≠ 3 := by
  rw [← Option.ne_none_iff_exists', Ne, writeOpOf_none_iff, cwOp_toNat]

/-- Which fields are a command's, row by row of the opcode map, as arithmetic on the word (R118). -/
theorem exists_commandFields_iff (w : Word) :
    (∃ i, CommandFields (cwOpc w) (cwOp w) (cwV w) (cwBg w) i) ↔
      (w.toNat % 256 ∈ [0x01, 0x02, 0x03, 0x04, 0x05, 0x06, 0x07, 0x08, 0x09, 0x0A, 0x0B,
        0x10, 0x18] ∧ w.toNat / 256 % 64 = 0) ∨
      (w.toNat % 256 = 0x11 ∧ w.toNat / 4096 % 4 = 0 ∧ w.toNat / 256 % 4 ≠ 3) ∨
      ((w.toNat % 256 = 0x19 ∨ w.toNat % 256 = 0x1A) ∧ w.toNat / 256 % 4 ≠ 3) := by
  have hunused : cwBg w = 0#2 ↔ w.toNat / 4096 % 4 = 0 := by
    rw [← BitVec.toNat_inj, cwBg_toNat]; rfl
  rw [← cwOpc_toNat, ← opcodeRow_bare_iff, ← opcodeRow_pixel_iff, ← opcodeRow_glyph_iff,
    ← opcodeRow_bulk_iff, ← cw_unused_eq_zero_iff, ← hunused, ← cwOp_names_operator_iff]
  constructor
  · rintro ⟨i, h⟩
    cases h with
    | bare _ hrow hzero => exact .inl ⟨⟨i, hrow⟩, hzero⟩
    | pixel o hrow hbg hop => exact .inr (.inl ⟨hrow, hbg, o, hop⟩)
    | glyph o hrow hop => exact .inr (.inr ⟨.inl hrow, o, hop⟩)
    | glyphBulk o hrow hop => exact .inr (.inr ⟨.inr hrow, o, hop⟩)
  · rintro (⟨⟨i, hrow⟩, hzero⟩ | ⟨hrow, hbg, o, hop⟩ | ⟨hrow | hrow, o, hop⟩)
    · exact ⟨i, .bare i hrow hzero⟩
    · exact ⟨_, .pixel o hrow hbg hop⟩
    · exact ⟨_, .glyph o hrow hop⟩
    · exact ⟨_, .glyphBulk o hrow hop⟩

theorem illegalCommandWord_iff_refused (w : Word) :
    IllegalCommandWord w ↔ ∀ i, decodeCommand w ≠ .ok i := by
  have hrsv : cwRsv w = 0#18 ↔ w.toNat / 16384 = 0 := by
    rw [← BitVec.toNat_inj, cwRsv_toNat]; rfl
  rw [← not_exists]
  simp only [decodeCommand_eq_ok_iff, exists_and_left]
  rw [exists_commandFields_iff, hrsv, IllegalCommandWord]
  simp only [List.mem_cons, List.not_mem_nil, or_false]
  omega

/-- A command word the decoder refuses is F_OPCODE (R120). -/
theorem perform_of_refused {w : Word} (hw : ∀ i, decodeCommand w ≠ .ok i) (p : Nat) (s : State) :
    perform p w s = .next (faulted .opcode { s with port := p }) := by
  unfold perform
  split
  · next i hd => exact absurd hd (hw i)
  · rfl

/-- A host whose port has no command pending goes on (R53). -/
theorem settle_of_hold_none {s : State} {h : Nat} (hh : (portAt s h).hold = none) :
    settle h s = updHost h (fun c => { c with status := .ready }) s := by
  simp [settle, hh]

/-- A fault completes the issuing port's CMD store (R432). -/
theorem portAt_faulted_hold {s : State} (hp : s.port < s.ports.length) (c : FaultCode) :
    (portAt (faulted c s) s.port).hold = none :=
  congrArg Port.hold (portAt_updPort_same (fun q => { q with hold := none }) hp)

/-- HOST[h] issuing a refused word: F_OPCODE where no fault is recorded yet, the word in CMD, nothing pending, and the host goes on (R53, R120, R432). -/
theorem issue_of_refused {w : Word} (hw : ∀ i, decodeCommand w ≠ .ok i) {h : Nat} {s : State}
    (hp : h < s.ports.length) :
    issue h w s = .next { s with
      port := h
      fault := if s.fault = .none then .opcode else s.fault
      ports := s.ports.modify h (fun q => { q with cmd := w, hold := none })
      hosts := s.hosts.modify h (fun c => { c with status := .ready }) } := by
  rw [issue, perform_of_refused hw, mapNext_next, settle_of_hold_none]
  · simp only [updHost, faulted, updPort, List.modify_modify_eq]
    rfl
  · exact portAt_faulted_hold (by simpa using hp) .opcode

/-- Settles O4: the refused words by arithmetic on their fields; the step is the host's issue of a refused word. -/
theorem illegalCommandWordsFault : Obligations.IllegalCommandWordsFault := by
  intro w
  have refused := illegalCommandWord_iff_refused w
  refine ⟨refused, fun hw => perform_of_refused (refused.mp hw),
    fun hw s t rest h off ha hp ho hh => ?_⟩
  rw [step_store_cmd ha hp ho, storeCommand_own (s := turnTaken s t rest) hh]
  exact issue_of_refused (s := takeAccess h (turnTaken s t rest)) (refused.mp hw) hp

/-! ### Illegal timing words (R114, R210) -/

theorem twDur_toNat (w : Word) : (twDur w).toNat = w.toNat % 65536 := by
  simp [twDur, BitVec.extractLsb'_toNat]

theorem twRsv_toNat (w : Word) : (twRsv w).toNat = w.toNat / 524288 := by
  rw [twRsv, BitVec.extractLsb'_toNat, Nat.shiftRight_eq_div_pow]
  exact Nat.mod_eq_of_lt (by omega)

theorem exec_tw_dur_zero (hs vs trig : Bool) (s : State) :
    exec (.tw 0#16 hs vs trig) s = .fault (.illegalTimingWord (encode (.tw 0#16 hs vs trig))) :=
  rfl

/-- A word with RSV != 0 does not decode, and one with DUR = 0 decodes to a TW that stops: either way TGEN stops on it. -/
theorem executeWord_illegal {w : Word} (hw : w.toNat % 65536 = 0 ∨ w.toNat / 524288 ≠ 0)
    (s : State) : executeWord w s = .fault (.illegalTimingWord w) := by
  unfold executeWord
  split
  · next i hd =>
    obtain ⟨-, he⟩ := encode_of_decodeTiming hd
    obtain ⟨hrsv, rfl⟩ := (decodeTiming_eq_ok_iff w i).mp hd
    have hdur : twDur w = 0#16 := by
      have hr := congrArg BitVec.toNat hrsv
      rw [twRsv_toNat] at hr
      exact BitVec.eq_of_toNat_eq ((twDur_toNat w).trans (hw.resolve_right (not_not.mpr hr)))
    rw [hdur] at he ⊢
    rw [exec_tw_dur_zero, he]
  · rfl

/-- Settles O45: TW's own stop, and the turn of TGEN as the execution of its head word. -/
theorem illegalTimingWordStops : Obligations.IllegalTimingWordStops := by
  refine ⟨exec_tw_dur_zero, fun s t rest q qs ht hf hw => ?_⟩
  have hf' : (turnTaken s t rest).tgen.fifo = q :: qs := hf
  rw [step_of_turnOf ht]
  simp only [agentStep, tgenTurn, hf']
  exact executeWord_illegal hw _

end Sys2Proof.Machine

/-! PROOFS. The statements about the mode: VALIDATE's verdict, what SET_MODE replaces and when it fails, the geometry queries, and the ranges of what the compiler emits. -/

namespace Sys2Proof.Machine

/-! ### The validator's verdict (R158) -/

theorem exec_validate_valid {s : State} (h : validate s.stage = true) :
    exec .validate s = .next (withResult 1#32 s) := by
  simp [exec, execValidate, h, boolWord, setResult_eq_withResult]

theorem exec_validate_invalid {s : State} (h : validate s.stage = false) :
    exec .validate s = .next (withResult 0#32 s) := by
  simp [exec, execValidate, h, boolWord, setResult_eq_withResult]

/-- Settles O14: validate is the conjunction of the five invariants, and its value is all that is written. -/
theorem validateWritesItsVerdict : Obligations.ValidateWritesItsVerdict := by
  refine ⟨by decide, fun s =>
    ⟨fun h => exec_validate_valid ((validate_iff _).mpr h), fun h => exec_validate_invalid ?_⟩⟩
  rwa [Bool.eq_false_iff, Ne, validate_iff]

/-! ### What SET_MODE replaces (R160, R207) -/

theorem engineBusy_iff (s : State) :
    engineBusy s = true ↔ s.engine = .running ∨ s.engine = .stopping := by
  simp [engineBusy]

theorem engineBusy_eq_false {s : State} (h : s.engine = .uninit ∨ s.engine = .idle) :
    engineBusy s = false := by
  obtain h | h := h <;> simp [engineBusy, h]

theorem exec_setMode_accepted {s : State} (hb : engineBusy s = false)
    (ha : accepted s.stage = true) :
    exec .setMode s = .next (withResult 1#32 (applyMode s)) := by
  simp [exec, execSetMode, hb, ha, boolWord, setResult_eq_withResult]

theorem exec_setMode_refused {s : State} (h : engineBusy s = true ∨ accepted s.stage = false) :
    exec .setMode s = .next (withResult 0#32 s) := by
  obtain h | h := h <;> simp [exec, execSetMode, h, boolWord, setResult_eq_withResult]

/-- A difference of two words that does not borrow is the difference of their numbers. -/
theorem ofNat_toNat_sub {a b : Word} (h : b.toNat ≤ a.toNat) :
    BitVec.ofNat 32 (a.toNat - b.toNat) = a - b := by
  rw [← BitVec.ofNat_sub_ofNat_of_le _ _ b.isLt h, BitVec.ofNat_toNat, BitVec.ofNat_toNat,
    BitVec.setWidth_eq, BitVec.setWidth_eq]

/-- The line counts of an encodable descriptor are differences of its words (R207). -/
theorem compileCounts_eq {m : ModeDesc} (he : EncodableDescriptor m) :
    compileCounts m = #v[m.nVsync, m.lStart - m.nVsync, m.vVis,
      m.nLines - m.lStart - m.vVis] := by
  obtain ⟨-, -, hstart, hlines, -⟩ := he
  have hporch : (m.nLines - m.lStart).toNat = m.nLines.toNat - m.lStart.toNat :=
    BitVec.toNat_sub_of_le (by rw [BitVec.le_def]; omega)
  rw [compileCounts, ofNat_toNat_sub (by omega), ← hporch, ofNat_toNat_sub (by omega)]

/-- A row holds one transfer word for 16 pixels (R155). -/
theorem pixWords_eq (m : ModeDesc) : pixWords m = m.vVis.toNat * (m.hVis.toNat / 16) := by
  rw [pixWords, strideBytes, Nat.mul_div_cancel _ (by decide)]

/-- Settles O15: the descriptor is accepted, and the counts and the transfer length are the statement's in other words. -/
theorem setModeApplies : Obligations.SetModeApplies := by
  intro s hs hv he
  rw [exec_setMode_accepted (engineBusy_eq_false hs) ((accepted_iff _).mpr ⟨hv, he⟩), applyMode,
    compileCounts_eq he, pixWords_eq]

/-- Settles O16: frames in flight, or a descriptor that is not accepted. -/
theorem setModeFailsWhole : Obligations.SetModeFailsWhole := by
  intro s h
  apply exec_setMode_refused
  rw [engineBusy_iff, Bool.eq_false_iff, Ne, accepted_iff]
  tauto

/-! ### The geometry queries (R163 to R165) -/

theorem geometryQuery_mode {s : State} (h : s.modeValid = true) (v : Word) :
    geometryQuery v s = withResult v s := by
  simp [geometryQuery, h, setResult_eq_withResult]

theorem geometryQuery_noMode {s : State} (h : s.modeValid = false) (v : Word) :
    geometryQuery v s = faulted .noMode s := by
  simp [geometryQuery, h, raiseFault_eq_faulted]

/-- Settles O17: the three commands are one query, of three numbers. -/
theorem geometryQueries : Obligations.GeometryQueries := by
  refine ⟨by decide, by decide, by decide, fun s => ⟨fun h => ?_, fun h => ?_⟩⟩
  · simp [exec, execGetWidth, execGetHeight, execGetStride, strideBytes, geometryQuery_mode h]
  · simp [exec, execGetWidth, execGetHeight, execGetStride, geometryQuery_noMode h]

/-! ### The ranges of what the compiler emits (R157, R207) -/

/-- The line counts as numbers (R207): each fits its word. -/
theorem compileCounts_toNat (m : ModeDesc) :
    (compileCounts m).toList.map BitVec.toNat = [m.nVsync.toNat, m.lStart.toNat - m.nVsync.toNat,
      m.vVis.toNat, m.nLines.toNat - m.lStart.toNat - m.vVis.toNat] := by
  simp (disch := omega) [compileCounts, Nat.mod_eq_of_lt]

theorem compileCounts_range {m : ModeDesc} (he : EncodableDescriptor m) :
    ∀ c ∈ (compileCounts m).toList, 1 ≤ c.toNat ∧ c.toNat ≤ 65535 := by
  have hc := compileCounts_toNat m
  obtain ⟨hvis, hsync, hstart, hlines, -, -, -, -, -, hmax⟩ := he
  intro c hm
  have hn := List.mem_map_of_mem (f := BitVec.toNat) hm
  rw [hc] at hn
  simp only [List.mem_cons, List.not_mem_nil, or_false] at hn
  omega

/-- A timing word whose DUR is in 1..65535 (R157). -/
def DurInRange (w : Word) : Prop := 1 ≤ (twDur w).toNat ∧ (twDur w).toNat ≤ 65535

theorem durInRange_twWord {dur : Nat} (h : 1 ≤ dur ∧ dur ≤ 65535) (hs vs trig : Bool) :
    DurInRange (twWord dur hs vs trig) := by
  rwa [DurInRange, twDur_twWord h.2]

/-- The two words a line is split in at the end of the sync, in BLANK and in VSYNC (R204, R205). -/
theorem syncSplit_durInRange {m : ModeDesc} (hv : ValidDescriptor m) (he : EncodableDescriptor m)
    (vs : Bool) : DurInRange (twWord (syncClocks m) true vs false) ∧
      DurInRange (twWord (lineClocks m - syncClocks m) false vs false) := by
  obtain ⟨-, hsync, -, -, -, hlt, hmax⟩ := encodable_clocks hv he
  exact ⟨durInRange_twWord (by omega) _ _ _, durInRange_twWord (by omega) _ _ _⟩

theorem compileBlank_durInRange {m : ModeDesc} (hv : ValidDescriptor m)
    (he : EncodableDescriptor m) : ∀ w ∈ (compileBlank m).toList, DurInRange w := by
  simpa [compileBlank] using syncSplit_durInRange hv he false

theorem compileVsync_durInRange {m : ModeDesc} (hv : ValidDescriptor m)
    (he : EncodableDescriptor m) : ∀ w ∈ (compileVsync m).toList, DurInRange w := by
  simpa [compileVsync] using syncSplit_durInRange hv he true

/-- In each of its shapes VIS splits the line in four, no part empty (R206). -/
theorem compileVis_durInRange {m : ModeDesc} (hv : ValidDescriptor m)
    (he : EncodableDescriptor m) : ∀ w ∈ (compileVis m).toList, DurInRange w := by
  obtain ⟨-, -, -, -, -, -, hmax⟩ := encodable_clocks hv he
  obtain ⟨a, b, c, d, h, ha, hb, hc, hd, hsum, -⟩ | ⟨a, b, c, d, h, ha, hb, hc, hd, hsum, -⟩ |
    ⟨a, b, c, d, h, ha, hb, hc, hd, hsum, -⟩ := compileVis_cases hv he
  all_goals
    have word {n : Nat} (hn : 1 ≤ n ∧ n ≤ lineClocks m) :=
      durInRange_twWord (dur := n) ⟨hn.1, by omega⟩
    simp only [h, Vector.toList_mk, List.forall_mem_cons]
    exact ⟨word (by omega) _ _ _, word (by omega) _ _ _, word (by omega) _ _ _,
      word (by omega) _ _ _, by simp⟩

/-- Settles O18: the width of a valid descriptor, its counts, and the words of its three programs. -/
theorem acceptedDescriptorsCompile : Obligations.AcceptedDescriptorsCompile := by
  refine fun m hv he => ⟨hv.width, compileCounts_range he, ?_⟩
  simp only [List.forall_mem_append]
  exact ⟨⟨compileBlank_durInRange hv he, compileVsync_durInRange hv he⟩,
    compileVis_durInRange hv he⟩

end Sys2Proof.Machine

/-! PROOFS. The statements about the timing programs and TGEN: what each compiled program totals and drives, where it triggers, what a timing word does, and that no step stops. -/

namespace Sys2Proof.Machine

/-! ### The programs BLANK and VSYNC (R204, R205) -/

/-- The line split in two words at the end of the sync, with one VS level throughout: BLANK with VS = 0 (R204), VSYNC with VS = 1 (R205). -/
def syncSplit (m : ModeDesc) (vs : Bool) : List Word :=
  [twWord (syncClocks m) true vs false, twWord (lineClocks m - syncClocks m) false vs false]

theorem compileBlank_toList (m : ModeDesc) : (compileBlank m).toList = syncSplit m false := rfl

theorem compileVsync_toList (m : ModeDesc) : (compileVsync m).toList = syncSplit m true := rfl

theorem syncSplit_clocks {m : ModeDesc} (hv : ValidDescriptor m) (he : EncodableDescriptor m)
    (vs : Bool) : streamClocks (syncSplit m vs) = lineClocks m := by
  obtain ⟨-, -, -, -, -, hlt, hmax⟩ := encodable_clocks hv he
  simp (disch := omega) only [syncSplit, streamClocks, twDur_twWord]
  omega

theorem syncSplit_levels {m : ModeDesc} (hv : ValidDescriptor m) (he : EncodableDescriptor m)
    (vs : Bool) : streamLevels (syncSplit m vs) =
      List.replicate (syncClocks m) (true, vs) ++
        List.replicate (lineClocks m - syncClocks m) (false, vs) := by
  obtain ⟨-, -, -, -, -, hlt, hmax⟩ := encodable_clocks hv he
  simp (disch := omega) [syncSplit, streamLevels, twDur_twWord]

theorem syncSplit_flags (m : ModeDesc) (vs : Bool) :
    ∀ w ∈ syncSplit m vs, twRsv w = 0#13 ∧ twTrig w = false ∧ twVs w = vs := by
  simp [syncSplit]

/-! ### The program VIS (R206, R208) -/

/-- In each of its shapes VIS is four words whose DURs sum to the line, the sync in front and one TRIGGER after B_CLK clocks. -/
theorem compileVis_stream {m : ModeDesc} (hv : ValidDescriptor m) (he : EncodableDescriptor m) :
    streamClocks (compileVis m).toList = lineClocks m ∧
    streamTriggers 0 (compileVis m).toList = [lineClocks m - m.hVis.toNat] ∧
    streamLevels (compileVis m).toList =
      List.replicate (syncClocks m) (true, false) ++
        List.replicate (lineClocks m - syncClocks m) (false, false) := by
  obtain ⟨-, -, -, -, -, -, hmax⟩ := encodable_clocks hv he
  obtain ⟨a, b, c, d, h, -, -, -, -, hsum, hsync, hporch⟩ |
    ⟨a, b, c, d, h, -, -, -, -, hsum, hsync, hporch⟩ |
    ⟨a, b, c, d, h, -, -, -, -, hsum, hsync, hporch⟩ := compileVis_cases hv he
  case' inl => have hrest : lineClocks m - syncClocks m = b + (c + d) := by omega
  case' inr.inl => have hrest : lineClocks m - syncClocks m = c + d := by omega
  case' inr.inr => have hrest : lineClocks m - syncClocks m = d := by omega
  all_goals
    rw [h, Vector.toList_mk, hrest, ← hsync, ← hporch]
    simp (disch := omega) [streamClocks, streamTriggers, streamLevels, twDur_twWord,
      List.replicate_add, -List.replicate_append_replicate]
    omega

theorem compileVis_flags {m : ModeDesc} (hv : ValidDescriptor m) (he : EncodableDescriptor m) :
    (∀ w ∈ (compileVis m).toList, twRsv w = 0#13 ∧ twVs w = false) ∧
    (compileVis m).toList.countP (fun w => twTrig w) = 1 := by
  obtain ⟨a, b, c, d, h, -⟩ | ⟨a, b, c, d, h, -⟩ | ⟨a, b, c, d, h, -⟩ := compileVis_cases hv he
  all_goals simp [h]

/-- Settles O19: the totals of the split line and of VIS; L_CLK is the line in whole pixel periods. -/
theorem programsTotalTheLine : Obligations.ProgramsTotalTheLine := by
  intro m hv he
  obtain ⟨hvis, -, -⟩ := compileVis_stream hv he
  rw [compileBlank_toList, compileVsync_toList]
  exact ⟨syncSplit_clocks hv he false, syncSplit_clocks hv he true, hvis, hv.line⟩

/-- Settles O20: no part of VIS is empty, and its stream is what its shapes share. -/
theorem fixedPhaseTrigger : Obligations.FixedPhaseTrigger :=
  fun _ hv he => ⟨fun w hw => (compileVis_durInRange hv he w hw).1, compileVis_stream hv he⟩

/-- Settles O21: the DURs are those of O18; the flags and levels are read off the split line and VIS. -/
theorem emittedWordsAreLegal : Obligations.EmittedWordsAreLegal := by
  intro m hv he
  obtain ⟨-, -, hdur⟩ := acceptedDescriptorsCompile m hv he
  obtain ⟨hvis, hcount⟩ := compileVis_flags hv he
  rw [compileBlank_toList, compileVsync_toList] at hdur ⊢
  have hblank := syncSplit_flags m false
  have hvsync := syncSplit_flags m true
  refine ⟨fun w hw => ?_, ?_, hcount, ?_, fun w hw => (hvsync w hw).2.2,
    syncSplit_levels hv he false, syncSplit_levels hv he true⟩
  · obtain ⟨hmin, hmax⟩ := hdur w hw
    refine ⟨hmin, hmax, ?_⟩
    simp only [List.mem_append] at hw
    obtain (hw | hw) | hw := hw
    · simp [hblank w hw]
    · simp [hvsync w hw]
    · simp [hvis w hw]
  · exact List.forall_mem_append.mpr
      ⟨fun w hw => (hblank w hw).2.1, fun w hw => (hvsync w hw).2.1⟩
  · exact List.forall_mem_append.mpr
      ⟨fun w hw => (hblank w hw).2.2, fun w hw => (hvis w hw).2⟩

/-! ### The timing word (R210, R212, R214) -/

/-- Settles O44: the fields of the word drive TGEN's outputs; with VS the line count starts anew, with TRIG one line is owed. -/
theorem timingWordExecutes : Obligations.TimingWordExecutes := by
  intro dur hs vs trig s hd
  simp only [exec, execTw, if_neg hd, beginWord, encode, twDur_assemble, twHs_assemble,
    twVs_assemble]
  cases vs <;> cases trig <;> rfl

/-! ### Steps that do not stop (R209, R430, R436; 93_implementation_defined.md I1) -/

theorem wellFormed_of_isCommand {i : Instr} (h : i.isCommand = true) : i.wellFormed = true := by
  cases i with
  | tw => cases h
  | _ => rfl

theorem mapNext_completes (f : State → State) {o : Host.Outcome State Fault Refusal}
    (h : ∃ t, o = .next t) : ∃ t, mapNext f o = .next t := by
  obtain ⟨t, rfl⟩ := h
  exact ⟨f t, rfl⟩

/-- A command word answers a next state: it decodes to a command, or it is F_OPCODE (R120). -/
theorem perform_completes (p : Nat) (w : Word) (s : State) : ∃ t, perform p w s = .next t := by
  unfold perform
  split
  · next i hd =>
    obtain ⟨hcommand, -⟩ := (encodeOfDecode w i).1 hd
    exact exec_completes (wellFormed_of_isCommand hcommand) _
  · exact ⟨_, rfl⟩

theorem resume_completes (h : Nat) (s : State) : ∃ t, resume h s = .next t := by
  unfold resume
  split
  · exact ⟨_, rfl⟩
  · exact ⟨_, rfl⟩
  all_goals exact mapNext_completes _ (perform_completes _ _ _)

theorem storeCommand_completes (h p : Nat) (w : Word) (s : State) :
    ∃ t, storeCommand h p w s = .next t := by
  unfold storeCommand
  split
  · exact ⟨_, rfl⟩
  split
  · exact ⟨_, rfl⟩
  · exact mapNext_completes _ (perform_completes _ _ _)

theorem access_completes (h : Nat) (a : Access) (s : State) : ∃ t, access h a s = .next t := by
  cases a with
  | load off width =>
    simp only [access]
    split <;> exact ⟨_, rfl⟩
  | store off width v =>
    simp only [access]
    split
    · split
      · exact storeCommand_completes _ _ _ _
      · exact ⟨_, rfl⟩
    · exact ⟨_, rfl⟩

theorem hostTurn_completes (h : Nat) (s : State) : ∃ t, hostTurn h s = .next t := by
  unfold hostTurn
  split
  · exact ⟨_, rfl⟩
  split
  · exact ⟨_, rfl⟩
  · exact resume_completes h s
  split
  · exact ⟨_, rfl⟩
  · exact access_completes h _ s

/-- Every agent but TGEN answers a next state. -/
theorem agentStep_completes {a : Agent} (ha : a ≠ .tgen) (s : State) :
    ∃ t, agentStep a s = .next t := by
  cases a with
  | tgen => exact absurd rfl ha
  | host h => exact hostTurn_completes h s
  | _ => exact ⟨_, rfl⟩

/-- A legal timing word is executed (R114, R210). -/
theorem executeWord_completes {w : Word} (hw : twLegal w = true) (s : State) :
    ∃ t, executeWord w s = .next t := by
  simp only [twLegal, Bool.and_eq_true, beq_iff_eq] at hw
  obtain ⟨hdur, hrsv⟩ := hw
  rw [executeWord, (decodeTiming_eq_ok_iff w _).mpr ⟨hrsv, rfl⟩]
  exact exec_completes (i := .tw (twDur w) _ _ _) hdur s

/-- TGEN answers a next state where its FIFO holds legal words only. -/
theorem tgenTurn_completes {s : State} (h : ∀ q ∈ s.tgen.fifo, twLegal q.word = true) :
    ∃ t, tgenTurn s = .next t := by
  unfold tgenTurn
  split
  · exact ⟨_, rfl⟩
  · next q rest hf => exact executeWord_completes (h q (by simp [hf])) _

theorem twLegal_iff (w : Word) :
    twLegal w = true ↔ w.toNat % 65536 ≠ 0 ∧ w.toNat / 524288 = 0 := by
  rw [← twDur_toNat, ← twRsv_toNat]
  simp [twLegal, ← BitVec.toNat_inj]

/-- A word TGEN takes that is not legal stops the model with a fault, which is no refusal (R436, log M19). -/
theorem executeWord_ne_refused (w : Word) (s : State) (r : Refusal) :
    executeWord w s ≠ .refused r := by
  cases hw : twLegal w with
  | true =>
    obtain ⟨t, ht⟩ := executeWord_completes hw s
    simp [ht]
  | false =>
    rw [← Bool.not_eq_true, twLegal_iff] at hw
    simp [executeWord_illegal (w := w) (by omega)]

theorem agentStep_ne_refused (a : Agent) (s : State) (r : Refusal) :
    agentStep a s ≠ .refused r := by
  by_cases ha : a = .tgen
  · subst ha
    rw [agentStep, tgenTurn]
    split
    · simp
    · exact executeWord_ne_refused _ _ _
  · obtain ⟨t, ht⟩ := agentStep_completes ha s
    simp [ht]

/-- Taking the next turn, of the schedule or free, leaves TGEN as it is. -/
theorem nextTurn_tgen (s : State) : (nextTurn s).2.tgen = s.tgen := by
  unfold nextTurn
  split <;> rfl

/-- Where TGEN holds legal words only, whoever steps answers a next state. -/
theorem step_completes {s : State} (h : ∀ q ∈ s.tgen.fifo, twLegal q.word = true) :
    ∃ t, step s = .next t := by
  rw [step, runTurn]
  by_cases ha : (nextTurn s).1.agent = .tgen
  · rw [ha]
    apply tgenTurn_completes
    rwa [beginTurn_tgen, nextTurn_tgen]
  · exact agentStep_completes ha _

/-- Settles O60: no agent's step is refused, and the invariant has TGEN hold legal words only. -/
theorem invariantExcludesStops : Obligations.InvariantExcludesStops := by
  refine ⟨fun s r => agentStep_ne_refused _ _ r, fun s hs => ?_⟩
  obtain ⟨-, -, -, ⟨hfifo, -⟩, -⟩ := hs
  exact step_completes hfifo

end Sys2Proof.Machine

/-! PROOFS. The statements about the pixel plane: which targets SET_PLANE takes, SET_PIXEL's faults, the field it writes, and the laws of the write operators. -/

namespace Sys2Proof.Machine

/-! ### What apply_op leaves of a byte, and applied twice (R252, R254) -/

/-- Outside the field's mask a byte stays as it is (R254 (c)). -/
theorem applyOp_off_field (op : WriteOp) (b : Byte) (sh : Nat) (v : Pixel) :
    applyOp op b sh v &&& ~~~fieldMask sh = b &&& ~~~fieldMask sh := by
  apply BitVec.eq_of_getLsbD_eq
  intro i hi
  simp only [applyOp, BitVec.getLsbD_and, BitVec.getLsbD_not, applyMasked_bit _ _ _ _ hi]
  cases hm : (fieldMask sh).getLsbD i with
  | true => simp
  | false =>
    have hv : (fieldValue sh v).getLsbD i = false := by
      rw [fieldMask_bit hi] at hm
      rw [fieldValue_bit v hi, Bool.and_eq_false_imp]
      intro h
      exact BitVec.getLsbD_of_ge _ _ (by simp at h hm; omega)
    rw [hv, maskedBit_off]

/-- SET clears a masked bit before it writes it, so a second SET finds nothing else to clear (R254). -/
theorem maskedBit_set_set (b m p : Bool) :
    maskedBit .set (maskedBit .set b m p) m p = maskedBit .set b m p := by
  cases m <;> cases p <;> simp [maskedBit]

theorem applyOp_set_set (b : Byte) (sh : Nat) (v : Pixel) :
    applyOp .set (applyOp .set b sh v) sh v = applyOp .set b sh v := by
  apply BitVec.eq_of_getLsbD_eq
  intro i hi
  simp only [applyOp, applyMasked_bit _ _ _ _ hi, maskedBit_set_set]

theorem applyOp_and_and (b : Byte) (sh : Nat) (v : Pixel) :
    applyOp .and (applyOp .and b sh v) sh v = applyOp .and b sh v := by
  simp only [applyOp, applyMasked, BitVec.and_assoc, BitVec.and_self]

theorem applyOp_xor_xor (b : Byte) (sh : Nat) (v : Pixel) :
    applyOp .xor (applyOp .xor b sh v) sh v = b := by
  simp only [applyOp, applyMasked, BitVec.xor_assoc, BitVec.xor_self, BitVec.xor_zero]

/-! ### SET_PIXEL with nothing in between (R253) -/

/-- s with the operator applied to its target pixel and nothing else changed. -/
def pixelWritten (op : WriteOp) (v : Pixel) (s : State) : State :=
  { s with
    mem := Memory.write s.mem (pixelTarget s)
      (applyOp op (Memory.read s.mem (pixelTarget s)) (pixShift (arg0 s).toNat) v) }

theorem exec_setPixel_of_nil (op : WriteOp) (v : Pixel) {s : State} (hm : s.mid = [])
    (hr : PixelReady s) : exec (.setPixel op v) s = .next (pixelWritten op v s) := by
  rw [exec_setPixel_ready op v hr, drawPixel_of_nil hm, pixAddr_pixelTarget, pixelWritten]

@[simp] theorem pixelTarget_pixelWritten (op : WriteOp) (v : Pixel) (s : State) :
    pixelTarget (pixelWritten op v s) = pixelTarget s := rfl

@[simp] theorem arg0_pixelWritten (op : WriteOp) (v : Pixel) (s : State) :
    arg0 (pixelWritten op v s) = arg0 s := rfl

theorem pixelWritten_read (op : WriteOp) (v : Pixel) (s : State) (a : Nat) :
    Memory.read (pixelWritten op v s).mem a =
      if a = pixelTarget s then applyOp op (Memory.read s.mem a) (pixShift (arg0 s).toNat) v
      else Memory.read s.mem a := by
  rw [pixelWritten, Memory.read_write]
  split
  · next h => rw [h]
  · rfl

/-- Settles O23: the one byte written is apply_op's, which is the operator on the field and leaves the rest of the byte. -/
theorem setPixelWritesOneField : Obligations.SetPixelWritesOneField := by
  intro op v s hm hr
  refine ⟨_, exec_setPixel_of_nil op v hm hr, rfl, fun a ha => ?_, ?_⟩
  · rw [pixelWritten_read, if_neg ha]
  · rw [pixelWritten_read, if_pos rfl]
    exact ⟨fieldOf_applyOp_same op _ _ v, applyOp_off_field op _ _ v⟩

/-- A second write of the same pixel applies the operator twice to its byte. -/
theorem pixelWritten_twice_read (op : WriteOp) (v : Pixel) (s : State) (a : Nat) :
    Memory.read (pixelWritten op v (pixelWritten op v s)).mem a =
      if a = pixelTarget s then
        applyOp op (applyOp op (Memory.read s.mem a) (pixShift (arg0 s).toNat) v)
          (pixShift (arg0 s).toNat) v
      else Memory.read s.mem a := by
  simp only [pixelWritten_read, pixelTarget_pixelWritten, arg0_pixelWritten]
  split <;> rfl

/-- Settles O26: both executions write the target pixel, so each law is the law of apply_op on its byte. -/
theorem writeOperatorLaws : Obligations.WriteOperatorLaws := by
  intro v s hm hr
  have once (op : WriteOp) := exec_setPixel_of_nil op v hm hr
  have twice (op : WriteOp) : exec (.setPixel op v) (pixelWritten op v s) =
      .next (pixelWritten op v (pixelWritten op v s)) := exec_setPixel_of_nil op v hm hr
  refine ⟨⟨_, _, once .set, twice .set, fun a => ?_⟩, ⟨_, _, once .and, twice .and, fun a => ?_⟩,
    ⟨_, _, once .xor, twice .xor, fun a => ?_⟩⟩
  · rw [pixelWritten_twice_read, pixelWritten_read, applyOp_set_set]
  · rw [pixelWritten_twice_read, pixelWritten_read, applyOp_and_and]
  · rw [pixelWritten_twice_read, applyOp_xor_xor, ite_self]

/-! ### SET_PLANE's choice and SET_PIXEL's faults (R251, R253, R431) -/

/-- Settles O22: the two refusals in R251's order, the first of them a word equal to 0. -/
theorem setPlaneTakesItsTarget : Obligations.SetPlaneTakesItsTarget := by
  refine ⟨by decide, fun s => ?_⟩
  have zero (w : Word) : w = 0#32 ↔ w.toNat = 0 := BitVec.toNat_inj.symm
  simp only [exec, execSetPlane, zero, raiseFault_eq_faulted]
  refine ⟨fun ⟨hstride, hrows, hfits⟩ => ?_, fun h => ?_⟩
  · rw [if_neg (not_or.mpr ⟨hstride, hrows⟩), if_neg hfits.not_gt]
  · rw [← or_assoc] at h
    obtain h | h := h
    · rw [if_pos h]
    · rw [if_pos h, ite_self]

/-- Settles O25: R431's order of the two checks, each before any access to memory. -/
theorem setPixelFaults : Obligations.SetPixelFaults := by
  refine fun op v s => ⟨fun hp => ?_, fun hp hout => ?_⟩
  · simp only [exec, execSetPixel, hp, if_true, raiseFault_eq_faulted]
  · have hb : pixInBounds s (arg0 s).toNat (arg1 s).toNat = false := by
      rw [Bool.eq_false_iff, Ne, pixInBounds_iff]
      omega
    simp only [exec, execSetPixel, hp, hb, Bool.true_eq_false, if_false, if_true,
      raiseFault_eq_faulted]

end Sys2Proof.Machine

/-! PROOFS. The statements about the font: SET_FONT's choice, the glyph commands' checks, a row's bits and pattern, what the two paths write and paint, and that they agree. -/

namespace Sys2Proof.Machine

/-! ### SET_FONT's choice and the checks of the glyph commands (R301, R305, R431) -/

/-- Settles O28: the two refusals in R301's order; a word equals a literal where its value does. -/
theorem setFontTakesItsTarget : Obligations.SetFontTakesItsTarget := by
  refine ⟨by decide, fun s => ?_⟩
  simp only [exec, execSetFont, ← BitVec.toNat_inj, BitVec.reduceToNat, raiseFault_eq_faulted]
  refine ⟨fun ⟨hcw, hch, hfits⟩ => ?_, fun h => ?_⟩
  · rw [if_neg (not_or.mpr ⟨not_not.mpr hcw, not_not.mpr hch⟩), if_neg hfits.not_gt]
  · rw [← or_assoc] at h
    obtain hcell | hwraps := h
    · rw [if_pos hcell]
    · rw [if_pos (not_le.mp hwraps), ite_self]

/-- Settles O31: both commands run glyph_checks, whose faults come before any access. -/
theorem glyphChecksInOrder : Obligations.GlyphChecksInOrder := by
  intro op fg bg s i hi
  obtain ⟨draw, hdraw⟩ : ∃ draw, exec i s =
      .next (glyphChecked (arg0 s).toNat (arg1 s).toNat (arg2 s).toNat draw s) := by
    rcases hi with rfl | rfl <;> exact ⟨_, rfl⟩
  rw [hdraw]
  refine ⟨fun ht => ?_, fun hp hf => ⟨fun hg => ?_, fun hg hout => ?_⟩⟩
  · rw [glyphChecked, if_pos ht, raiseFault_eq_faulted]
  · simp only [glyphChecked, hp, hf, Bool.true_eq_false, or_self, if_false, if_pos hg,
      raiseFault_eq_faulted]
  · have hb : pixInBounds s ((arg0 s).toNat + fontCw s - 1) ((arg1 s).toNat + fontCh s - 1) =
        false := by
      rw [Bool.eq_false_iff, Ne, pixInBounds_iff]
      unfold fontCw fontCh
      omega
    simp only [glyphChecked, hp, hf, hb, Bool.true_eq_false, or_self, if_false, if_true,
      if_neg hg.not_gt, raiseFault_eq_faulted]

/-! ### A row's bits and its pattern (R302, R303, R307) -/

/-- Settles O29: a row of a 9-wide glyph is the window of its two bytes that begins at the glyph's bit offset in the first. -/
theorem rowBitsAreGlyphBits : Obligations.RowBitsAreGlyphBits := by
  intro s c r col hm hcw hc hcol
  refine ⟨?_, by rw [glyphBit_of_nil hm]⟩
  have hoff : glyphBitOffset s c col = glyphBitOffset s c 0 + col := rfl
  rcases hcw with h8 | h9
  · have hk : fontCw s = 8 := h8
    have haligned : glyphBitOffset s c 0 % 8 = 0 := by simp [glyphBitOffset, hk]
    rw [h8] at hcol ⊢
    simp only [rowBits, busRead_of_nil hm, hk, if_true, glyphBitIn]
    rw [show glyphBitOffset s c col / 8 = glyphBitOffset s c 0 / 8 by omega,
      show 7 - glyphBitOffset s c col % 8 = 8 - 1 - col by omega, BitVec.getLsbD_setWidth]
    simp
    omega
  · have hk : fontCw s = 9 := h9
    rw [h9] at hcol ⊢
    simp only [rowBits, busRead_of_nil hm, hk, glyphBitIn]
    rw [if_neg (by decide), BitVec.getLsbD_setWidth, BitVec.getLsbD_ushiftRight,
      BitVec.getLsbD_append, decide_eq_true (by omega), Bool.true_and]
    by_cases hlo : glyphBitOffset s c 0 % 8 + col < 8
    · rw [if_neg (by omega), show glyphBitOffset s c col / 8 = glyphBitOffset s c 0 / 8 by omega]
      congr 1
      omega
    · rw [if_pos (by omega),
        show glyphBitOffset s c col / 8 = glyphBitOffset s c 0 / 8 + 1 by omega]
      congr 1
      omega

/-- Bit i of an OR of bit pairs is bit i mod 2 of pair i / 2. -/
theorem orPairs_bit (f : Nat → Pixel) {cw i : Nat} (hi : i < 18) :
    ((List.range cw).foldl (fun e k => e ||| ((f k).setWidth 18 <<< (2 * k))) 0#18).getLsbD i =
      (decide (i / 2 < cw) && (f (i / 2)).getLsbD (i % 2)) := by
  rw [foldl_or_bit, Bool.eq_iff_iff]
  simp only [BitVec.getLsbD_zero, Bool.false_or, List.any_eq_true, List.mem_range,
    BitVec.getLsbD_shiftLeft, BitVec.getLsbD_setWidth, Bool.and_eq_true, decide_eq_true_eq,
    Bool.not_eq_true', decide_eq_false_iff_not]
  constructor
  · rintro ⟨k, hk, ⟨-, hge⟩, -, hbit⟩
    have hlt := BitVec.lt_of_getLsbD hbit
    rw [show i / 2 = k by omega, show i % 2 = i - 2 * k by omega]
    exact ⟨hk, hbit⟩
  · rintro ⟨hk, hbit⟩
    refine ⟨i / 2, hk, ⟨hi, by omega⟩, by omega, ?_⟩
    rwa [show i - 2 * (i / 2) = i % 2 by omega]

theorem replicatePairs_bit (cw : Nat) (v : Pixel) {i : Nat} (hi : i < 18) :
    (replicatePairs cw (v.setWidth 18)).getLsbD i = (decide (i / 2 < cw) && v.getLsbD (i % 2)) :=
  orPairs_bit (fun _ => v) hi

theorem expandBits_eq_orPairs (cw : Nat) (bits : BitVec 9) :
    expandBits cw bits = (List.range cw).foldl (fun e k =>
      e ||| ((if bits.getLsbD k then 1#2 else 2#2).setWidth 18 <<< (2 * k))) 0#18 := by
  unfold expandBits
  congr 1
  funext e k
  cases bits.getLsbD k <;> rfl

/-- 01 has bit 0 and 10 has bit 1, so the low bits of the expanded pairs are the row's bits (R307). -/
theorem expandBits_low_bit (cw : Nat) (bits : BitVec 9) {i : Nat} (hi : i < 18) :
    (expandBits cw bits &&& replicatePairs cw 1#18).getLsbD i =
      (decide (i / 2 < cw) && bits.getLsbD (i / 2) && decide (i % 2 = 0)) := by
  rw [BitVec.getLsbD_and, expandBits_eq_orPairs, orPairs_bit _ hi,
    show (1#18) = (1#2).setWidth 18 from rfl, replicatePairs_bit _ _ hi]
  rcases Nat.mod_two_eq_zero_or_one i with h | h <;> cases bits.getLsbD (i / 2) <;> simp [h]

/-- Times 3, a word whose odd bits are clear has each even bit copied into the odd bit above it. -/
theorem mul_three_bit {e : BitVec 18} (he : ∀ i, i < 18 → i % 2 = 1 → e.getLsbD i = false)
    {i : Nat} (hi : i < 18) : (e * 3#18).getLsbD i = e.getLsbD (i - i % 2) := by
  have hapart : e &&& e <<< 1 = 0#18 := by
    apply BitVec.eq_of_getLsbD_eq
    intro k hk
    rw [BitVec.getLsbD_and, BitVec.getLsbD_shiftLeft, BitVec.getLsbD_zero]
    rcases Nat.mod_two_eq_zero_or_one k with h | h
    · by_cases h0 : k = 0
      · simp [h0]
      · simp [he (k - 1) (by omega) (by omega)]
    · simp [he k hk h]
  have hor : e * 3#18 = e ||| e <<< 1 := by
    rw [← BitVec.add_eq_or_of_and_eq_zero _ _ hapart]
    bv_omega
  rw [hor, BitVec.getLsbD_or, BitVec.getLsbD_shiftLeft]
  rcases Nat.mod_two_eq_zero_or_one i with h | h
  · by_cases h0 : i = 0
    · simp [h0]
    · simp [h, he (i - 1) (by omega) (by omega)]
  · rw [he i hi h]
    simp [h, hi, show i ≠ 0 by omega]

/-- M of R307: both bits of pair k are the row's bit k. -/
theorem rowMask_bit (cw : Nat) (bits : BitVec 9) {i : Nat} (hi : i < 18) :
    ((expandBits cw bits &&& replicatePairs cw 1#18) * 3#18).getLsbD i =
      (decide (i / 2 < cw) && bits.getLsbD (i / 2)) := by
  have hodd (k : Nat) (hk : k < 18) (h : k % 2 = 1) :
      (expandBits cw bits &&& replicatePairs cw 1#18).getLsbD k = false := by
    simp [expandBits_low_bit cw bits hk, h]
  rw [mul_three_bit hodd hi, expandBits_low_bit cw bits (by omega),
    show (i - i % 2) / 2 = i / 2 by omega, show (i - i % 2) % 2 = 0 by omega]
  simp

theorem rowPattern_bit (cw : Nat) (bits : BitVec 9) (fg bg : Pixel) {i : Nat} (hi : i < 18) :
    (rowPattern cw bits fg bg).getLsbD i =
      (decide (i / 2 < cw) && (if bits.getLsbD (i / 2) then fg else bg).getLsbD (i % 2)) := by
  have three : (3#2).getLsbD (i % 2) = true := by
    rcases Nat.mod_two_eq_zero_or_one i with h | h <;> rw [h] <;> rfl
  simp only [rowPattern, BitVec.getLsbD_or, BitVec.getLsbD_and, BitVec.getLsbD_not]
  rw [rowMask_bit cw bits hi, show (3#18) = (3#2).setWidth 18 from rfl]
  simp only [replicatePairs_bit _ _ hi]
  cases decide (i / 2 < cw) <;> cases bits.getLsbD (i / 2) <;> simp [hi, three]

/-- Settles O30: pair k of the pattern is FG under the mask's pair k and BG elsewhere. -/
theorem rowPatternHoldsTheColours : Obligations.RowPatternHoldsTheColours := by
  intro cw col bits fg bg hcw hcol
  have pair (j : Nat) (hj : j < 2) : (patternPixel cw (rowPattern cw bits fg bg) col).getLsbD j =
      (if bits.getLsbD (cw - 1 - col) then fg else bg).getLsbD j := by
    rw [patternPixel, BitVec.getLsbD_extractLsb', rowPattern_bit cw bits fg bg (by omega),
      show (2 * (cw - 1 - col) + j) / 2 = cw - 1 - col by omega,
      show (2 * (cw - 1 - col) + j) % 2 = j by omega]
    simp [hj]
    omega
  exact field_ext (pair 0 (by decide)) (pair 1 (by decide))

/-! ### What a glyph command leaves outside its cell (R306, R308) -/

/-- A state that differs from s0 in memory alone, and there not outside the given bytes. -/
def WritesOnly (s0 : State) (bytes : List Word) (s : State) : Prop :=
  s = { s0 with mem := s.mem } ∧
    ∀ a, (∀ b ∈ bytes, b.toNat ≠ a) → Memory.read s.mem a = Memory.read s0.mem a

theorem WritesOnly.mid {s0 s : State} {bytes : List Word} (h : WritesOnly s0 bytes s) :
    s.mid = s0.mid := by rw [h.1]

/-- A store to one of the given bytes changes no other. -/
theorem WritesOnly.busWrite {s0 s : State} {bytes : List Word} (h : WritesOnly s0 bytes s)
    (hm : s0.mid = []) {a : Word} (ha : a ∈ bytes) (v : Byte) :
    WritesOnly s0 bytes (busWrite a v s) := by
  rw [busWrite_of_nil (h.mid.trans hm)]
  refine ⟨by rw [h.1], fun c hc => ?_⟩
  rw [Memory.read_write_ne _ _ (hc a ha).symm, h.2 c hc]

/-- The per-pixel path writes the byte of each of the cell's pixels (R306). -/
theorem drawCell_writesOnly (op : WriteOp) (fg bg : Pixel) {s : State} (x y g : Nat)
    (hm : s.mid = []) :
    WritesOnly s (glyphPlaneBytes s x y) (drawCell op fg bg x y g s) := by
  unfold drawCell
  refine List.foldlRecOn _ _ ⟨rfl, fun _ _ => rfl⟩ fun t ht rc hrc => ?_
  obtain ⟨hr, hc⟩ := cellPixels_mem.mp hrc
  have htm := ht.mid.trans hm
  have hbyte : pixAddr t (x + rc.2) (y + rc.1) ∈ glyphPlaneBytes s x y := by
    rw [ht.1]
    exact planeByte_mem hr hc
  rw [drawGlyphPixel, glyphBit_of_nil htm, drawPixel, busRead_of_nil htm]
  exact ht.busWrite hm hbyte _

/-- The bulk path writes the bytes each row of the cell covers (R308). -/
theorem drawCellBulk_writesOnly (op : WriteOp) (fg bg : Pixel) {s : State} (x y g : Nat)
    (hm : s.mid = []) :
    WritesOnly s (glyphPlaneBytes s x y) (drawCellBulk op fg bg x y g s) := by
  unfold drawCellBulk
  refine List.foldlRecOn _ _ ⟨rfl, fun _ _ => rfl⟩ fun t ht r hr => ?_
  rw [drawBulkRow, rowBits_of_nil (ht.mid.trans hm)]
  refine List.foldlRecOn _ _ ht fun u hu i hi => ?_
  have hbyte : planeByteAddr u i (y + r) ∈ glyphPlaneBytes s x y := by
    rw [show fontCw t = fontCw s by rw [ht.1]; rfl] at hi
    rw [hu.1]
    exact List.mem_flatMap.mpr ⟨r, hr, List.mem_map.mpr ⟨i, hi, rfl⟩⟩
  rw [drawRowByte, busRead_of_nil (hu.mid.trans hm)]
  exact hu.busWrite hm hbyte _

/-- Settles O33: past its checks either command is its drawing, and each write of either path is to a byte of the cell. -/
theorem glyphsStayInTheirCell : Obligations.GlyphsStayInTheirCell := by
  rintro op fg bg s i (rfl | rfl) hm ht hr
  · exact ⟨_, congrArg Host.Outcome.next (glyphChecked_ready ht hr _),
      drawCell_writesOnly op fg bg _ _ _ hm⟩
  · exact ⟨_, congrArg Host.Outcome.next (glyphChecked_ready ht hr _),
      drawCellBulk_writesOnly op fg bg _ _ _ hm⟩

/-! ### What a glyph command paints (R304, R306, R308) -/

theorem TargetsReady.planeFits {s : State} (h : TargetsReady s) : PlaneFits s := by
  obtain ⟨-, -, hfits, -⟩ := h
  exact hfits

theorem TargetsReady.cw {s : State} (h : TargetsReady s) :
    s.font.cw.toNat = 8 ∨ s.font.cw.toNat = 9 := by
  obtain ⟨-, -, -, hcw, -⟩ := h
  rcases hcw with h8 | h9
  · simp [h8]
  · simp [h9]

theorem GlyphReady.cellFits {s : State} {x y g : Nat} (h : GlyphReady s x y g) : CellFits s x y := by
  obtain ⟨-, hx, hy, -⟩ := h
  exact ⟨hx, hy⟩

/-- What the drawing of a glyph with nothing in between may lean on: a plane that does not wrap and holds the cell (R251, R305), a legal cell width (R301), the font apart from the cell (R312). -/
structure CellReady (s : State) (x y g : Nat) : Prop where
  mid : s.mid = []
  plane : PlaneFits s
  cw : s.font.cw.toNat = 8 ∨ s.font.cw.toNat = 9
  fits : CellFits s x y
  apart : FontApart s x y g

section
variable {s0 : State} {x y g : Nat} (h : CellReady s0 x y g) (op : WriteOp) (fg bg : Pixel)
include h

/-- The per-pixel path paints the cell (R306). -/
theorem drawCell_paints :
    Paints s0 op (cellColour s0 fg bg x y g) (glyphPlaneBytes s0 x y) (inCell s0 x y) s0
      (drawCell op fg bg x y g s0) := by
  refine (Paints.foldl h.apart _ (fun rc qx qy => qx = x + rc.2 ∧ qy = y + rc.1) _
    (fun rc hrc s hs => ?_) ?_ s0 ⟨rfl, fun _ _ => rfl⟩).congr fun qx qy => ?_
  · obtain ⟨hr, hc⟩ := cellPixels_mem.mp hrc
    exact drawGlyphPixel_paints h.mid h.plane op fg bg h.cw h.fits hr hc hs
  · refine (cellPixels_nodup _ _).imp fun {a b} hab qx qy hboth => hab ?_
    exact Prod.ext (by omega) (by omega)
  · constructor
    · rintro ⟨rc, hrc, rfl, rfl⟩
      obtain ⟨hr, hc⟩ := cellPixels_mem.mp hrc
      exact ⟨by omega, Nat.add_lt_add_left hc x, by omega, Nat.add_lt_add_left hr y⟩
    · rintro ⟨hx, hx', hy, hy'⟩
      have hr : qy - y < s0.font.ch.toNat := by omega
      have hc : qx - x < s0.font.cw.toNat := by omega
      exact ⟨(qy - y, qx - x), cellPixels_mem.mpr ⟨hr, hc⟩, (Nat.add_sub_cancel' hx).symm,
        (Nat.add_sub_cancel' hy).symm⟩

/-- The pattern of row r holds the colours of its pixels, read from a state that keeps the font (R303, R307). -/
theorem patternPixel_rowBits {s : State} (hs : SameFont s0 (glyphFontBytes s0 g) s) {r col : Nat}
    (hr : r < s0.font.ch.toNat) (hc : col < s0.font.cw.toNat) (hg : g ≤ 255) :
    patternPixel (fontCw s0) (rowPattern (fontCw s0) (rowBits g r s).1 fg bg) col =
      cellColour s0 fg bg x y g (x + col) (y + r) := by
  have hm : s.mid = [] := by rw [hs.1]; exact h.mid
  have hfont : s.font = s0.font := by rw [hs.1]
  have hbits := (rowBitsAreGlyphBits s g r col hm (hfont ▸ h.cw) hg (hfont ▸ hc)).1
  rw [hfont, glyphBitIn_sameFont hs h.cw hr hc] at hbits
  rw [rowPatternHoldsTheColours (fontCw s0) _ _ _ _ h.cw hc, fontCw, hbits, cellColour,
    Nat.add_sub_cancel_left, Nat.add_sub_cancel_left]

/-- The bulk path paints one row of the cell (R308). -/
theorem drawBulkRow_paints {s : State} (hs : SameFont s0 (glyphFontBytes s0 g) s) {r : Nat}
    (hr : r < s0.font.ch.toNat) (hg : g ≤ 255) :
    Paints s0 op (cellColour s0 fg bg x y g) (glyphPlaneBytes s0 x y)
      (fun qx qy => x ≤ qx ∧ qx < x + s0.font.cw.toNat ∧ qy = y + r) s
      (drawBulkRow op fg bg x y g s r) := by
  have hm : s.mid = [] := by rw [hs.1]; exact h.mid
  have hcw : fontCw s = fontCw s0 := by rw [hs.1]; rfl
  have hpos : 1 ≤ s0.font.cw.toNat := by have := h.cw; omega
  rw [drawBulkRow, rowBits_of_nil hm, hcw]
  refine (Paints.foldl h.apart _ (fun i qx qy =>
    qx / 4 = i ∧ qy = y + r ∧ x ≤ qx ∧ qx < x + s0.font.cw.toNat) _
    (fun i hi t ht => ?_) ?_ s hs).congr fun qx qy => ?_
  · exact rowByte_paints h.mid h.plane op _ _ h.fits hpos hr hi
      (fun col hc => patternPixel_rowBits h fg bg hs hr hc hg) ht
  · exact (List.nodup_range' (step := 1)).imp fun {a b} hab qx qy hboth => hab (by omega)
  · constructor
    · rintro ⟨i, -, -, hy, hx, hx'⟩
      exact ⟨hx, hx', hy⟩
    · rintro ⟨hx, hx', hy⟩
      have hcov := (mem_coveredBytes hpos).mpr ⟨qx - x, by omega, by rw [Nat.add_sub_cancel' hx]⟩
      exact ⟨qx / 4, hcov, rfl, hy, hx, hx'⟩

/-- The bulk path paints the cell (R308). -/
theorem drawCellBulk_paints (hg : g ≤ 255) :
    Paints s0 op (cellColour s0 fg bg x y g) (glyphPlaneBytes s0 x y) (inCell s0 x y) s0
      (drawCellBulk op fg bg x y g s0) := by
  refine (Paints.foldl h.apart _ (fun r qx qy =>
    x ≤ qx ∧ qx < x + s0.font.cw.toNat ∧ qy = y + r) _
    (fun r hr s hs => ?_) ?_ s0 ⟨rfl, fun _ _ => rfl⟩).congr fun qx qy => ?_
  · exact drawBulkRow_paints h op fg bg hs (List.mem_range.mp hr) hg
  · exact List.nodup_range.imp fun {a b} hab qx qy hboth => hab (by omega)
  · constructor
    · rintro ⟨r, hr, hx, hx', rfl⟩
      exact ⟨hx, hx', by omega, Nat.add_lt_add_left (List.mem_range.mp hr) y⟩
    · rintro ⟨hx, hx', hy, hy'⟩
      have hr : qy - y < s0.font.ch.toNat := by omega
      exact ⟨qy - y, List.mem_range.mpr hr, hx, hx', (Nat.add_sub_cancel' hy).symm⟩

end

/-- What painting the cell says of each pixel of the plane. -/
theorem Paints.planePixel_cell {s t : State} {op : WriteOp} {fg bg : Pixel} {x y g : Nat}
    (h : Paints s op (cellColour s fg bg x y g) (glyphPlaneBytes s x y) (inCell s x y) s t)
    {px py : Nat} (hx : px < 4 * s.plane.stride.toNat) (hy : py < s.plane.rows.toNat) :
    planePixel s t.mem px py =
      if x ≤ px ∧ px < x + s.font.cw.toNat ∧ y ≤ py ∧ py < y + s.font.ch.toNat then
        fieldOp op (planePixel s s.mem px py)
          (if glyphBitIn s g (py - y) (px - x) then fg else bg)
      else planePixel s s.mem px py := by
  split
  · next hin => exact h.hit px py hx hy hin
  · next hout => exact h.miss px py hx hy hout

/-- Settles O34: both paths paint the cell with the glyph's colours. -/
theorem glyphsPaintTheirCell : Obligations.GlyphsPaintTheirCell := by
  intro op fg bg s i hi x y g hm ht hr hapart
  have hcell : CellReady s x y g := ⟨hm, ht.planeFits, ht.cw, hr.cellFits, hapart⟩
  rcases hi with rfl | rfl
  · exact ⟨_, congrArg Host.Outcome.next (glyphChecked_ready ht hr _), fun _ _ hx hy =>
      (drawCell_paints hcell op fg bg).planePixel_cell hx hy⟩
  · exact ⟨_, congrArg Host.Outcome.next (glyphChecked_ready ht hr _), fun _ _ hx hy =>
      (drawCellBulk_paints hcell op fg bg hr.1).planePixel_cell hx hy⟩

/-! ### The two paths agree (R310) -/

/-- Two pieces that paint the same pixels with the same values agree on every pixel. -/
theorem Paints.planePixel_eq {s0 s t u : State} {op : WriteOp} {v : Nat → Nat → Pixel}
    {bytes : List Word} {K : Nat → Nat → Prop} (ht : Paints s0 op v bytes K s t)
    (hu : Paints s0 op v bytes K s u) {qx qy : Nat} (hx : qx < 4 * s0.plane.stride.toNat)
    (hy : qy < s0.plane.rows.toNat) : planePixel s0 t.mem qx qy = planePixel s0 u.mem qx qy := by
  by_cases hk : K qx qy
  · rw [ht.hit qx qy hx hy hk, hu.hit qx qy hx hy hk]
  · rw [ht.miss qx qy hx hy hk, hu.miss qx qy hx hy hk]

/-- A byte of the plane is its four pixels (R250). -/
theorem planeByte_ext {s : State} {m n : List Host.Cell} {i qy : Nat}
    (h : ∀ qx, qx / 4 = i → planePixel s m qx qy = planePixel s n qx qy) :
    Memory.read m (planeByteAddr s i qy).toNat = Memory.read n (planeByteAddr s i qy).toNat := by
  refine byte_ext fun k => ?_
  have hpixel := h (4 * i + k % 4) (by omega)
  have hshift : pixShift (4 * i + k % 4) = pixShift k := by unfold pixShift; omega
  rwa [planePixel, planePixel, pixAddr, show (4 * i + k % 4) / 4 = i by omega, hshift] at hpixel

/-- The plane bytes of a cell inside the plane are bytes of the plane (R305, R308). -/
theorem mem_glyphPlaneBytes {s : State} {x y : Nat} (hcw : 1 ≤ s.font.cw.toNat)
    (hfits : CellFits s x y) {b : Word} (hb : b ∈ glyphPlaneBytes s x y) :
    ∃ i qy, b = planeByteAddr s i qy ∧ i < s.plane.stride.toNat ∧ qy < s.plane.rows.toNat := by
  obtain ⟨hx, hy⟩ := hfits
  obtain ⟨r, hr, hb⟩ := List.mem_flatMap.mp hb
  obtain ⟨i, hi, rfl⟩ := List.mem_map.mp hb
  obtain ⟨col, hcol, rfl⟩ := (mem_coveredBytes hcw).mp hi
  simp only [List.mem_range, fontCh] at hr hcol
  exact ⟨_, _, rfl, by omega, by omega⟩

/-- Painting the cell leaves one memory only, in canonical form. -/
theorem Paints.eq_of_cell {s t u : State} {op : WriteOp} {v : Nat → Nat → Pixel} {x y : Nat}
    {K : Nat → Nat → Prop} (ht : Paints s op v (glyphPlaneBytes s x y) K s t)
    (hu : Paints s op v (glyphPlaneBytes s x y) K s u) (hcw : 1 ≤ s.font.cw.toNat)
    (hfits : CellFits s x y) (htwf : Memory.wf t.mem) (huwf : Memory.wf u.mem) : t = u := by
  have hmem : t.mem = u.mem := by
    refine Memory.eq_of_read_eq htwf huwf fun a => ?_
    by_cases ha : ∃ b ∈ glyphPlaneBytes s x y, b.toNat = a
    · obtain ⟨b, hb, rfl⟩ := ha
      obtain ⟨i, qy, rfl, hi, hqy⟩ := mem_glyphPlaneBytes hcw hfits hb
      exact planeByte_ext fun qx hqx => ht.planePixel_eq hu (by omega) hqy
    · have hout : ∀ b ∈ glyphPlaneBytes s x y, b.toNat ≠ a := fun b hb e => ha ⟨b, hb, e⟩
      rw [ht.out a hout, hu.out a hout]
  rw [ht.same, hu.same, hmem]

/-- Two drawings that agree on operands past R305 give the same glyph command. -/
theorem glyphChecked_congr {s : State} {x y g : Nat} {draw draw' : State → State}
    (h : g ≤ 255 → CellFits s x y → draw s = draw' s) :
    glyphChecked x y g draw s = glyphChecked x y g draw' s := by
  unfold glyphChecked
  split
  · rfl
  split
  · rfl
  next hg =>
  split
  · rfl
  next hb =>
  have hfits : CellFits s x y := (pixInBounds_iff s _ _).mp (Bool.not_eq_false _ ▸ hb)
  rw [h (not_lt.mp hg) hfits]

/-- Settles O35: the checks are the same, and past them both paths paint the same cell. -/
theorem glyphPathsAgree : Obligations.GlyphPathsAgree := by
  intro op fg bg s hm ht hwf hapart
  refine congrArg Host.Outcome.next (glyphChecked_congr fun hg hfits => ?_)
  have hcell : CellReady s _ _ _ := ⟨hm, ht.planeFits, ht.cw, hfits, hapart⟩
  have hcw : 1 ≤ s.font.cw.toNat := by have := ht.cw; omega
  exact (drawCell_paints hcell op fg bg).eq_of_cell (drawCellBulk_paints hcell op fg bg hg) hcw
    hfits (wf_drawStable.drawCell hwf ..) (wf_drawStable.drawCellBulk hwf ..)

end Sys2Proof.Machine

/-! PROOFS. What the phase engine and the channels do in a step, case by case, cited by the statements about their turns and about what every step keeps (spec 44_phase_engine.md R360 to R378). -/

namespace Sys2Proof.Machine

/-! ### What the ENGINE step can do (R367) -/

theorem engineEnabled_iff (s : State) :
    engineEnabled s = true ↔
      s.tch.done = true ∧ (s.phase = .postVisibleBlank → s.engine = .running → s.pch.rem = 0) := by
  unfold engineEnabled
  split
  · next h => simp [h]
  · next h =>
    have hfree (hp : s.phase = .postVisibleBlank) (he : s.engine = .running) : s.pch.rem = 0 :=
      absurd ⟨hp, he⟩ h
    simpa using fun _ => hfree

/-- The completion event consumed (R367). -/
def eventConsumed (s : State) : State := { s with tch := { s.tch with done := false } }

theorem engineStep_enabled {s : State} (h : engineEnabled s = true) :
    engineStep s = enterNextPhase (eventConsumed s) := if_pos h

/-- Without a completion event, or with a VSYNC entry due while PCH is busy, there is no step (R362). -/
theorem engineStep_waits {s : State} (h : s.tch.done = false ∨
    (s.phase = .postVisibleBlank ∧ s.engine = .running ∧ s.pch.rem ≠ 0)) : engineStep s = s := by
  refine if_neg fun he => ?_
  obtain ⟨hd, hrem⟩ := (engineEnabled_iff s).mp he
  obtain hnone | ⟨hp, hr, hbusy⟩ := h
  · rw [hd] at hnone; cases hnone
  · exact hbusy (hrem hp hr)

/-- Within the frame, and at its end unless a running engine must wait for PCH, the event is taken. -/
theorem engineStep_takes {s : State} (hd : s.tch.done = true)
    (h : s.phase ≠ .postVisibleBlank ∨ s.engine ≠ .running ∨ s.pch.rem = 0) :
    engineStep s = enterNextPhase (eventConsumed s) := by
  refine engineStep_enabled ((engineEnabled_iff s).mpr ⟨hd, fun hp hr => ?_⟩)
  exact (h.resolve_left (not_not.mpr hp)).resolve_left (not_not.mpr hr)

section
variable {s : State} (hd : s.tch.done = true)
include hd

theorem engineStep_vsync (hp : s.phase = .vsync) :
    engineStep s = postVsyncBlankEntry (eventConsumed s) := by
  simp [engineStep_takes hd, hp, enterNextPhase, eventConsumed]

theorem engineStep_postVsyncBlank (hp : s.phase = .postVsyncBlank) :
    engineStep s = visibleEntry (eventConsumed s) := by
  simp [engineStep_takes hd, hp, enterNextPhase, eventConsumed]

theorem engineStep_visible (hp : s.phase = .visible) :
    engineStep s = postVisibleBlankEntry (eventConsumed s) := by
  simp [engineStep_takes hd, hp, enterNextPhase, eventConsumed]

theorem engineStep_nextFrame (hp : s.phase = .postVisibleBlank) (he : s.engine = .running)
    (hrem : s.pch.rem = 0) : engineStep s = vsyncEntry (eventConsumed s) := by
  simp [engineStep_takes hd, hp, he, hrem, enterNextPhase, eventConsumed]

theorem engineStep_parks (hp : s.phase = .postVisibleBlank) (he : s.engine ≠ .running) :
    engineStep s = park (eventConsumed s) := by
  simp [engineStep_takes hd, hp, he, enterNextPhase, eventConsumed]

end

/-- The next states of the ENGINE step. -/
inductive EngineTo (s : State) : State → Prop where
  /-- No event, or a VSYNC entry that must wait (R362). -/
  | waits (h : s.tch.done = false ∨
      (s.phase = .postVisibleBlank ∧ s.engine = .running ∧ s.pch.rem ≠ 0)) : EngineTo s s
  /-- R363. -/
  | postVsyncBlank (hd : s.tch.done = true) (hp : s.phase = .vsync) :
      EngineTo s (postVsyncBlankEntry (eventConsumed s))
  /-- R364. -/
  | visible (hd : s.tch.done = true) (hp : s.phase = .postVsyncBlank) :
      EngineTo s (visibleEntry (eventConsumed s))
  /-- R365, R366. -/
  | postVisibleBlank (hd : s.tch.done = true) (hp : s.phase = .visible) :
      EngineTo s (postVisibleBlankEntry (eventConsumed s))
  /-- R360, R362. -/
  | nextFrame (hd : s.tch.done = true) (hp : s.phase = .postVisibleBlank)
      (he : s.engine = .running) (hrem : s.pch.rem = 0) : EngineTo s (vsyncEntry (eventConsumed s))
  /-- R367. -/
  | parks (hd : s.tch.done = true) (hp : s.phase = .postVisibleBlank) (he : s.engine ≠ .running) :
      EngineTo s (park (eventConsumed s))

theorem engineStep_cases (s : State) : EngineTo s (engineStep s) := by
  cases hd : s.tch.done with
  | false => rw [engineStep_waits (.inl hd)]; exact .waits (.inl hd)
  | true =>
    cases hp : s.phase with
    | vsync => rw [engineStep_vsync hd hp]; exact .postVsyncBlank hd hp
    | postVsyncBlank => rw [engineStep_postVsyncBlank hd hp]; exact .visible hd hp
    | visible => rw [engineStep_visible hd hp]; exact .postVisibleBlank hd hp
    | postVisibleBlank =>
      by_cases he : s.engine = .running
      · by_cases hrem : s.pch.rem = 0
        · rw [engineStep_nextFrame hd hp he hrem]; exact .nextFrame hd hp he hrem
        · have hbusy := And.intro hp (And.intro he hrem)
          rw [engineStep_waits (.inr hbusy)]; exact .waits (.inr hbusy)
      · rw [engineStep_parks hd hp he]; exact .parks hd hp he

/-! ### What the channels' steps can do (R373, R377, R378) -/

theorem tchEnabled_iff (s : State) :
    tchEnabled s = true ↔
      0 < s.tch.rem ∧ s.tgen.fifo.length < s.plat.tfifoDepth ∧ s.tch.prog ≠ .none := by
  simp [tchEnabled, and_assoc]

/-- One word moved from the program store to TGEN's FIFO (R373, R374). -/
def tchMoved (s : State) : State :=
  { s with
    tgen := { s.tgen with fifo := s.tgen.fifo ++
      [{ word := programWord s s.tch.prog s.tch.idx, width := s.mode.hVis.toNat }] }
    tch := { s.tch with
      idx := (s.tch.idx + 1) % programLength s.tch.prog
      rem := s.tch.rem - 1
      done := s.tch.done || s.tch.rem == 1 } }

theorem tchStep_enabled {s : State} (h : tchEnabled s = true) : tchStep s = tchMoved s := if_pos h

theorem tchStep_disabled {s : State} (h : ¬tchEnabled s = true) : tchStep s = s := if_neg h

theorem pchEnabled_iff (s : State) :
    pchEnabled s = true ↔ 0 < s.pch.rem ∧ s.pser.fifo.length < s.plat.pfifoDepth ∧
      s.pch.past = false ∧ admitsWord s s.pch.addr = true := by
  simp [pchEnabled, and_assoc]

/-- One framebuffer word moved to PSER's FIFO (R377). -/
def pchMoved (s : State) : State :=
  { s with
    pser := { s.pser with fifo := s.pser.fifo ++ [readPixelWord s s.pch.addr] }
    pch := {
      addr := s.pch.addr + 4#32
      rem := s.pch.rem - 1
      past := wrapsAfter s.pch.addr } }

theorem pchStep_enabled {s : State} (h : pchEnabled s = true) : pchStep s = pchMoved s := if_pos h

theorem pchStep_disabled {s : State} (h : ¬pchEnabled s = true) : pchStep s = s := if_neg h

theorem pserStep_begin {s : State} {t : LineTrigger} {rest : List LineTrigger}
    (h0 : s.pser.left = 0) (ht : s.pser.triggers = t :: rest) :
    pserStep s = pserBegin t rest s := by
  simp [pserStep, h0, ht]

theorem pserStep_shift {s : State} {w : PixelWord} {rest : List PixelWord}
    (h0 : 0 < s.pser.left) (hf : s.pser.fifo = w :: rest) :
    pserStep s = pserShift w rest s := by
  simp [pserStep, Nat.ne_of_gt h0, hf]

/-- With no line in progress and no trigger, or no word for the line, there is no step (R378). -/
theorem pserStep_waits {s : State}
    (h : (s.pser.left = 0 ∧ s.pser.triggers = []) ∨ (0 < s.pser.left ∧ s.pser.fifo = [])) :
    pserStep s = s := by
  obtain ⟨h0, ht⟩ | ⟨h0, hf⟩ := h
  · simp [pserStep, h0, ht]
  · simp [pserStep, Nat.ne_of_gt h0, hf]

/-- A word of a line that goes on. -/
theorem pserShift_within {s : State} (h : 16 < s.pser.left) (w : PixelWord)
    (rest : List PixelWord) :
    pserShift w rest s = { s with
      pser := { s.pser with
        fifo := rest, left := s.pser.left - 16, row := s.pser.row ++ wordPixels w }
      pix := w.b3.extractLsb' 0 2 } := by
  have hpx : (wordPixels w).take s.pser.left = wordPixels w :=
    List.take_of_length_le (show 16 ≤ s.pser.left by omega)
  simp only [pserShift, if_neg (show ¬s.pser.left ≤ 16 by omega), hpx]
  rfl

/-- The last word of a line. -/
theorem pserShift_last {s : State} (h : s.pser.left ≤ 16) (w : PixelWord)
    (rest : List PixelWord) :
    pserShift w rest s = { s with
      pser := { s.pser with fifo := rest, left := 0, row := [] }
      pix := 0#2
      shifted := s.shifted ++ [{
        line := s.pser.line, pixels := s.pser.row ++ (wordPixels w).take s.pser.left }] } :=
  if_pos h

/-- The next states of the PSER step. -/
inductive PserTo (s : State) : State → Prop where
  | waits : PserTo s s
  | begins (t : LineTrigger) (rest : List LineTrigger) (h0 : s.pser.left = 0)
      (ht : s.pser.triggers = t :: rest) : PserTo s (pserBegin t rest s)
  | shifts (w : PixelWord) (rest : List PixelWord) (h0 : 0 < s.pser.left)
      (hf : s.pser.fifo = w :: rest) : PserTo s (pserShift w rest s)

theorem pserStep_cases (s : State) : PserTo s (pserStep s) := by
  by_cases h0 : s.pser.left = 0
  · cases ht : s.pser.triggers with
    | nil => rw [pserStep_waits (.inl ⟨h0, ht⟩)]; exact .waits
    | cons t rest => rw [pserStep_begin h0 ht]; exact .begins t rest h0 ht
  · have hpos := Nat.pos_of_ne_zero h0
    cases hf : s.pser.fifo with
    | nil => rw [pserStep_waits (.inr ⟨hpos, hf⟩)]; exact .waits
    | cons w rest => rw [pserStep_shift hpos hf]; exact .shifts w rest hpos hf

end Sys2Proof.Machine

/-! PROOFS. The invariant over every step: an induction over the step packaged once, and the invariant kept by each operation. -/

namespace Sys2Proof.Machine

/-! ### What neither invariant reads -/

/-- t differs from s at most in what neither `Invariant` nor `PixelInv` reads: the ports' and hosts' contents but not their numbers, the flags and targets of the drawing commands, the token, STAGE, the records, the output pins, and the model's own turn fields. -/
def BookkeepingOnly (s t : State) : Prop :=
  t = { s with
    token := t.token, planeValid := t.planeValid, fontValid := t.fontValid, fault := t.fault
    plane := t.plane, font := t.font, stage := t.stage, ports := t.ports, hsync := t.hsync
    vsync := t.vsync, pix := t.pix, history := t.history, executed := t.executed
    shifted := t.shifted, hosts := t.hosts, refusalMark := t.refusalMark, port := t.port
    resOk := t.resOk, mid := t.mid, sched := t.sched, freeTurns := t.freeTurns } ∧
  t.ports.length = s.ports.length ∧ t.hosts.length = s.hosts.length

theorem BookkeepingOnly.refl (s : State) : BookkeepingOnly s s := ⟨rfl, rfl, rfl⟩

theorem BookkeepingOnly.trans {s t u : State} (h : BookkeepingOnly s t) (k : BookkeepingOnly t u) :
    BookkeepingOnly s u := by
  obtain ⟨hs, hp, hh⟩ := h
  obtain ⟨kt, kp, kh⟩ := k
  refine ⟨?_, kp.trans hp, kh.trans hh⟩
  rw [kt, hs]

theorem updPort_bookkeeping (p : Nat) (f : Port → Port) (s : State) :
    BookkeepingOnly s (updPort p f s) := ⟨rfl, List.length_modify .., rfl⟩

theorem updHost_bookkeeping (h : Nat) (f : HostCtx → HostCtx) (s : State) :
    BookkeepingOnly s (updHost h f s) := ⟨rfl, rfl, List.length_modify ..⟩

theorem takeAccess_bookkeeping (h : Nat) (s : State) : BookkeepingOnly s (takeAccess h s) :=
  updHost_bookkeeping h _ s

theorem settle_bookkeeping (h : Nat) (s : State) : BookkeepingOnly s (settle h s) :=
  updHost_bookkeeping h _ s

theorem refuseAccess_bookkeeping (h : Nat) (s : State) : BookkeepingOnly s (refuseAccess h s) :=
  .trans (t := { s with refusalMark := true }) ⟨rfl, rfl, rfl⟩ (updHost_bookkeeping h _ _)

theorem raiseFault_bookkeeping (c : FaultCode) (s : State) : BookkeepingOnly s (raiseFault c s) :=
  .trans (t := { s with fault := recordedFault s.fault c }) ⟨rfl, rfl, rfl⟩
    (updPort_bookkeeping _ _ _)

theorem port_bookkeeping (p : Nat) (s : State) : BookkeepingOnly s { s with port := p } :=
  ⟨rfl, rfl, rfl⟩

/-- A command issued, before it is performed: the access taken, its word in CMD (R53). -/
theorem issued_bookkeeping (h : Nat) (w : Word) (s : State) : BookkeepingOnly s
    { updPort h (fun q => { q with cmd := w }) (takeAccess h s) with port := h } :=
  ((takeAccess_bookkeeping h s).trans (updPort_bookkeeping h _ _)).trans (port_bookkeeping h _)

theorem regWrite_bookkeeping {r : Reg} (hr : ∀ p, r ≠ .cmd p) (v : Word) (s : State) :
    BookkeepingOnly s (regWrite r v s) := by
  cases r with
  | stage => exact ⟨rfl, rfl, rfl⟩
  | arg0 p | arg1 p | arg2 p => exact updPort_bookkeeping p _ s
  | _ => exact .refl s

/-- Taking a turn, of the schedule or free. -/
theorem turn_bookkeeping (s : State) :
    BookkeepingOnly s (beginTurn (nextTurn s).1 (nextTurn s).2) := by
  unfold nextTurn
  split <;> exact ⟨rfl, rfl, rfl⟩

/-! ### An induction over the step, packaged once

Beside `Invariant`, a property is kept by every step if bookkeeping keeps it and so does each operation that changes what the invariants read. -/

/-- What TGEN's turn on the head word q of its FIFO changes of what the invariants read (R375): the word is gone, and with TRIG one line of its width is owed (R212). -/
structure WordTo (q : QueuedWord) (qs : List QueuedWord) (s t : State) : Prop where
  frame : t = { s with
    tgen := t.tgen, pser := t.pser, hsync := t.hsync, vsync := t.vsync
    executed := t.executed, history := t.history }
  queue : t.tgen.fifo = qs
  fifo : t.pser.fifo = s.pser.fifo
  left : t.pser.left = s.pser.left
  triggers : t.pser.triggers = s.pser.triggers ++
    if twTrig q.word then
      [{ line := if twVs q.word then 0 else s.pser.nextLine, width := q.width }] else []

theorem wordTo_of_exec {q : QueuedWord} {qs : List QueuedWord} {s t : State} {i : Instr}
    (hd : decodeTiming q.word = .ok i)
    (he : exec i { s with tgen := { s.tgen with fifo := qs, width := q.width } } = .next t) :
    WordTo q qs s t := by
  obtain ⟨-, rfl⟩ := (decodeTiming_eq_ok_iff _ _).mp hd
  have hdur : twDur q.word ≠ 0#16 := fun h => by
    rw [h, exec_tw_dur_zero] at he
    cases he
  rw [timingWordExecutes _ _ _ _ _ hdur] at he
  obtain rfl := Host.Outcome.next.inj he
  cases ht : twTrig q.word
  · constructor <;> simp [ht]
  · constructor <;> simp [ht]

/-- A property that every step keeps in states that meet `Invariant`, operation by operation. -/
structure StepStable (P : State → Prop) : Prop where
  bookkeeping : ∀ s t, BookkeepingOnly s t → P s → P t
  claim : ∀ s, Invariant s → P s → s.engine = .uninit →
    P { s with engine := .idle, phase := .vsync, token := false }
  release : ∀ s, Invariant s → P s → s.engine = .idle → P { s with engine := .uninit }
  stop : ∀ s, P s → s.engine = .running → P { s with engine := .stopping }
  publish : ∀ s (a : Word), P s → a.toNat % 4 = 0 → P { s with liveHandle := a }
  setMode : ∀ s, Invariant s → P s → s.engine = .uninit ∨ s.engine = .idle →
    accepted s.stage = true → P (applyMode s)
  start : ∀ s, Invariant s → P s → s.engine = .idle → s.modeValid = true → s.pch.rem = 0 →
    P (vsyncEntry { s with engine := .running })
  draw : DrawStable P
  engine : ∀ s t, Invariant s → P s → EngineTo s t → P t
  tch : ∀ s, Invariant s → P s → tchEnabled s = true → P (tchMoved s)
  tgenIdle : ∀ s, P s → P (tgenIdle s)
  tgenWord : ∀ s t q qs, P s → s.tgen.fifo = q :: qs → WordTo q qs s t → P t
  reset : ∀ s, P s → P (platformReset s)

/-- Each case of a command is one of the operations, with the port changed after it. -/
theorem StepStable.command {P : State → Prop} (h : StepStable P) {s t : State} {i : Instr}
    (hs : Invariant s) (hp : P s) (hi : i.isCommand = true) (he : ExecTo s i t) : P t := by
  have update {u : State} (f : Port → Port) (hu : P u) : P (updPort s.port f u) :=
    h.bookkeeping _ _ (updPort_bookkeeping _ f u) hu
  cases he with
  | fault _ c => exact h.bookkeeping _ _ (raiseFault_bookkeeping c s) hp
  | hold _ k => exact update _ hp
  | same => exact hp
  | result _ v => exact update _ hp
  | claim he => exact h.claim s hs hp he
  | release he => exact h.release s hs hp he
  | releaseHeld he => exact update _ (h.release s hs hp he)
  | apply hb ha => exact update _ (h.setMode s hs hp hb ha)
  | prime he hm hrem => exact update _ (h.start s hs hp he hm hrem)
  | stopping he => exact h.stop s hp he
  | publish ha => exact h.publish s _ hp ha
  | takeToken => exact update _ (h.bookkeeping s { s with token := false } ⟨rfl, rfl, rfl⟩ hp)
  | plane | font => exact h.bookkeeping s _ ⟨rfl, rfl, rfl⟩ hp
  | draw _ _ _ _ hdraw => exact hdraw P h.draw hp
  | word => cases hi

theorem isCommand_of_decode {w : Word} {i : Instr} (h : decodeCommand w = .ok i) :
    i.isCommand = true := ((encodeOfDecode w i).1 h).1

/-- Each case of one agent's step is one of the operations, between two pieces of bookkeeping. -/
theorem StepStable.agent {P : State → Prop} (h : StepStable P) (hinv : StepStable Invariant)
    {a : Agent} {s t : State} (hs : Invariant s) (hp : P s) (ht : StepTo s a t) : P t := by
  have book {u v : State} (huv : BookkeepingOnly u v) (hu : P u) : P v := h.bookkeeping u v huv hu
  have performed {n : Nat} {i : Instr} {w : Word} {u v : State} (hu : BookkeepingOnly s u)
      (hd : decodeCommand w = .ok i) (he : exec i u = .next v) : P (settle n v) := by
    have hv := h.command (hinv.bookkeeping s u hu hs) (book hu hp) (isCommand_of_decode hd)
      (exec_cases he)
    exact book (settle_bookkeeping n v) hv
  have illegal {n : Nat} {u : State} (hu : BookkeepingOnly s u) :
      P (settle n (raiseFault .opcode u)) :=
    book ((hu.trans (raiseFault_bookkeeping _ u)).trans (settle_bookkeeping n _)) hp
  cases ht with
  | idle => exact hp
  | load n => exact book ((takeAccess_bookkeeping n s).trans (updHost_bookkeeping n _ _)) hp
  | goesOn n => exact book (settle_bookkeeping n s) hp
  | refuse n => exact book (refuseAccess_bookkeeping n s) hp
  | store n c r v _ _ hr =>
    exact book ((takeAccess_bookkeeping n s).trans (regWrite_bookkeeping hr v _)) hp
  | issued n c w i t _ _ _ hd he => exact performed (issued_bookkeeping n w s) hd he
  | issuedIllegal n c w => exact illegal (issued_bookkeeping n w s)
  | retried n c i t _ _ hd he => exact performed (port_bookkeeping n s) hd he
  | retriedIllegal n => exact illegal (port_bookkeeping n s)
  | engine => exact h.engine s _ hs hp (engineStep_cases s)
  | tch =>
    by_cases he : tchEnabled s = true
    · rw [tchStep_enabled he]; exact h.tch s hs hp he
    · rw [tchStep_disabled he]; exact hp
  | pch => exact h.draw.intrude s .pch hp
  | pser => exact h.draw.intrude s .pser hp
  | tgenIdle => exact h.tgenIdle s hp
  | tgenWord q qs i _ hf hd he => exact h.tgenWord s t q qs hp hf (wordTo_of_exec hd he)
  | outside a v => exact h.draw.intrude s (.outside a v) hp
  | reset => exact h.reset s hp

/-- Taking the turn is bookkeeping, so what each agent's step keeps the machine's step keeps. -/
theorem StepStable.step {P : State → Prop} (h : StepStable P) (hinv : StepStable Invariant)
    {s t : State} (hs : Invariant s) (hp : P s) (ht : step s = .next t) : P t :=
  have hb := turn_bookkeeping s
  h.agent hinv (hinv.bookkeeping _ _ hb hs) (h.bookkeeping _ _ hb hp) (agentStep_cases ht)

/-! ### The invariant, operation by operation (R368, R209, R86, R401) -/

/-- A completion event, or words to move, are there only while a frame is in flight (R368). -/
theorem EngineInv.inFlight {s : State} (h : EngineInv s) (hb : s.tch.done = true ∨ 0 < s.tch.rem) :
    s.engine = .running ∨ s.engine = .stopping := by
  obtain ⟨hparked, -⟩ := h
  by_contra hne
  have hidle : s.engine = .uninit ∨ s.engine = .idle := by
    cases he : s.engine <;> simp [he] at hne ⊢
  obtain ⟨hrem, hdone, -⟩ := hparked hidle
  simp [hrem, hdone] at hb

/-- A completion event comes with the last word of a phase of a frame in flight (R368, R374). -/
theorem EngineInv.of_event {s : State} (h : EngineInv s) (hd : s.tch.done = true) :
    (s.engine = .running ∨ s.engine = .stopping) ∧ s.modeValid = true ∧ s.tch.rem = 0 := by
  have hf := h.inFlight (.inl hd)
  obtain ⟨hm, -, hevent⟩ := h.2 hf
  exact ⟨hf, hm, by simpa [hd] using hevent⟩

/-- TCH moves words of the program of a frame in flight, before its completion event (R368, R373). -/
theorem EngineInv.of_words {s : State} (h : EngineInv s) (hr : 0 < s.tch.rem) :
    (s.engine = .running ∨ s.engine = .stopping) ∧ s.modeValid = true ∧
      s.tch.prog = programOfPhase s.phase ∧ s.tch.done = false := by
  have hf := h.inFlight (.inr hr)
  obtain ⟨hm, hprog, hevent⟩ := h.2 hf
  exact ⟨hf, hm, hprog, by simpa [hr, Nat.ne_of_gt hr] using hevent⟩

/-- A phase just armed with n > 0 words (R372) is as R368 asks. -/
theorem engineInv_of_armed {s : State} {n : Nat} (he : s.engine = .running ∨ s.engine = .stopping)
    (hm : s.modeValid = true)
    (ht : s.tch = { prog := programOfPhase s.phase, idx := 0, rem := n, done := false })
    (hn : 0 < n) : EngineInv s := by
  refine ⟨fun hidle => ?_, fun _ => ⟨hm, by rw [ht], .inl ⟨by rw [ht]; exact hn, by rw [ht]⟩⟩⟩
  obtain he | he := he <;> simp [he] at hidle

/-- With an active mode every phase has a line (R157, R480). -/
theorem ModeInv.count_pos {s : State} (h : ModeInv s) (hm : s.modeValid = true) {k : Nat}
    (hk : k < 4) : 0 < s.count[k].toNat :=
  (h hm).2 _ (Vector.mem_toList_iff.mpr (Vector.getElem_mem hk))

theorem programWord_mem (s : State) (i : Nat) :
    programWord s .vis i ∈ s.progVis.toList ∧ programWord s .blank i ∈ s.progBlank.toList ∧
      programWord s .vsync i ∈ s.progVsync.toList := by
  obtain ⟨-, -, -, hvis, hblank, hvsync⟩ := ringStaysInItsProgram s i
  simp only [Vector.mem_toList_iff]
  exact ⟨Vector.mem_of_getElem? hvis.symm, Vector.mem_of_getElem? hblank.symm,
    Vector.mem_of_getElem? hvsync.symm⟩

/-- The programs of a legal store hold legal words only (R209). -/
theorem programWord_legal {s : State} (h : storeLegal s) {q : Program} (hq : q ≠ .none) (i : Nat) :
    twLegal (programWord s q i) = true := by
  obtain ⟨hvis, hblank, hvsync⟩ := h
  obtain ⟨mvis, mblank, mvsync⟩ := programWord_mem s i
  cases q with
  | none => exact absurd rfl hq
  | vis => exact hvis _ mvis
  | blank => exact hblank _ mblank
  | vsync => exact hvsync _ mvsync

theorem programLength_pos {q : Program} (hq : q ≠ .none) : 0 < programLength q := by
  cases q with
  | none => exact absurd rfl hq
  | _ => decide

theorem Invariant.of_bookkeeping {s t : State} (h : BookkeepingOnly s t) (hs : Invariant s) :
    Invariant t := by
  obtain ⟨hmem, heng, hmode, hchan, hhandle, hports, hmax, hhosts, hplat⟩ := hs
  obtain ⟨ht, hp, hh⟩ := h
  rw [← hp] at hports hmax
  rw [← hp, ← hh] at hhosts
  rw [ht]
  exact ⟨hmem, heng, hmode, hchan, hhandle, hports, hmax, hhosts, hplat⟩

/-- What PCH, PSER and a store may change keeps the invariant if memory stays in canonical form, PSER's FIFO in its bound and PCH's address aligned. -/
theorem Invariant.of_memoryPath {s t : State} (h : MemoryPathOnly s t) (hs : Invariant s)
    (hmem : Memory.wf t.mem) (hfifo : t.pser.fifo.length ≤ s.plat.pfifoDepth)
    (haddr : t.pch.addr.toNat % 4 = 0) : Invariant t := by
  obtain ⟨-, heng, hmode, ⟨hq, htgen, -, hidx⟩, ⟨hlive, hframe, -⟩, hplat⟩ := hs
  rw [h]
  exact ⟨hmem, heng, hmode, ⟨hq, htgen, hfifo, hidx⟩, ⟨hlive, hframe, haddr⟩, hplat⟩

/-- A phase entered, its program just armed, keeps the invariant if the handles stay aligned (R368 (b), R372). -/
theorem Invariant.of_armed {s t : State} {n : Nat} (hs : Invariant s)
    (h : t = { s with
      engine := t.engine, phase := t.phase, tch := t.tch, frameHandle := t.frameHandle
      pch := t.pch, token := t.token, history := t.history })
    (he : t.engine = .running ∨ t.engine = .stopping) (hm : s.modeValid = true)
    (ht : t.tch = { prog := programOfPhase t.phase, idx := 0, rem := n, done := false })
    (hn : 0 < n) (hframe : t.frameHandle.toNat % 4 = 0) (haddr : t.pch.addr.toNat % 4 = 0) :
    Invariant t := by
  obtain ⟨hmem, -, hmode, ⟨hq, hlen, hfifo, -⟩, ⟨hlive, -, -⟩, hplat⟩ := hs
  have heng : EngineInv t := engineInv_of_armed he (by rw [h]; exact hm) ht hn
  have hidx : t.tch.prog ≠ .none → t.tch.idx < programLength t.tch.prog := fun hne => by
    rw [ht] at hne ⊢
    exact programLength_pos hne
  rw [h] at heng ⊢
  exact ⟨hmem, heng, hmode, ⟨hq, hlen, hfifo, hidx⟩, ⟨hlive, hframe, haddr⟩, hplat⟩

/-- PSER leaves PCH alone and takes words from its FIFO only. -/
theorem PserTo.pch_fifo {s t : State} (ht : PserTo s t) :
    t.pch = s.pch ∧ t.pser.fifo.length ≤ s.pser.fifo.length := by
  cases ht with
  | waits => exact ⟨rfl, le_refl _⟩
  | begins => exact ⟨rfl, le_refl _⟩
  | shifts w rest _ hf =>
    unfold pserShift
    split <;> simp [hf]

theorem add_four_aligned {a : Word} (h : a.toNat % 4 = 0) : (a + 4#32).toNat % 4 = 0 := by
  rw [BitVec.toNat_add, BitVec.toNat_ofNat]
  omega

theorem pchStep_invariant {s : State} (hs : Invariant s) : Invariant (pchStep s) := by
  by_cases he : pchEnabled s = true
  · have hpath := pchStep_memoryPathOnly s
    rw [pchStep_enabled he] at hpath ⊢
    obtain ⟨-, hroom, -⟩ := (pchEnabled_iff s).mp he
    obtain ⟨hmem, -, -, -, ⟨-, -, haddr⟩, -⟩ := id hs
    exact hs.of_memoryPath hpath hmem (by simpa [pchMoved] using hroom) (add_four_aligned haddr)
  · rwa [pchStep_disabled he]

theorem invariant_drawStable : DrawStable Invariant where
  mid s l hs := hs.of_bookkeeping ⟨rfl, rfl, rfl⟩
  intrude s i hs := by
    obtain ⟨hmem, -, -, ⟨-, -, hfifo, -⟩, ⟨-, -, haddr⟩, -⟩ := id hs
    have hwf := wf_drawStable.intrude s i hmem
    cases i with
    | outside a v =>
      obtain ⟨hpch, hpser⟩ :
          (outsideStore a v s).pch = s.pch ∧ (outsideStore a v s).pser = s.pser := by
        unfold outsideStore
        split <;> exact ⟨rfl, rfl⟩
      exact hs.of_memoryPath (outsideStore_memoryPathOnly a v s) hwf (hpser ▸ hfifo) (hpch ▸ haddr)
    | pch => exact pchStep_invariant hs
    | pser =>
      obtain ⟨hpch, hlen⟩ := (pserStep_cases s).pch_fifo
      exact hs.of_memoryPath (pserStep_memoryPathOnly s) hwf (hlen.trans hfifo) (hpch ▸ haddr)
  store s a v hs := by
    obtain ⟨hmem, -, -, ⟨-, -, hfifo, -⟩, ⟨-, -, haddr⟩, -⟩ := id hs
    exact hs.of_memoryPath rfl (wf_drawStable.store s a v hmem) hfifo haddr

/-- The words an accepted descriptor compiles to are legal, and each phase has a line (R157, R209). -/
theorem modeInv_applyMode {s : State} (ha : accepted s.stage = true) : ModeInv (applyMode s) := by
  obtain ⟨hv, he⟩ := (accepted_iff _).mp ha
  obtain ⟨-, hcount, -⟩ := acceptedDescriptorsCompile _ hv he
  obtain ⟨hwords, -⟩ := emittedWordsAreLegal _ hv he
  have legal (w : Word) (hw : w ∈ (compileBlank s.stage).toList ++ (compileVsync s.stage).toList ++
      (compileVis s.stage).toList) : twLegal w = true := by
    obtain ⟨hmin, -, hrsv⟩ := hwords w hw
    have hdur : twDur w ≠ 0#16 := fun h => by simp [h] at hmin
    simp [twLegal, hdur, hrsv]
  refine fun _ => ⟨⟨fun w hw => legal w ?_, fun w hw => legal w ?_, fun w hw => legal w ?_⟩,
    fun c hc => (hcount c hc).1⟩
  · exact List.mem_append_right _ hw
  · exact List.mem_append_left _ (List.mem_append_left _ hw)
  · exact List.mem_append_left _ (List.mem_append_right _ hw)

/-- TCH moves a legal word, and raises the event with the last one (R209, R374). -/
theorem tchMoved_invariant {s : State} (hs : Invariant s) (he : tchEnabled s = true) :
    Invariant (tchMoved s) := by
  obtain ⟨hrem, hroom, hprog⟩ := (tchEnabled_iff s).mp he
  obtain ⟨hmem, heng, hmode, ⟨hq, -, hfifo, -⟩, hhandle, hplat⟩ := hs
  obtain ⟨hflight, hm, hphase, hdone⟩ := heng.of_words hrem
  obtain ⟨hstore, -⟩ := hmode hm
  have hparked : ¬((tchMoved s).engine = .uninit ∨ (tchMoved s).engine = .idle) := by
    obtain he | he := hflight <;> simp [tchMoved, he]
  refine ⟨hmem, ⟨fun hidle => absurd hidle hparked, fun _ => ⟨hm, hphase, ?_⟩⟩, hmode,
    ⟨?_, ?_, hfifo, fun hne => Nat.mod_lt _ (programLength_pos hne)⟩, hhandle, hplat⟩
  · simp only [tchMoved, hdone, Bool.false_or, beq_iff_eq, beq_eq_false_iff_ne]
    omega
  · refine List.forall_mem_append.mpr ⟨hq, ?_⟩
    simp [programWord_legal hstore hprog]
  · simpa [tchMoved] using hroom

/-- Each entry arms its phase; the park leaves what R368 (a) asks of IDLE. -/
theorem EngineTo.invariant {s t : State} (ht : EngineTo s t) (hs : Invariant s) : Invariant t := by
  obtain ⟨hmem, heng, hmode, hchan, ⟨hlive, hframe, haddr⟩, hplat⟩ := id hs
  have words {k : Nat} (n : Nat) (hm : s.modeValid = true) (hk : k < 4) :
      0 < (n + 1) * s.count[k].toNat := Nat.mul_pos n.succ_pos (hmode.count_pos hm hk)
  cases ht with
  | waits => exact hs
  | postVsyncBlank hd =>
    obtain ⟨hf, hm, -⟩ := heng.of_event hd
    exact hs.of_armed rfl hf hm rfl (words (k := 1) 1 hm (by decide)) hframe haddr
  | visible hd =>
    obtain ⟨hf, hm, -⟩ := heng.of_event hd
    exact hs.of_armed rfl hf hm rfl (words (k := 2) 3 hm (by decide)) hframe haddr
  | postVisibleBlank hd =>
    obtain ⟨hf, hm, -⟩ := heng.of_event hd
    exact hs.of_armed rfl hf hm rfl (words (k := 3) 1 hm (by decide)) hframe haddr
  | nextFrame hd =>
    obtain ⟨hf, hm, -⟩ := heng.of_event hd
    exact hs.of_armed rfl hf hm rfl (words (k := 0) 1 hm (by decide)) hlive hlive
  | parks hd =>
    obtain ⟨-, -, hrem⟩ := heng.of_event hd
    obtain ⟨hq, hlen, hfifo, -⟩ := hchan
    exact ⟨hmem, ⟨fun _ => ⟨hrem, rfl, rfl⟩, by simp [park]⟩, hmode,
      ⟨hq, hlen, hfifo, by simp [park]⟩, ⟨hlive, hframe, haddr⟩, hplat⟩

/-- The prime of START is a VSYNC entry from IDLE, where no event is left over (R356, R368). -/
theorem startEntry_invariant {s : State} (hs : Invariant s) (he : s.engine = .idle)
    (hm : s.modeValid = true) : Invariant (vsyncEntry { s with engine := .running }) := by
  obtain ⟨-, ⟨hparked, -⟩, hmode, -, ⟨hlive, -⟩, -⟩ := id hs
  obtain ⟨-, hdone, -⟩ := hparked (.inr he)
  have htch : (vsyncEntry { s with engine := .running }).tch =
      { prog := .vsync, idx := 0, rem := 2 * s.count[0].toNat, done := false } := by
    rw [← hdone]; rfl
  have hlines := hmode.count_pos hm (k := 0) (by decide)
  exact hs.of_armed rfl (.inl rfl) hm htch (by omega) hlive hlive

theorem WordTo.invariant {s t : State} {q : QueuedWord} {qs : List QueuedWord}
    (ht : WordTo q qs s t) (hs : Invariant s) (hf : s.tgen.fifo = q :: qs) : Invariant t := by
  obtain ⟨hmem, heng, hmode, ⟨hq, hlen, hfifo, hidx⟩, hhandle, hplat⟩ := hs
  rw [hf] at hq hlen
  rw [ht.frame]
  refine ⟨hmem, heng, hmode, ⟨?_, ?_, ?_, hidx⟩, hhandle, hplat⟩
  · exact ht.queue ▸ (List.forall_mem_cons.mp hq).2
  · exact ht.queue ▸ Nat.le_of_succ_le hlen
  · exact ht.fifo ▸ hfifo

/-- Of what the invariant speaks of, the reset leaves memory, the platform and the number of ports and hosts as they are (R470, R471). -/
theorem platformReset_invariant {s : State} (hs : Invariant s) : Invariant (platformReset s) := by
  obtain ⟨hmem, -, -, -, -, hports, hmax, hhosts, hplat⟩ := hs
  have hn : (platformReset s).ports.length = s.ports.length := List.length_replicate
  have hh : (platformReset s).hosts.length = s.hosts.length := List.length_map _
  refine ⟨hmem, ⟨fun _ => ⟨rfl, rfl, rfl⟩, nofun⟩, nofun, ⟨nofun, Nat.zero_le _, Nat.zero_le _, ?_⟩,
    ⟨rfl, rfl, rfl⟩, hn ▸ hports, hn ▸ hmax, by rw [hn, hh, hhosts], hplat⟩
  exact fun h => absurd rfl h

/-- Each operation keeps the invariant. -/
theorem invariant_stepStable : StepStable Invariant where
  bookkeeping _ _ h hs := hs.of_bookkeeping h
  claim s _ hs he := by
    obtain ⟨hmem, ⟨hparked, -⟩, hrest⟩ := hs
    obtain ⟨hrem, hdone, -⟩ := hparked (.inl he)
    exact ⟨hmem, ⟨fun _ => ⟨hrem, hdone, rfl⟩, by simp⟩, hrest⟩
  release s _ hs he := by
    obtain ⟨hmem, ⟨hparked, -⟩, hrest⟩ := hs
    exact ⟨hmem, ⟨fun _ => hparked (.inr he), by simp⟩, hrest⟩
  stop s hs he := by
    obtain ⟨hmem, ⟨-, hflight⟩, hrest⟩ := hs
    exact ⟨hmem, ⟨by simp, fun _ => hflight (.inl he)⟩, hrest⟩
  publish s a hs ha := by
    obtain ⟨hmem, heng, hmode, hchan, ⟨-, hframe, haddr⟩, hplat⟩ := hs
    exact ⟨hmem, heng, hmode, hchan, ⟨ha, hframe, haddr⟩, hplat⟩
  setMode s _ hs _ ha := by
    obtain ⟨hmem, ⟨hparked, hflight⟩, -, hrest⟩ := hs
    exact ⟨hmem, ⟨hparked, fun hf => ⟨rfl, (hflight hf).2⟩⟩, modeInv_applyMode ha, hrest⟩
  start _ _ hs he hm _ := startEntry_invariant hs he hm
  draw := invariant_drawStable
  engine _ _ _ hs ht := ht.invariant hs
  tch _ _ hs he := tchMoved_invariant hs he
  tgenIdle _ hs := hs
  tgenWord _ _ _ _ hs hf ht := ht.invariant hs hf
  reset _ hs := platformReset_invariant hs

/-- Settles O56: every operation keeps the invariant, so every step does. -/
theorem stepKeepsTheInvariant : Obligations.StepKeepsTheInvariant :=
  fun _ _ hs ht => invariant_stepStable.step invariant_stepStable hs hs ht

end Sys2Proof.Machine

/-! PROOFS. The pixel balance over every step: what an active mode gives it, and the balance kept by each operation. -/

namespace Sys2Proof.Machine

/-! ### What an active mode gives the balance (R206, R207, R208) -/

/-- A transfer of an accepted mode is its visible lines, 16 pixels a word, and fits PIXWORDS (R156, R207). -/
theorem sixteen_mul_pixWords {m : ModeDesc} (ha : accepted m = true) :
    16 * (BitVec.ofNat 32 (pixWords m)).toNat = m.vVis.toNat * m.hVis.toNat := by
  obtain ⟨hv, he⟩ := (accepted_iff m).mp ha
  obtain ⟨-, -, -, hline, -, -, hL⟩ := encodable_clocks hv he
  obtain ⟨-, -, -, -, hwidth, -⟩ := hv
  obtain ⟨-, -, -, hlines, -, -, -, -, -, hmax⟩ := he
  have hfits : pixWords m < 2 ^ 32 := by
    rw [pixWords_eq]
    calc m.vVis.toNat * (m.hVis.toNat / 16) ≤ 65535 * 4095 := Nat.mul_le_mul (by omega) (by omega)
      _ < 2 ^ 32 := by decide
  rw [BitVec.toNat_ofNat, Nat.mod_eq_of_lt hfits, pixWords_eq, Nat.mul_left_comm,
    Nat.mul_div_cancel' (Nat.dvd_of_mod_eq_zero hwidth)]

/-- The four words of a line of VIS trigger once (R208), so n lines trigger n times. -/
theorem triggersAhead_compileVis {m : ModeDesc} (ha : accepted m = true) (n : Nat) :
    triggersAhead (compileVis m) 0 (4 * n) = n := by
  obtain ⟨hv, he⟩ := (accepted_iff m).mp ha
  have line (k : Nat) :
      triggersAhead (compileVis m) 0 (k + 4) = triggersAhead (compileVis m) 0 k + 1 := by
    obtain ⟨a, b, c, d, h, -⟩ | ⟨a, b, c, d, h, -⟩ | ⟨a, b, c, d, h, -⟩ := compileVis_cases hv he
    all_goals
      simp [triggersAhead, h]
      omega
  induction n with
  | zero => rfl
  | succ n ih => rw [Nat.mul_succ, line, ih]

section
variable {s : State} (h : ModeWhole s) (hm : s.modeValid = true)
include h hm

theorem ModeWhole.width : s.mode.hVis.toNat % 16 = 0 := by
  obtain ⟨ha, -⟩ := h hm
  obtain ⟨⟨-, -, -, -, hwidth, -⟩, -⟩ := (accepted_iff _).mp ha
  exact hwidth

/-- The transfer a VSYNC entry arms is the visible lines of its frame (R361, R207). -/
theorem ModeWhole.transfer :
    16 * s.pixwords.toNat = s.mode.vVis.toNat * s.mode.hVis.toNat := by
  obtain ⟨ha, -, -, -, -, hwords⟩ := h hm
  rw [hwords, sixteen_mul_pixWords ha]

/-- The words a VISIBLE entry arms trigger the visible lines of its frame (R364, R208). -/
theorem ModeWhole.lines :
    triggersAhead s.progVis 0 (4 * s.count[2].toNat) = s.mode.vVis.toNat := by
  obtain ⟨ha, -, -, hvis, hcount, -⟩ := h hm
  rw [hvis, hcount]
  exact triggersAhead_compileVis ha _

/-- Outside the visible phase TCH moves no word with TRIG (R204, R205). -/
theorem ModeWhole.no_trigger {q : Program} (hq : q = .vsync ∨ q = .blank) (i : Nat) :
    twTrig (programWord s q i) = false := by
  obtain ⟨-, hblank, hvsync, -⟩ := h hm
  obtain ⟨-, mblank, mvsync⟩ := programWord_mem s i
  have split {w : Word} {vs : Bool} (hw : w ∈ syncSplit s.mode vs) : twTrig w = false := by
    obtain ⟨-, htrig, -⟩ := syncSplit_flags _ _ _ hw
    exact htrig
  obtain rfl | rfl := hq
  · rw [hvsync, compileVsync_toList] at mvsync
    exact split mvsync
  · rw [hblank, compileBlank_toList] at mblank
    exact split mblank

end

/-! ### The balance, side by side (R378) -/

theorem pixelsQueued_append (l : List QueuedWord) (q : QueuedWord) :
    pixelsQueued (l ++ [q]) = pixelsQueued l + if twTrig q.word then q.width else 0 := by
  induction l with
  | nil => simp [pixelsQueued]
  | cons p l ih => simp [pixelsQueued, ih, Nat.add_assoc]

theorem pixelsTriggered_append (l k : List LineTrigger) :
    pixelsTriggered (l ++ k) = pixelsTriggered l + pixelsTriggered k := by
  induction l with
  | nil => simp [pixelsTriggered]
  | cons t l ih => simp [pixelsTriggered, ih, Nat.add_assoc]

theorem linesAhead_parked {s : State} (h : EngineInv s)
    (he : s.engine = .uninit ∨ s.engine = .idle) : linesAhead s = 0 := by
  obtain ⟨-, -, hp⟩ := h.1 he
  obtain he | he := he <;> simp [linesAhead, hp, he]

/-- Before the visible phase of a frame in flight all its lines are ahead. -/
theorem linesAhead_before {s : State} (hp : s.phase = .vsync ∨ s.phase = .postVsyncBlank)
    (he : s.engine = .running ∨ s.engine = .stopping) : linesAhead s = s.mode.vVis.toNat := by
  obtain hp | hp := hp <;> simp [linesAhead, hp, he]

/-- The pixels of the lines whose words TCH has still to move. -/
def pixelsAhead (s : State) : Nat := linesAhead s * s.mode.hVis.toNat

theorem PixelInv.modeWhole {s : State} (h : PixelInv s) : ModeWhole s := by
  obtain ⟨hw, -⟩ := h
  exact hw

/-- A step that leaves TGEN's FIFO alone keeps the balance if the pixels PCH and PSER hold and those owed change alike. -/
theorem PixelInv.of_balance {s t : State} (hs : PixelInv s) (hmode : ModeWhole t)
    (htgen : t.tgen.fifo = s.tgen.fifo) (hleft : t.pser.left % 16 = 0)
    (htrig : ∀ l ∈ t.pser.triggers, l.width % 16 = 0)
    (hbal : 16 * (t.pser.fifo.length + t.pch.rem) +
        (s.pser.left + pixelsTriggered s.pser.triggers + pixelsAhead s) =
      16 * (s.pser.fifo.length + s.pch.rem) +
        (t.pser.left + pixelsTriggered t.pser.triggers + pixelsAhead t)) : PixelInv t := by
  obtain ⟨-, -, -, hqueue, hpix⟩ := hs
  unfold pixelsAhead at hbal
  refine ⟨hmode, hleft, htrig, htgen ▸ hqueue, ?_⟩
  rw [htgen]
  omega

/-- A step that leaves PSER alone too. -/
theorem PixelInv.of_armed {s t : State} (hs : PixelInv s) (hmode : ModeWhole t)
    (htgen : t.tgen = s.tgen) (hpser : t.pser = s.pser)
    (hbal : 16 * t.pch.rem + pixelsAhead s = 16 * s.pch.rem + pixelsAhead t) : PixelInv t := by
  obtain ⟨-, hleft, htrig, -⟩ := id hs
  rw [← hpser] at hleft htrig
  exact hs.of_balance hmode (by rw [htgen]) hleft htrig (by rw [hpser]; omega)

/-- A step on the memory path changes neither the mode nor what is ahead. -/
theorem PixelInv.of_memoryPath {s t : State} (h : MemoryPathOnly s t) (hs : PixelInv s)
    (hleft : t.pser.left % 16 = 0) (htrig : ∀ l ∈ t.pser.triggers, l.width % 16 = 0)
    (hbal : 16 * (t.pser.fifo.length + t.pch.rem) +
        (s.pser.left + pixelsTriggered s.pser.triggers) =
      16 * (s.pser.fifo.length + s.pch.rem) +
        (t.pser.left + pixelsTriggered t.pser.triggers)) : PixelInv t := by
  have hmode : ModeWhole t := by rw [h]; exact hs.modeWhole
  have hahead : pixelsAhead t = pixelsAhead s := by rw [h]; rfl
  exact hs.of_balance hmode (by rw [h]) hleft htrig (by omega)

theorem pchStep_pixelInv {s : State} (hs : PixelInv s) : PixelInv (pchStep s) := by
  by_cases he : pchEnabled s = true
  · have hpath := pchStep_memoryPathOnly s
    rw [pchStep_enabled he] at hpath ⊢
    obtain ⟨hrem, -⟩ := (pchEnabled_iff s).mp he
    obtain ⟨-, hleft, htrig, -⟩ := id hs
    refine hs.of_memoryPath hpath hleft htrig ?_
    simp only [pchMoved, List.length_append, List.length_singleton]
    omega
  · rwa [pchStep_disabled he]

/-- A line begun is owed as it was; a word shifted is 16 pixels less on either side. -/
theorem PserTo.pixelInv {s t : State} (ht : PserTo s t) (hs : PixelInv s)
    (hpath : MemoryPathOnly s t) : PixelInv t := by
  obtain ⟨-, hleft, htrig, -⟩ := id hs
  cases ht with
  | waits => exact hs
  | begins l rest h0 ht =>
    rw [ht, List.forall_mem_cons] at htrig
    refine hs.of_memoryPath hpath htrig.1 htrig.2 ?_
    simp only [pserBegin, h0, ht, pixelsTriggered]
    omega
  | shifts w rest h0 hf =>
    by_cases h16 : 16 < s.pser.left
    · rw [pserShift_within h16] at hpath ⊢
      refine hs.of_memoryPath hpath (by simp only; omega) htrig ?_
      simp only [hf, List.length_cons]
      omega
    · rw [pserShift_last (Nat.le_of_not_lt h16)] at hpath ⊢
      refine hs.of_memoryPath hpath rfl htrig ?_
      simp only [hf, List.length_cons]
      omega

theorem pixelInv_drawStable : DrawStable PixelInv where
  mid _ _ hs := hs
  intrude s i hs := by
    cases i with
    | outside a v =>
      show PixelInv (outsideStore a v s)
      unfold outsideStore; split <;> exact hs
    | pch => exact pchStep_pixelInv hs
    | pser => exact (pserStep_cases s).pixelInv hs (pserStep_memoryPathOnly s)
  store _ _ _ hs := hs

/-! ### The balance, operation by operation -/

theorem PixelInv.of_bookkeeping {s t : State} (h : BookkeepingOnly s t) (hs : PixelInv s) :
    PixelInv t := by
  obtain ⟨ht, -⟩ := h
  rw [ht]
  exact hs

theorem pixelsAhead_eq_zero {s : State} (h : linesAhead s = 0) : pixelsAhead s = 0 := by
  rw [pixelsAhead, h, Nat.zero_mul]

/-- A step that leaves the channels alone keeps the balance if it keeps the pixels ahead. -/
theorem PixelInv.of_ahead {s t : State} (hs : PixelInv s) (hmode : ModeWhole t)
    (htgen : t.tgen = s.tgen) (hpser : t.pser = s.pser) (hpch : t.pch = s.pch)
    (h : pixelsAhead t = pixelsAhead s) : PixelInv t :=
  hs.of_armed hmode htgen hpser (by rw [hpch, h])

/-- The VSYNC entry arms exactly the pixels of the frame's lines (R361, R378). -/
theorem vsyncEntry_pixelInv {s : State} (hs : PixelInv s) (hm : s.modeValid = true)
    (hrem : s.pch.rem = 0) (hahead : linesAhead s = 0) {e : EngineState} {c : Tch}
    (he : e = .running ∨ e = .stopping) :
    PixelInv (vsyncEntry { s with engine := e, tch := c }) := by
  have hafter : linesAhead (vsyncEntry { s with engine := e, tch := c }) = s.mode.vVis.toNat :=
    linesAhead_before (.inl rfl) he
  refine hs.of_armed hs.modeWhole rfl rfl ?_
  rw [pixelsAhead_eq_zero hahead, pixelsAhead, hafter, hrem, Nat.mul_zero, Nat.zero_add]
  exact hs.modeWhole.transfer hm

/-- Within a frame its pixels go from ahead to the words TCH moves and back to none; a new frame brings as many as it arms. -/
theorem EngineTo.pixelInv {s t : State} (ht : EngineTo s t) (hi : Invariant s) (hs : PixelInv s) :
    PixelInv t := by
  obtain ⟨-, heng, -⟩ := hi
  have hw := hs.modeWhole
  have frame {u : State} (hmode : u.mode = s.mode) (h : linesAhead u = s.mode.vVis.toNat)
      (h' : linesAhead s = s.mode.vVis.toNat) : pixelsAhead u = pixelsAhead s := by
    rw [pixelsAhead, pixelsAhead, h, h', hmode]
  have none {u : State} (h : linesAhead u = 0) (h' : linesAhead s = 0) :
      pixelsAhead u = pixelsAhead s := by
    rw [pixelsAhead_eq_zero h, pixelsAhead_eq_zero h']
  cases ht with
  | waits => exact hs
  | postVsyncBlank hd hp =>
    obtain ⟨hf, -⟩ := heng.of_event hd
    exact hs.of_ahead hw rfl rfl rfl
      (frame rfl (linesAhead_before (.inr rfl) hf) (linesAhead_before (.inl hp) hf))
  | visible hd hp =>
    obtain ⟨hf, hm, -⟩ := heng.of_event hd
    exact hs.of_ahead hw rfl rfl rfl (frame rfl (hw.lines hm) (linesAhead_before (.inr hp) hf))
  | postVisibleBlank hd hp =>
    obtain ⟨-, -, hrem⟩ := heng.of_event hd
    exact hs.of_ahead hw rfl rfl rfl (none rfl (by simp [linesAhead, hp, hrem, triggersAhead]))
  | nextFrame hd hp he hrem =>
    obtain ⟨hf, hm, -⟩ := heng.of_event hd
    exact vsyncEntry_pixelInv hs hm hrem (by simp [linesAhead, hp]) hf
  | parks hd hp he =>
    exact hs.of_ahead hw rfl rfl rfl (none (by simp [linesAhead, park]) (by simp [linesAhead, hp]))

/-- The words ahead from ring index i on are word i and those ahead from the next (R86). -/
theorem triggersAhead_programWord (s : State) {i : Nat} (hi : i < 4) (n : Nat) :
    triggersAhead s.progVis i (n + 1) =
      (if twTrig (programWord s .vis i) then 1 else 0) +
        triggersAhead s.progVis ((i + 1) % 4) n := by
  obtain ⟨-, -, -, hword, -⟩ := ringStaysInItsProgram s i
  rw [Nat.mod_eq_of_lt hi] at hword
  rw [triggersAhead, ← hword, Option.any_some]

/-- TCH moves a word with TRIG exactly where one line less is ahead after it (R204 to R208). -/
theorem linesAhead_tchMoved {s : State} (hi : Invariant s) (hw : ModeWhole s)
    (he : tchEnabled s = true) :
    linesAhead s = (if twTrig (programWord s s.tch.prog s.tch.idx) then 1 else 0) +
      linesAhead (tchMoved s) := by
  obtain ⟨hrem, -, hprog⟩ := (tchEnabled_iff s).mp he
  obtain ⟨-, heng, -, ⟨-, -, -, hidx⟩, -⟩ := hi
  obtain ⟨-, hm, hphase, -⟩ := heng.of_words hrem
  have quiet {p : Phase} (hp : s.phase = p)
      (h : programOfPhase p = .vsync ∨ programOfPhase p = .blank) :
      twTrig (programWord s s.tch.prog s.tch.idx) = false := by
    rw [hphase, hp]
    exact hw.no_trigger hm h _
  cases hp : s.phase with
  | vsync => simp [quiet hp (.inl rfl), linesAhead, tchMoved, hp]
  | postVsyncBlank => simp [quiet hp (.inr rfl), linesAhead, tchMoved, hp]
  | postVisibleBlank => simp [quiet hp (.inr rfl), linesAhead, tchMoved, hp]
  | visible =>
    have hvis : s.tch.prog = .vis := by rw [hphase, hp]; rfl
    have hlt : s.tch.idx < 4 := (hidx hprog).trans_eq (by rw [hvis]; rfl)
    have hnext := triggersAhead_programWord s hlt (s.tch.rem - 1)
    rw [Nat.sub_add_cancel hrem] at hnext
    simpa [linesAhead, hp, tchMoved, hvis, programLength] using hnext

/-- The word TCH moves takes its line, where it begins one, from those ahead to those queued. -/
theorem tchMoved_pixelInv {s : State} (hi : Invariant s) (hs : PixelInv s)
    (he : tchEnabled s = true) : PixelInv (tchMoved s) := by
  have hlines := linesAhead_tchMoved hi hs.modeWhole he
  obtain ⟨hrem, -, hprog⟩ := (tchEnabled_iff s).mp he
  obtain ⟨-, heng, -⟩ := hi
  obtain ⟨-, hm, -⟩ := heng.of_words hrem
  obtain ⟨hw, hleft, htrig, hqueue, hpix⟩ := hs
  refine ⟨hw, hleft, htrig, List.forall_mem_append.mpr ⟨hqueue, ?_⟩, ?_⟩
  · simp [hw.width hm]
  · have hqueued : pixelsQueued (tchMoved s).tgen.fifo = pixelsQueued s.tgen.fifo +
        if twTrig (programWord s s.tch.prog s.tch.idx) then s.mode.hVis.toNat else 0 :=
      pixelsQueued_append _ _
    rw [hlines, Nat.add_mul, ite_mul, Nat.one_mul, Nat.zero_mul] at hpix
    rw [hqueued]
    exact hpix.trans (by simp only [tchMoved]; ac_rfl)

/-- TGEN's word leaves the queue, and with TRIG its line is one PSER owes instead (R212). -/
theorem WordTo.pixelInv {s t : State} {q : QueuedWord} {qs : List QueuedWord}
    (ht : WordTo q qs s t) (hs : PixelInv s) (hf : s.tgen.fifo = q :: qs) : PixelInv t := by
  obtain ⟨hw, hleft, htrig, hqueue, hpix⟩ := hs
  rw [hf] at hqueue hpix
  obtain ⟨hq, hqueue⟩ := List.forall_mem_cons.mp hqueue
  have hpch : t.pch = s.pch := by rw [ht.frame]
  have hahead : linesAhead t * t.mode.hVis.toNat = linesAhead s * s.mode.hVis.toNat := by
    rw [ht.frame]; rfl
  have howed : pixelsTriggered t.pser.triggers =
      pixelsTriggered s.pser.triggers + if twTrig q.word then q.width else 0 := by
    rw [ht.triggers, pixelsTriggered_append]
    split <;> simp [pixelsTriggered]
  refine ⟨?_, ht.left ▸ hleft, ?_, ht.queue ▸ hqueue, ?_⟩
  · rw [ht.frame]; exact hw
  · rw [ht.triggers]
    refine List.forall_mem_append.mpr ⟨htrig, ?_⟩
    split
    · next h => simpa using hq h
    · simp
  · rw [ht.fifo, ht.left, ht.queue, hpch, hahead, howed, hpix, pixelsQueued]
    omega

/-- With no frame in flight before or after, nothing is ahead, whatever the mode (R160). -/
theorem PixelInv.of_parked {s t : State} (hs : PixelInv s) (hi : Invariant s) (hi' : Invariant t)
    (he : s.engine = .uninit ∨ s.engine = .idle) (he' : t.engine = .uninit ∨ t.engine = .idle)
    (hmode : ModeWhole t) (htgen : t.tgen = s.tgen) (hpser : t.pser = s.pser)
    (hpch : t.pch = s.pch) : PixelInv t := by
  obtain ⟨-, heng, -⟩ := hi
  obtain ⟨-, heng', -⟩ := hi'
  refine hs.of_ahead hmode htgen hpser hpch ?_
  rw [pixelsAhead_eq_zero (linesAhead_parked heng he),
    pixelsAhead_eq_zero (linesAhead_parked heng' he')]

/-- Each operation keeps the balance in states that meet the invariant. -/
theorem pixelInv_stepStable : StepStable PixelInv where
  bookkeeping _ _ h hs := hs.of_bookkeeping h
  claim s hi hs he :=
    hs.of_parked hi (invariant_stepStable.claim s hi hi he) (.inl he) (.inr rfl) hs.modeWhole
      rfl rfl rfl
  release s hi hs he :=
    hs.of_parked hi (invariant_stepStable.release s hi hi he) (.inr he) (.inl rfl) hs.modeWhole
      rfl rfl rfl
  stop s hs he := by
    refine hs.of_ahead hs.modeWhole rfl rfl rfl ?_
    simp [pixelsAhead, linesAhead, he]
  publish _ _ hs _ := hs
  setMode s hi hs hb ha :=
    hs.of_parked hi (invariant_stepStable.setMode s hi hi hb ha) hb hb
      (fun _ => ⟨ha, rfl, rfl, rfl, rfl, rfl⟩) rfl rfl rfl
  start s hi hs he hm hrem := by
    obtain ⟨-, heng, -⟩ := hi
    exact vsyncEntry_pixelInv hs hm hrem (linesAhead_parked heng (.inr he)) (.inl rfl)
  draw := pixelInv_drawStable
  engine _ _ hi hs ht := ht.pixelInv hi hs
  tch _ hi hs he := tchMoved_pixelInv hi hs he
  tgenIdle _ hs := hs
  tgenWord _ _ _ _ hs hf ht := ht.pixelInv hs hf
  reset s _ := by
    refine ⟨nofun, rfl, ?_, ?_, ?_⟩
    all_goals simp [platformReset, State.resetOn, pixelsTriggered, pixelsQueued, linesAhead]

/-- Settles O57: every operation keeps the balance in states that meet the invariant, so every step does. -/
theorem stepKeepsThePixelBalance : Obligations.StepKeepsThePixelBalance :=
  fun _ _ hi hs ht => pixelInv_stepStable.step invariant_stepStable hi hs ht

end Sys2Proof.Machine

/-! PROOFS. The statements about single turns of the phase engine, the channels, TGEN and a held host, and about the commands that control the cycle. -/

namespace Sys2Proof.Machine

/-! ### The ENGINE step as a turn (R363 to R367) -/

/-- Settles O41: a clause for each equation of the ENGINE step. -/
theorem engineEntersTheNextPhase : Obligations.EngineEntersTheNextPhase := by
  intro s t rest ht
  have hstep : step s = .next (engineStep (turnTaken s t rest)) := step_of_turnOf ht
  rw [hstep]
  refine ⟨fun hd => ⟨fun hp => ?_, fun hp => ?_, fun hp => ?_, fun hp he hrem => ?_,
    fun hp he => ?_⟩, fun h => ?_⟩
  · rw [engineStep_vsync (s := turnTaken s t rest) hd hp]
    rfl
  · rw [engineStep_postVsyncBlank (s := turnTaken s t rest) hd hp]
    rfl
  · rw [engineStep_visible (s := turnTaken s t rest) hd hp]
    rfl
  · rw [engineStep_nextFrame (s := turnTaken s t rest) hd hp he hrem]
    rfl
  · rw [engineStep_parks (s := turnTaken s t rest) hd hp he]
    rfl
  · rw [engineStep_waits (s := turnTaken s t rest) h]

/-- Settles O40: of the ENGINE's cases only the next frame arms the handle and PCH, and that one is a running engine's. -/
theorem stoppingParksWithoutANewFrame : Obligations.StoppingParksWithoutANewFrame := by
  intro s t rest ht he
  refine ⟨_, step_of_turnOf ht, ?_⟩
  have hne : (turnTaken s t rest).engine ≠ .running := by simp [turnTaken, he]
  cases hd : s.tch.done with
  | false =>
    rw [engineStep_waits (s := turnTaken s t rest) (.inl hd)]
    exact ⟨rfl, rfl, nofun, nofun⟩
  | true =>
    cases hp : s.phase with
    | vsync =>
      rw [engineStep_vsync (s := turnTaken s t rest) hd hp]
      exact ⟨rfl, rfl, fun _ _ => ⟨he, nofun, nofun⟩, nofun⟩
    | postVsyncBlank =>
      rw [engineStep_postVsyncBlank (s := turnTaken s t rest) hd hp]
      exact ⟨rfl, rfl, fun _ _ => ⟨he, nofun, nofun⟩, nofun⟩
    | visible =>
      rw [engineStep_visible (s := turnTaken s t rest) hd hp]
      exact ⟨rfl, rfl, fun _ _ => ⟨he, nofun, nofun⟩, nofun⟩
    | postVisibleBlank =>
      rw [engineStep_parks (s := turnTaken s t rest) hd hp hne]
      exact ⟨rfl, rfl, fun _ h => absurd rfl h, fun _ _ => ⟨rfl, rfl, rfl, rfl, rfl⟩⟩

/-! ### The channels' steps as turns (R373, R376, R377) -/

theorem programLength_eq {q : Program} (hq : q ≠ .none) :
    programLength q = if q = .vis then 4 else 2 := by
  cases q with
  | none => exact absurd rfl hq
  | _ => rfl

/-- Settles O42: enabled, the step is the move; with nothing to move, as R368 has it in UNINIT and IDLE, or no room it is not enabled. -/
theorem tchMovesOneWord : Obligations.TchMovesOneWord := by
  intro s t rest ht
  have hstep : step s = .next (tchStep (turnTaken s t rest)) := step_of_turnOf ht
  have henabled : tchEnabled (turnTaken s t rest) = true ↔
      0 < s.tch.rem ∧ s.tgen.fifo.length < s.plat.tfifoDepth ∧ s.tch.prog ≠ .none :=
    tchEnabled_iff _
  have stays (h : ¬(0 < s.tch.rem ∧ s.tgen.fifo.length < s.plat.tfifoDepth)) :
      step s = .next (turnTaken s t rest) := by
    rw [hstep, tchStep_disabled (mt henabled.mp fun ⟨hrem, hroom, _⟩ => h ⟨hrem, hroom⟩)]
  refine ⟨fun hprog hrem hroom => ?_, fun h => stays (by omega), fun hi he => stays ?_⟩
  · have hdone : (if s.tch.rem = 1 then true else s.tch.done) = (s.tch.done || s.tch.rem == 1) := by
      split <;> simp [*]
    rw [hstep, tchStep_enabled (henabled.mpr ⟨hrem, hroom, hprog⟩), hdone,
      ← programLength_eq hprog]
    rfl
  · obtain ⟨-, ⟨hparked, -⟩, -⟩ := hi
    obtain ⟨hrem, -⟩ := hparked he
    omega

theorem wrapsAfter_eq (a : Word) :
    wrapsAfter a = if 4294967292 ≤ a.toNat then true else false := by
  unfold wrapsAfter
  split
  · exact decide_eq_true (by omega)
  · exact decide_eq_false (by omega)

/-- Settles O46: enabled, the step is the move; each of the four cases says that it is not enabled. -/
theorem pchMovesOneWord : Obligations.PchMovesOneWord := by
  intro s t rest ht
  have hstep : step s = .next (pchStep (turnTaken s t rest)) := step_of_turnOf ht
  have henabled : pchEnabled (turnTaken s t rest) = true ↔ 0 < s.pch.rem ∧
      s.pser.fifo.length < s.plat.pfifoDepth ∧ s.pch.past = false ∧
      admitsWord s s.pch.addr = true := pchEnabled_iff _
  rw [hstep]
  refine ⟨fun hrem hroom hpast hok => ?_, fun h => ?_⟩
  · rw [pchStep_enabled (henabled.mpr ⟨hrem, hroom, hpast, hok⟩), ← wrapsAfter_eq]
    rfl
  · rw [pchStep_disabled (mt henabled.mp fun ⟨hrem, hroom, hpast, hok⟩ => ?_)]
    obtain h | h | h | h := h
    · omega
    · omega
    · rw [h] at hpast; cases hpast
    · rw [h] at hok; cases hok

/-! ### PSER's line (R378, R379) -/

/-- A line of 16 pixels for each word of ws, as PSER shifts it out word by word: they join what it has shifted already. -/
theorem pserStep_iterate_line {ws : List PixelWord} (hne : ws ≠ []) (more : List PixelWord) :
    ∀ s : State, s.pser.fifo = ws ++ more → s.pser.left = 16 * ws.length →
      pserStep^[ws.length] s = { s with
        pser := { s.pser with fifo := more, left := 0, row := [] }
        pix := 0#2
        shifted := s.shifted ++ [{
          line := s.pser.line, pixels := s.pser.row ++ ws.flatMap wordPixels }] } := by
  induction ws with
  | nil => exact absurd rfl hne
  | cons w ws ih =>
    intro s hf hleft
    rw [List.length_cons] at hleft ⊢
    rw [Function.iterate_succ_apply, pserStep_shift (by omega) hf]
    by_cases hlast : ws = []
    · subst hlast
      have hpx : (wordPixels w).take s.pser.left = wordPixels w := by rw [hleft]; rfl
      rw [pserShift_last (by rw [hleft]; rfl), hpx, List.flatMap_singleton]
      rfl
    · have hpos := List.length_pos_iff.mpr hlast
      rw [pserShift_within (by omega), ih hlast _ rfl (by simp only; omega), List.flatMap_cons,
        ← List.append_assoc]

/-- Settles O47: a whole line by induction on its words; each clause of a turn is an equation of the PSER step. -/
theorem pserShiftsAWholeLine : Obligations.PserShiftsAWholeLine := by
  unfold Obligations.PserShiftsAWholeLine
  intro pixelsOf
  have hpx : pixelsOf = wordPixels := rfl
  clear_value pixelsOf
  subst hpx
  refine ⟨fun s ws more hne hf hleft hrow => ?_, fun s t rest ht => ?_⟩
  · rw [pserStep_iterate_line hne more s hf hleft, hrow]
    simp [← hrow]
  · have hstep : step s = .next (pserStep (turnTaken s t rest)) := step_of_turnOf ht
    rw [hstep]
    refine ⟨fun h0 hl => ?_, fun l ls h0 hl => ?_, fun h0 hf => ?_, fun w ws h16 hf => ?_,
      fun w ws h0 h16 hf => ?_⟩
    · rw [pserStep_waits (s := turnTaken s t rest) (.inl ⟨h0, hl⟩)]
    · rw [pserStep_begin (s := turnTaken s t rest) h0 hl]
      rfl
    · rw [pserStep_waits (s := turnTaken s t rest) (.inr ⟨h0, hf⟩)]
    · have h0 : 0 < s.pser.left := by omega
      rw [pserStep_shift (s := turnTaken s t rest) h0 hf,
        pserShift_within (s := turnTaken s t rest) h16]
      rfl
    · rw [pserStep_shift (s := turnTaken s t rest) h0 hf,
        pserShift_last (s := turnTaken s t rest) h16]
      rfl

/-! ### TGEN's turn and a held host's (R375, R353) -/

/-- Settles O6: the two cases of TGEN's turn, with the head word decoded. -/
theorem stepRunsTimingWord : Obligations.StepRunsTimingWord := by
  intro s t rest ht
  have hstep : step s = tgenTurn (turnTaken s t rest) := step_of_turnOf ht
  rw [hstep]
  refine ⟨fun q qs i hf hd => ?_, fun hf => ?_⟩
  · have hf : (turnTaken s t rest).tgen.fifo = q :: qs := hf
    simp only [tgenTurn, hf, executeWord, hd]
    rfl
  · have hf : (turnTaken s t rest).tgen.fifo = [] := hf
    simp only [tgenTurn, hf]
    rfl

/-- A held command is tried once more, unless it holds on an access that is not admitted (R353, log M10). -/
theorem resume_of_hold {h : Nat} {s : State} {k : Hold} (hh : (portAt s h).hold = some k) :
    resume h s = if k = .memory then .next s
      else mapNext (settle h) (perform h (portAt s h).cmd s) := by
  unfold resume
  rw [hh]
  cases k <;> rfl

/-- Settles O7: a waiting host's turn resumes its command, which is performed as the command it decodes to. -/
theorem stepRetriesHeldCommand : Obligations.StepRetriesHeldCommand := by
  intro s t rest h c k i ht hc hw hh hd
  rw [step_of_turnOf ht]
  have hturn : agentStep (.host h) (turnTaken s t rest) = resume h (turnTaken s t rest) :=
    hostTurn_waiting hc hw
  have hperform := perform_of_decode hd h (turnTaken s t rest)
  rw [hturn, resume_of_hold (s := turnTaken s t rest) hh, ← hperform]
  rfl

/-! ### The commands that control the cycle (R350 to R358) -/

/-- Settles O36: the check of STATE, then the draw. -/
theorem initClaims : Obligations.InitClaims := by
  refine ⟨by decide, fun s => ⟨fun he => ?_, fun he hr => ?_, fun he hr => ?_⟩⟩
  · simp [exec, execInit, he, raiseFault_eq_faulted]
  · simp [exec, execInit, he, hr, raiseFault_eq_faulted]
  · simp [exec, execInit, he, hr]

/-- Settles O37: issued anew, by STATE; held in STOPPING, by whether the park has come. -/
theorem cleanupReleases : Obligations.CleanupReleases := by
  refine fun s => ⟨fun hh => ⟨fun he => ?_, fun he => ?_, fun he => ?_, fun he => ?_⟩,
    fun hh => ⟨fun he => ?_, fun he => ?_⟩⟩
  · simp [exec, execCleanup, hh, cleanupIssued, he]
  · simp [exec, execCleanup, hh, cleanupIssued, he]
  · simp [exec, execCleanup, hh, cleanupIssued, he, raiseFault_eq_faulted]
  · simp [exec, execCleanup, hh, cleanupIssued, he, holdOn_eq_pending]
  · simp [exec, execCleanup, hh, cleanupHeld, he, complete_eq_completed]
  · simp [exec, execCleanup, hh, cleanupHeld, he]

/-- Settles O38: the two checks, the hold, and the VSYNC entry. -/
theorem startPrimesTheCycle : Obligations.StartPrimesTheCycle := by
  refine fun s => ⟨fun he hm hrem => ?_, fun he => ?_, fun he hm => ?_, fun he hm hrem => ?_⟩
  · simp [exec, execStart, he, hm, hrem, complete_eq_completed, vsyncEntry, armP, armT]
  · simp [exec, execStart, he, raiseFault_eq_faulted]
  · simp [exec, execStart, he, hm, raiseFault_eq_faulted]
  · simp [exec, execStart, he, hm, hrem, holdOn_eq_pending]

/-- Settles O39: by STATE. -/
theorem stopClearsTheRunningFlag : Obligations.StopClearsTheRunningFlag := by
  refine ⟨by decide, fun s => ⟨fun he => ?_, fun he => ?_, fun he => ?_⟩⟩
  · simp [exec, execStop, he]
  · obtain he | he := he <;> simp [exec, execStop, he]
  · simp [exec, execStop, he, raiseFault_eq_faulted]

end Sys2Proof.Machine

/-! PROOFS. The statements about the hand-off: PUBLISH, WAIT_FRAME, and two hosts that wait for one token. -/

namespace Sys2Proof.Machine

/-! ### The two commands (R400 to R403) -/

/-- Settles O48: by whether the handle is aligned. -/
theorem publishExchangesTheHandle : Obligations.PublishExchangesTheHandle := by
  refine ⟨by decide, fun s => ⟨fun ha => ?_, fun ha => ?_⟩⟩
  · simp [exec, execPublish, ha]
  · simp [exec, execPublish, ha, raiseFault_eq_faulted]

/-- Settles O49: by whether the token is there. -/
theorem waitFrameTakesTheToken : Obligations.WaitFrameTakesTheToken := by
  refine ⟨by decide, fun s => ⟨fun ht => ?_, fun ht => waitFrame_holds ht⟩⟩
  simp [exec, execWaitFrame, ht, complete_eq_completed]

/-! ### Where a command's step leaves the ports and the hosts (R53) -/

theorem portAt_completed_hold {s : State} (hp : s.port < s.ports.length) :
    (portAt (completed s) s.port).hold = none :=
  congrArg Port.hold (portAt_updPort_same (fun q => { q with hold := none }) hp)

theorem portAt_completed_ne {s : State} {p : Nat} (hp : s.port ≠ p) :
    portAt (completed s) p = portAt s p := portAt_updPort_ne hp _ s

theorem portAt_pending_hold {s : State} (hp : s.port < s.ports.length) (k : Hold) :
    (portAt (pending k s) s.port).hold = some k :=
  congrArg Port.hold (portAt_updPort_same (fun q => { q with hold := some k }) hp)

theorem settle_hosts_ne {h p : Nat} (hp : h ≠ p) (s : State) :
    (settle h s).hosts[p]? = s.hosts[p]? := List.getElem?_modify_ne _ _ hp

theorem settle_status_ready {s : State} {h : Nat} {c : HostCtx} (hc : s.hosts[h]? = some c)
    (hh : (portAt s h).hold = none) :
    ((settle h s).hosts[h]?).map HostCtx.status = some .ready := by
  simp [hc, hh]

theorem settle_status_waiting {s : State} {h : Nat} {c : HostCtx} (hc : s.hosts[h]? = some c)
    {k : Hold} (hh : (portAt s h).hold = some k) :
    ((settle h s).hosts[h]?).map HostCtx.status = some .waiting := by
  simp [hc, hh]

/-! ### A host that waits for the token gets its turn (R353, R403, R404) -/

/-- HOST[h] is held in a CMD store of WAIT_FRAME to its port. -/
structure WaitsForToken (s : State) (h : Nat) : Prop where
  port : h < s.ports.length
  hold : (portAt s h).hold = some .frameToken
  cmd : (portAt s h).cmd = 8#32
  host : ∃ c, s.hosts[h]? = some c ∧ c.status = .waiting

/-- The state in which a turn of HOST[h] performs its held command (R353). -/
def heldTurn (s : State) (t : Turn) (rest : List Turn) (h : Nat) : State :=
  { turnTaken s t rest with port := h }

/-- What the turn of HOST[h] leaves when its WAIT_FRAME takes the token (R403). -/
def tokenTaken (s : State) (t : Turn) (rest : List Turn) (h : Nat) : State :=
  settle h (completed { heldTurn s t rest h with token := false })

section
variable {s : State} {t : Turn} {rest : List Turn} {h : Nat}

/-- The turn of a host that waits for the token performs WAIT_FRAME once more. -/
theorem WaitsForToken.step_eq (hw : WaitsForToken s h) (ht : TurnOf s t rest (.host h)) :
    step s = mapNext (settle h) (exec .waitFrame (heldTurn s t rest h)) := by
  obtain ⟨-, hhold, hcmd, c, hc, hs⟩ := hw
  have hd : decodeCommand (portAt s h).cmd = .ok .waitFrame := by
    rw [hcmd]
    exact waitFrameTakesTheToken.1
  exact stepRetriesHeldCommand s t rest h c .frameToken .waitFrame ht hc hs hhold hd

theorem WaitsForToken.step_token (hw : WaitsForToken s h) (ht : TurnOf s t rest (.host h))
    (htoken : s.token = true) : step s = .next (tokenTaken s t rest h) := by
  rw [hw.step_eq ht, (waitFrameTakesTheToken.2 (heldTurn s t rest h)).1 htoken]
  rfl

theorem WaitsForToken.step_no_token (hw : WaitsForToken s h) (ht : TurnOf s t rest (.host h))
    (htoken : s.token = false) :
    step s = .next (settle h (pending .frameToken (heldTurn s t rest h))) := by
  rw [hw.step_eq ht, (waitFrameTakesTheToken.2 (heldTurn s t rest h)).2 htoken]
  rfl

/-- The host that takes the token goes on (R53). -/
theorem tokenTaken_released (hw : WaitsForToken s h) :
    (portAt (tokenTaken s t rest h) h).hold = none ∧
    ((tokenTaken s t rest h).hosts[h]?).map HostCtx.status = some .ready := by
  obtain ⟨hp, -, -, c, hc, -⟩ := hw
  have hhold : (portAt (completed { heldTurn s t rest h with token := false }) h).hold = none :=
    portAt_completed_hold hp
  exact ⟨hhold, settle_status_ready hc hhold⟩

/-- Another host that waits is not concerned (R404). -/
theorem tokenTaken_waits {h' : Nat} (hne : h ≠ h') (hw : WaitsForToken s h') :
    WaitsForToken (tokenTaken s t rest h) h' := by
  obtain ⟨hp, hhold, hcmd, hhost⟩ := hw
  have hport : portAt (tokenTaken s t rest h) h' = portAt s h' := portAt_completed_ne hne
  have hlen : (tokenTaken s t rest h).ports.length = s.ports.length := List.length_modify ..
  have hhosts : (tokenTaken s t rest h).hosts[h']? = s.hosts[h']? := settle_hosts_ne hne _
  exact ⟨hlen ▸ hp, hport ▸ hhold, hport ▸ hcmd, hhosts ▸ hhost⟩

/-- A host whose WAIT_FRAME holds once more keeps waiting (R353). -/
theorem settle_pending_waits (hw : WaitsForToken s h) (k : Hold) :
    let v := settle h (pending k (heldTurn s t rest h))
    (portAt v h).hold = some k ∧ (v.hosts[h]?).map HostCtx.status = some .waiting := by
  obtain ⟨hp, -, -, c, hc, -⟩ := hw
  have hhold : (portAt (pending k (heldTurn s t rest h)) h).hold = some k :=
    portAt_pending_hold hp k
  exact ⟨hhold, settle_status_waiting hc hhold⟩

end

/-- Settles O50: the first turn takes the token and leaves the other host waiting; that host's turn finds none and holds. -/
theorem oneWaiterPerRelease : Obligations.OneWaiterPerRelease := by
  intro s t t' rest h h' c c' hsched ht ht' hne hc hs hc' hs' hp hp' hhold hhold' hcmd hcmd' htoken
  have hfirst : WaitsForToken s h := ⟨hp, hhold, hcmd, c, hc, hs⟩
  have hother : WaitsForToken s h' := ⟨hp', hhold', hcmd', c', hc', hs'⟩
  have hlater : WaitsForToken (tokenTaken s t (t' :: rest) h) h' := tokenTaken_waits hne hother
  obtain ⟨hnone, hready⟩ := tokenTaken_released (t := t) (rest := t' :: rest) hfirst
  obtain ⟨hheld, hwaits⟩ := settle_pending_waits (t := t') (rest := rest) hlater .frameToken
  exact ⟨_, _, hfirst.step_token ⟨hsched, ht⟩ htoken, hlater.step_no_token ⟨rfl, ht'⟩ rfl,
    rfl, hnone, hready, rfl, hheld, hwaits⟩

end Sys2Proof.Machine

/-! PROOFS. The statements about exceptions: what an instruction that records a fault changes, and what every step keeps of the block's records (spec 60_exceptions.md R432, R435; 44_phase_engine.md R379; 70_reset_and_hazards.md R477). -/

namespace Sys2Proof.Machine

/-! ### A fault changes nothing else (R432) -/

/-- FAULT is touched by the faulting case of an instruction alone. -/
theorem ExecTo.faulted_or_fault_eq {i : Instr} {s t : State} (h : ExecTo s i t) :
    (∃ c, t = faulted c s) ∨ t.fault = s.fault := by
  cases h with
  | fault _ c => exact .inl ⟨c, rfl⟩
  | draw _ _ _ hm _ => exact .inr (by rw [hm])
  | word _ _ vs trig _ => exact .inr (by cases vs <;> cases trig <;> rfl)
  | _ => exact .inr rfl

/-- A code already recorded stays (R435). -/
theorem faulted_fault_of_ne {s : State} (h : s.fault ≠ .none) (c : FaultCode) :
    (faulted c s).fault = s.fault := recordedFault_of_ne h c

/-- A code that was not recorded before is the one that was raised, for the first code is kept. -/
theorem faulted_fault_of_changed {c : FaultCode} {s : State} (h : (faulted c s).fault ≠ s.fault) :
    (faulted c s).fault = c :=
  if_pos (not_not.mp fun hs => h (faulted_fault_of_ne hs c))

/-- Settles O53: only the faulting case changes FAULT, and the code it leaves is the one raised. -/
theorem faultsChangeNothingElse : Obligations.FaultsChangeNothingElse := by
  intro i s t he hne
  obtain ⟨c, rfl⟩ | heq := (exec_cases he).faulted_or_fault_eq
  · rw [faulted_fault_of_changed hne]
  · exact absurd heq hne

/-! ### The block's records and how they may grow (R12, R379, R432) -/

/-- What the block keeps of its past: the sticky fault, the event history and the two output streams. -/
structure Records where
  fault : FaultCode
  history : List BlockEvent
  executed : List Word
  shifted : List ShiftedLine

def State.records (s : State) : Records :=
  { fault := s.fault, history := s.history, executed := s.executed, shifted := s.shifted }

/-- A recorded fault stays, the event history gains one event at most, and the streams only grow. -/
structure Records.Grow (r r' : Records) : Prop where
  fault : r.fault ≠ .none → r'.fault = r.fault
  history : ∃ e : Option BlockEvent, r'.history = r.history ++ e.toList
  executed : r.executed <+: r'.executed
  shifted : r.shifted <+: r'.shifted

theorem Records.Grow.refl (r : Records) : r.Grow r :=
  ⟨fun _ => rfl, ⟨none, (List.append_nil _).symm⟩, List.prefix_rfl, List.prefix_rfl⟩

/-- With one event at most added, one FRAME_CB at most is (R366). -/
theorem Records.Grow.frameCbs {r r' : Records} (h : r.Grow r') :
    r'.history.count .frameCb ≤ r.history.count .frameCb + 1 := by
  obtain ⟨e, he⟩ := h.history
  have hone : e.toList.count .frameCb ≤ 1 := List.count_le_length.trans Option.length_toList_le
  rw [he, List.count_append]
  omega

theorem faulted_records (c : FaultCode) (s : State) : s.records.Grow (faulted c s).records :=
  { Records.Grow.refl s.records with fault := fun h => faulted_fault_of_ne h c }

theorem regWrite_records (r : Reg) (v : Word) (s : State) :
    (regWrite r v s).records = s.records := by
  cases r <;> rfl

/-! ### The memory path: only the shifted lines can grow (R379) -/

theorem pserShift_shifted (w : PixelWord) (rest : List PixelWord) (s : State) :
    s.shifted <+: (pserShift w rest s).shifted := by
  by_cases h : s.pser.left ≤ 16
  · rw [pserShift_last h]
    exact List.prefix_append ..
  · rw [pserShift_within (by omega)]

theorem PserTo.shifted {s t : State} (h : PserTo s t) : s.shifted <+: t.shifted := by
  cases h with
  | waits | begins => exact List.prefix_rfl
  | shifts w rest => exact pserShift_shifted w rest s

theorem pchStep_shifted (s : State) : (pchStep s).shifted = s.shifted := by
  unfold pchStep
  split <;> rfl

theorem outsideStore_shifted (a : Word) (v : Byte) (s : State) :
    (outsideStore a v s).shifted = s.shifted := by
  unfold outsideStore
  split <;> rfl

theorem runIntrusion_shifted (i : Intrusion) (s : State) :
    s.shifted <+: (runIntrusion i s).shifted := by
  cases i with
  | outside a v => rw [runIntrusion, outsideStore_shifted]
  | pch => rw [runIntrusion, pchStep_shifted]
  | pser => exact (pserStep_cases s).shifted

/-- Every piece of a drawing command keeps the lines shifted out so far. -/
theorem shifted_drawStable (l : List ShiftedLine) : DrawStable (fun s => l <+: s.shifted) where
  mid _ _ h := h
  intrude s i h := h.trans (runIntrusion_shifted i s)
  store _ _ _ h := h

theorem MemoryPathOnly.records {s t : State} (hm : MemoryPathOnly s t)
    (hs : s.shifted <+: t.shifted) : s.records.Grow t.records := by
  rw [hm]
  exact { Records.Grow.refl s.records with shifted := hs }

theorem runIntrusion_records (i : Intrusion) (s : State) :
    s.records.Grow (runIntrusion i s).records :=
  (runIntrusion_memoryPathOnly i s).records (runIntrusion_shifted i s)

/-! ### The records over every step -/

/-- A word that begins joins the executed stream, and with TRIG one event the history (R210, R214). -/
theorem word_records (w : Word) (vs trig : Bool) (s : State) :
    s.records.Grow (if trig then emitTrigger (countLines vs (beginWord w s))
      else countLines vs (beginWord w s)).records := by
  have hbegin : s.records.Grow (countLines vs (beginWord w s)).records := by
    cases vs <;> exact { Records.Grow.refl s.records with executed := List.prefix_append .. }
  cases trig with
  | false => exact hbegin
  | true => cases vs <;> exact { hbegin with history := ⟨some .trigger, rfl⟩ }

theorem ExecTo.records {i : Instr} {s t : State} (h : ExecTo s i t) :
    s.records.Grow t.records := by
  cases h with
  | fault _ c => exact faulted_records c s
  | draw _ _ _ hm hs => exact hm.records (hs _ (shifted_drawStable s.shifted) List.prefix_rfl)
  | word _ _ vs trig _ => exact word_records _ vs trig s
  | _ => exact .refl s.records

/-- Of the ENGINE's steps only the entry to POST_VISIBLE_BLANK emits an event (R366). -/
theorem EngineTo.records {s t : State} (h : EngineTo s t) : s.records.Grow t.records := by
  cases h with
  | postVisibleBlank =>
    exact { Records.Grow.refl s.records with history := ⟨some .frameCb, rfl⟩ }
  | _ => exact .refl s.records

theorem tchStep_records (s : State) : (tchStep s).records = s.records := by
  unfold tchStep
  split <;> rfl

/-- A host's own bookkeeping, and TGEN's of its FIFO, is no part of the records: what remains of a turn is one operation. -/
theorem StepTo.records {a : Agent} {s t : State} (h : StepTo s a t) (ha : a ≠ .reset) :
    s.records.Grow t.records := by
  cases h with
  | idle | load | goesOn | refuse | tgenIdle => exact .refl s.records
  | store _ _ r v => rw [regWrite_records]; exact .refl s.records
  | issued _ _ _ _ _ _ _ _ _ he => exact (exec_cases he).records
  | issuedIllegal => exact faulted_records .opcode _
  | retried _ _ _ _ _ _ _ he => exact (exec_cases he).records
  | retriedIllegal => exact faulted_records .opcode _
  | engine => exact (engineStep_cases s).records
  | tch => rw [tchStep_records]; exact .refl s.records
  | pch => exact runIntrusion_records .pch s
  | pser => exact runIntrusion_records .pser s
  | tgenWord _ _ _ _ _ _ he => exact (exec_cases he).records
  | outside a v => exact runIntrusion_records (.outside a v) s
  | reset => exact absurd rfl ha

/-- Settles O52: whichever agent's turn it is, its step lets the records only grow. -/
theorem recordsAreKept : Obligations.RecordsAreKept := by
  intro s u t rest hsched ha hstep
  rw [step_of_turnOf ⟨hsched, rfl⟩] at hstep
  have hgrow : s.records.Grow u.records := (agentStep_cases hstep).records ha
  obtain ⟨e, he⟩ := hgrow.history
  have hhistory : s.history <+: u.history := ⟨e.toList, he.symm⟩
  exact ⟨hgrow.fault, hhistory, hgrow.executed, hgrow.shifted, hgrow.frameCbs⟩

end Sys2Proof.Machine

/-! PROOFS. The statements about reset: R471's values, and what the machine right after reset meets (spec 70_reset_and_hazards.md R470, R471, R473). -/

namespace Sys2Proof.Machine

/-! ### The block at reset (R470, R471) -/

theorem portAt_resetOn (plat : Platform) (n p : Nat) :
    portAt (State.resetOn plat n) p = Port.atReset := by
  have hports : (State.resetOn plat n).ports = List.replicate n .atReset := rfl
  rw [portAt, hports, List.getElem?_replicate]
  split <;> rfl

/-- R471's values stand on every platform, for every number of ports. -/
theorem blockReset_resetOn (plat : Platform) (n : Nat) : BlockReset (State.resetOn plat n) := by
  have hdesc : ∀ f ∈ fieldsInOrder .zero ++ fieldsInOrder .zero, f = 0#32 := by
    simp [fieldsInOrder, ModeDesc.zero]
  have hstatus : statusWord (State.resetOn plat n) = 0#32 :=
    show statusWord State.reset = 0#32 by decide
  have hports (p : Nat) := portAt_resetOn plat n p
  unfold BlockReset
  exact ⟨rfl, rfl, rfl, rfl, rfl, rfl, rfl, hstatus, rfl, rfl, rfl, rfl, rfl, hdesc, rfl, rfl, rfl,
    rfl, hports, rfl, rfl, rfl, rfl, rfl, rfl, rfl, rfl, rfl, rfl, rfl, rfl, rfl⟩

theorem abandonHeld_not_waiting (c : HostCtx) : (abandonHeld c).status ≠ .waiting := by
  cases hc : c.status <;> simp [abandonHeld, hc]

/-- The reset abandons what any port or host was held in (R470). -/
theorem platformReset_noCommandPending (s : State) : NoCommandPending (platformReset s) := by
  refine ⟨fun p => congrArg Port.hold (portAt_resetOn s.plat s.ports.length p), fun c hc => ?_⟩
  obtain ⟨d, -, rfl⟩ := List.mem_map.mp hc
  exact abandonHeld_not_waiting d

/-- Settles O54: the reset on the machine's own platform and ports, with what is not the block's put back. -/
theorem resetValues : Obligations.ResetValues := by
  refine ⟨blockReset_resetOn _ _, fun s t rest ht => ⟨_, step_of_turnOf ht, ?_⟩⟩
  exact ⟨blockReset_resetOn s.plat s.ports.length, platformReset_noCommandPending _, rfl,
    List.length_replicate, rfl⟩

/-- Settles O55: nothing is in flight, no mode is active, and every FIFO is empty. -/
theorem resetMeetsTheInvariant : Obligations.ResetMeetsTheInvariant := by
  have heng : EngineInv State.reset := ⟨fun _ => ⟨rfl, rfl, rfl⟩, nofun⟩
  have hchan : ChannelInv State.reset :=
    ⟨nofun, Nat.zero_le _, Nat.zero_le _, fun h => absurd rfl h⟩
  have hplat : PlatformInv State.reset := ⟨by decide, by decide, rfl, rfl⟩
  have hnone : NoCommandPending State.reset :=
    ⟨fun p => congrArg Port.hold (portAt_resetOn _ _ p), by decide⟩
  exact ⟨⟨Memory.wf_reset, heng, nofun, hchan, ⟨rfl, rfl, rfl⟩, hplat⟩,
    ⟨nofun, rfl, nofun, nofun, rfl⟩, blockReset_resetOn _ _, nofun, hnone⟩

end Sys2Proof.Machine

/-! PROOFS. Runs that are weakly fair: what fairness gives, said once for a turn that is waited for and once for a measure that falls (spec 70_reset_and_hazards.md R478). -/

namespace Sys2Proof.Machine

/-! ### A fair run (R478) -/

/-- A weakly fair run from the invariant, in which no platform reset comes. -/
structure FairRun (states : Nat → State) (turns : Nat → Turn) : Prop where
  run : IsRun states turns
  fair : WeaklyFair states turns
  noReset : WithoutReset turns
  start : Invariant (states 0)

theorem beginTurn_bookkeeping (t : Turn) (s : State) : BookkeepingOnly s (beginTurn t s) :=
  ⟨rfl, rfl, rfl⟩

/-- A step of agent a from s to t keeps P, and the measure falls in it unless it is a step of another agent than the one waited for; then the measure and the agent waited for stay. -/
def StepsTowards {α : Type} [Preorder α] (P : State → Prop) (μ : State → α)
    (helper : State → Agent) (s : State) (a : Agent) (t : State) : Prop :=
  P t ∧ (μ t < μ s ∨ (a ≠ helper s ∧ μ t = μ s ∧ helper t = helper s))

section
variable {states : Nat → State} {turns : Nat → Turn} (hr : FairRun states turns)
include hr

theorem FairRun.agentStep (n : Nat) :
    agentStep (turns n).agent (beginTurn (turns n) (states n)) = .next (states (n + 1)) := hr.run n

/-- What every step keeps holds all along the run. -/
theorem FairRun.keeps {P : State → Prop} (hP : StepStable P) (h0 : P (states 0)) (n : Nat) :
    Invariant (states n) ∧ P (states n) := by
  induction n with
  | zero => exact ⟨hr.start, h0⟩
  | succ n ih =>
    obtain ⟨hi, hp⟩ := ih
    have hb := beginTurn_bookkeeping (turns n) (states n)
    have hi' := invariant_stepStable.bookkeeping _ _ hb hi
    have hstep := agentStep_cases (hr.agentStep n)
    exact ⟨invariant_stepStable.agent invariant_stepStable hi' hi' hstep,
      hP.agent invariant_stepStable hi' (hP.bookkeeping _ _ hb hp) hstep⟩

theorem FairRun.invariant (n : Nat) : Invariant (states n) :=
  (hr.keeps invariant_stepStable hr.start n).1

/-- The invariant holds of the state in which a turn's agent steps. -/
theorem FairRun.invariant_begun (n : Nat) : Invariant (beginTurn (turns n) (states n)) :=
  (hr.invariant n).of_bookkeeping (beginTurn_bookkeeping _ _)

/-- The turn of an agent comes that is enabled while P holds, if only its own step may end P. -/
theorem FairRun.turn_comes {a : Agent} {P : Nat → Prop} {n : Nat} (hn : P n)
    (enabled : ∀ m, n ≤ m → P m → agentEnabled a (states m) = true)
    (stays : ∀ m, n ≤ m → P m → (turns m).agent ≠ a → P (m + 1)) :
    ∃ m, n ≤ m ∧ P m ∧ (turns m).agent = a := by
  by_contra! hnone
  have hall : ∀ m, n ≤ m → P m :=
    fun m hm => Nat.le_induction hn (fun k hk hp => stays k hk hp (hnone k hk hp)) m hm
  obtain ⟨m, hm, hturn⟩ := hr.fair a n fun m hm => enabled m hm (hall m hm)
  exact hnone m hm (hall m hm) hturn

/-- A run comes from P to Q if, until then, P stays, an agent is enabled, and the measure falls with that agent's step and rises with none. -/
theorem FairRun.leadsTo {P Q : State → Prop} {α : Type} [Preorder α] [WellFoundedLT α]
    (μ : State → α) (helper : State → Agent)
    (enabled : ∀ m, P (states m) → ¬Q (states m) →
      agentEnabled (helper (states m)) (states m) = true)
    (step : ∀ m, P (states m) → ¬Q (states m) →
      StepsTowards P μ helper (states m) (turns m).agent (states (m + 1)))
    {n : Nat} (hn : P (states n)) : ∃ m, n ≤ m ∧ P (states m) ∧ Q (states m) := by
  induction hμ : μ (states n) using WellFoundedLT.induction generalizing n with
  | ind x ih =>
  by_contra! hnone
  have never_falls (m : Nat) (hm : n ≤ m) (hp : P (states (m + 1))) (heq : μ (states m) = x) :
      ¬μ (states (m + 1)) < μ (states m) := fun hlt => by
    obtain ⟨k, hk, hpk, hqk⟩ := ih _ (heq ▸ hlt) hp rfl
    exact hnone k (by omega) hpk hqk
  obtain ⟨m, hm, ⟨hp, heq, hhelp⟩, hturn⟩ :=
    hr.turn_comes (a := helper (states n)) (n := n)
      (P := fun m => P (states m) ∧ μ (states m) = x ∧ helper (states m) = helper (states n))
      ⟨hn, hμ, rfl⟩
      (fun m hm ⟨hp, _, hhelp⟩ => hhelp ▸ enabled m hp (hnone m hm hp))
      (fun m hm ⟨hp, heq, hhelp⟩ _ => by
        obtain ⟨hp', hlt | ⟨-, hsame, hstay⟩⟩ := step m hp (hnone m hm hp)
        · exact absurd hlt (never_falls m hm hp' heq)
        · exact ⟨hp', hsame.trans heq, hstay.trans hhelp⟩)
  obtain ⟨hp', hlt | ⟨hne, -⟩⟩ := step m hp (hnone m hm hp)
  · exact never_falls m hm hp' heq hlt
  · exact hne (hturn.trans hhelp.symm)

end

end Sys2Proof.Machine

/-! PROOFS. The frame in flight over every step, and that in a fair run it is moved to its end and a STOPPING engine parks (spec 44_phase_engine.md R359, R367, R373; 70_reset_and_hazards.md R478). -/

namespace Sys2Proof.Machine

/-! ### The cycle of a frame in flight (R353 to R368) -/

/-- A frame is in flight (R160, R368). -/
def FrameInFlight (s : State) : Prop := s.engine = .running ∨ s.engine = .stopping

/-- t stands in the cycle where s does, but that a STOP may have come (R358). -/
structure CycleStays (s t : State) : Prop where
  engine : t.engine = s.engine ∨ (s.engine = .running ∧ t.engine = .stopping)
  phase : t.phase = s.phase
  tch : t.tch = s.tch
  queue : t.tgen.fifo = s.tgen.fifo
  frameHandle : t.frameHandle = s.frameHandle
  plat : t.plat = s.plat

theorem CycleStays.refl (s : State) : CycleStays s s := ⟨.inl rfl, rfl, rfl, rfl, rfl, rfl⟩

theorem CycleStays.inFlight {s t : State} (h : CycleStays s t) (hf : FrameInFlight s) :
    FrameInFlight t := by
  obtain he | ⟨-, he⟩ := h.engine
  · unfold FrameInFlight
    rwa [he]
  · exact .inr he

theorem CycleStays.trans {s t u : State} (h : CycleStays s t) (k : CycleStays t u) :
    CycleStays s u where
  engine := by
    obtain he | ⟨hr, he⟩ := h.engine
    · rw [← he]; exact k.engine
    · obtain ke | ⟨kr, -⟩ := k.engine
      · exact .inr ⟨hr, ke.trans he⟩
      · rw [he] at kr; cases kr
  phase := k.phase.trans h.phase
  tch := k.tch.trans h.tch
  queue := k.queue.trans h.queue
  frameHandle := k.frameHandle.trans h.frameHandle
  plat := k.plat.trans h.plat

theorem BookkeepingOnly.cycleStays {s t : State} (h : BookkeepingOnly s t) : CycleStays s t := by
  obtain ⟨ht, -⟩ := h
  rw [ht]
  exact ⟨.inl rfl, rfl, rfl, rfl, rfl, rfl⟩

theorem MemoryPathOnly.cycleStays {s t : State} (h : MemoryPathOnly s t) : CycleStays s t := by
  rw [h]
  exact ⟨.inl rfl, rfl, rfl, rfl, rfl, rfl⟩

theorem FrameInFlight.not_parked {s : State} (hf : FrameInFlight s) :
    s.engine ≠ .uninit ∧ s.engine ≠ .idle := by
  obtain he | he := hf <;> simp [he]

/-- While a frame is in flight no command but STOP changes the cycle: INIT, START and SET_MODE are for a parked engine, and CLEANUP waits for the park. -/
theorem ExecTo.cycleStays {i : Instr} {s t : State} (h : ExecTo s i t) (hi : i.isCommand = true)
    (hf : FrameInFlight s) : CycleStays s t := by
  obtain ⟨huninit, hidle⟩ := hf.not_parked
  cases h with
  | fault _ c => exact (raiseFault_bookkeeping c s).cycleStays
  | claim he => exact absurd he huninit
  | release he | releaseHeld he | prime he => exact absurd he hidle
  | apply hb => exact absurd hb (not_or.mpr ⟨huninit, hidle⟩)
  | stopping he => exact ⟨.inr ⟨he, rfl⟩, rfl, rfl, rfl, rfl, rfl⟩
  | draw _ _ _ hm _ => exact hm.cycleStays
  | word => cases hi
  | _ => exact ⟨.inl rfl, rfl, rfl, rfl, rfl, rfl⟩

/-- A host's turn performs one command at most, between two pieces of bookkeeping. -/
theorem StepTo.host_cycleStays {h : Nat} {s t : State} (hstep : StepTo s (.host h) t)
    (hf : FrameInFlight s) : CycleStays s t := by
  have performed {i : Instr} {w : Word} {u v : State} (hu : BookkeepingOnly s u)
      (hd : decodeCommand w = .ok i) (he : exec i u = .next v) : CycleStays s (settle h v) := by
    have hcommand := (exec_cases he).cycleStays (isCommand_of_decode hd) (hu.cycleStays.inFlight hf)
    exact (hu.cycleStays.trans hcommand).trans (settle_bookkeeping h v).cycleStays
  have illegal {u : State} (hu : BookkeepingOnly s u) :
      CycleStays s (settle h (raiseFault .opcode u)) :=
    ((hu.trans (raiseFault_bookkeeping _ u)).trans (settle_bookkeeping h _)).cycleStays
  cases hstep with
  | idle => exact .refl s
  | load => exact ((takeAccess_bookkeeping h s).trans (updHost_bookkeeping h _ _)).cycleStays
  | goesOn => exact (settle_bookkeeping h s).cycleStays
  | refuse => exact (refuseAccess_bookkeeping h s).cycleStays
  | store _ _ _ v _ _ hr =>
    exact ((takeAccess_bookkeeping h s).trans (regWrite_bookkeeping hr v _)).cycleStays
  | issued _ _ w _ _ _ _ _ hd he => exact performed (issued_bookkeeping h w s) hd he
  | issuedIllegal _ _ w => exact illegal (issued_bookkeeping h w s)
  | retried _ _ _ _ _ _ hd he => exact performed (port_bookkeeping h s) hd he
  | retriedIllegal => exact illegal (port_bookkeeping h s)

/-- What TGEN's turn can do. -/
inductive TgenTo (s : State) : State → Prop where
  | idles (hf : s.tgen.fifo = []) : TgenTo s (tgenIdle s)
  | word (q : QueuedWord) (qs : List QueuedWord) (t : State) (hf : s.tgen.fifo = q :: qs)
      (h : WordTo q qs s t) : TgenTo s t

theorem tgenTurn_cases {s t : State} (h : tgenTurn s = .next t) : TgenTo s t := by
  unfold tgenTurn at h
  split at h
  · next hf =>
    obtain rfl := Host.Outcome.next.inj h
    exact .idles hf
  · next q qs hf =>
    unfold executeWord at h
    split at h
    · next i hd => exact .word q qs t hf (wordTo_of_exec hd h)
    · cases h

/-- What an agent's step does to the cycle of a frame in flight. -/
inductive CycleTo (s : State) : Agent → State → Prop where
  /-- The ENGINE step (R367). -/
  | engine (t : State) (h : EngineTo s t) : CycleTo s .engine t
  /-- TCH moves a word (R373). -/
  | moved (he : tchEnabled s = true) : CycleTo s .tch (tchMoved s)
  /-- TGEN takes a word (R375). -/
  | taken (t : State) (hlt : t.tgen.fifo.length < s.tgen.fifo.length)
      (h : CycleStays { s with tgen := t.tgen } t) : CycleTo s .tgen t
  /-- A step that is no part of the cycle, or of TCH or TGEN with nothing to do. -/
  | stays (a : Agent) (t : State) (hengine : a ≠ .engine)
      (htch : a = .tch → ¬tchEnabled s = true) (htgen : a = .tgen → s.tgen.fifo = [])
      (h : CycleStays s t) : CycleTo s a t

theorem agentStep_cycle {a : Agent} {s t : State} (h : agentStep a s = .next t)
    (ha : a ≠ .reset) (hf : FrameInFlight s) : CycleTo s a t := by
  cases a with
  | host n => exact .stays _ t nofun nofun nofun ((agentStep_cases h).host_cycleStays hf)
  | engine =>
    obtain rfl := Host.Outcome.next.inj h
    exact .engine _ (engineStep_cases s)
  | tch =>
    obtain rfl := Host.Outcome.next.inj h
    by_cases he : tchEnabled s = true
    · rw [tchStep_enabled he]; exact .moved he
    · rw [tchStep_disabled he]; exact .stays _ s nofun (fun _ => he) nofun (.refl s)
  | tgen =>
    cases tgenTurn_cases h with
    | idles hempty =>
      exact .stays _ _ nofun nofun (fun _ => hempty) ⟨.inl rfl, rfl, rfl, rfl, rfl, rfl⟩
    | word q qs _ hqueue hw =>
      refine .taken t (by rw [hw.queue, hqueue]; exact Nat.lt_succ_self _) ?_
      rw [hw.frame]
      exact ⟨.inl rfl, rfl, rfl, rfl, rfl, rfl⟩
  | pch =>
    obtain rfl := Host.Outcome.next.inj h
    exact .stays _ _ nofun nofun nofun (pchStep_memoryPathOnly s).cycleStays
  | pser =>
    obtain rfl := Host.Outcome.next.inj h
    exact .stays _ _ nofun nofun nofun (pserStep_memoryPathOnly s).cycleStays
  | outside w v =>
    obtain rfl := Host.Outcome.next.inj h
    exact .stays _ _ nofun nofun nofun (outsideStore_memoryPathOnly w v s).cycleStays
  | reset => exact absurd rfl ha

/-! ### The words of the frame move to its end (R373, R375, R378, R478) -/

/-- The phases a frame has still to enter (R33). -/
def phasesLeft : Phase → Nat
  | .vsync => 3
  | .postVsyncBlank => 2
  | .visible => 1
  | .postVisibleBlank => 0

/-- What is left of a frame: the phases to enter, and the words of this phase that TCH and then TGEN have still to move. -/
def frameMeasure (s : State) : ℕ ×ₗ ℕ :=
  toLex (phasesLeft s.phase, 2 * s.tch.rem + s.tgen.fifo.length)

/-- The agent a frame waits for: ENGINE at a completion event, else TCH, or TGEN to make room for it. -/
def frameAgent (s : State) : Agent :=
  if s.tch.done = true then .engine else if tchEnabled s = true then .tch else .tgen

theorem frameMeasure_lt_of_phase {s t : State} (h : phasesLeft t.phase < phasesLeft s.phase) :
    frameMeasure t < frameMeasure s := Prod.Lex.toLex_lt_toLex.mpr (.inl h)

theorem frameMeasure_lt_of_words {s t : State} (hp : t.phase = s.phase)
    (h : 2 * t.tch.rem + t.tgen.fifo.length < 2 * s.tch.rem + s.tgen.fifo.length) :
    frameMeasure t < frameMeasure s :=
  Prod.Lex.toLex_lt_toLex.mpr (.inr ⟨congrArg phasesLeft hp, h⟩)

theorem CycleStays.frameMeasure {s t : State} (h : CycleStays s t) :
    frameMeasure t = frameMeasure s := by
  simp only [Machine.frameMeasure, h.phase, h.tch, h.queue]

theorem CycleStays.frameAgent {s t : State} (h : CycleStays s t) :
    frameAgent t = frameAgent s := by
  have henabled : tchEnabled t = tchEnabled s := by
    simp only [tchEnabled, h.tch, h.queue, h.plat]
  rw [Machine.frameAgent, Machine.frameAgent, henabled, h.tch]

/-- Both FIFOs hold a word at least (R9). -/
theorem PlatformInv.depths {s : State} (h : PlatformInv s) :
    1 ≤ s.plat.tfifoDepth ∧ 1 ≤ s.plat.pfifoDepth := by
  obtain ⟨-, -, -, hwf⟩ := h
  simpa [Platform.wf] using hwf

/-- Before the completion event TCH has words to move, so that it waits for room alone (R368, R373). -/
theorem tgen_fifo_ne_nil {s : State} (hs : Invariant s) (hf : FrameInFlight s)
    (hd : ¬s.tch.done = true) (he : ¬tchEnabled s = true) : s.tgen.fifo ≠ [] := by
  intro hempty
  obtain ⟨-, ⟨-, hflight⟩, -, -, -, hplat⟩ := hs
  obtain ⟨hroom, -⟩ := hplat.depths
  obtain ⟨-, hprog, hwords⟩ := hflight hf
  have hrem : 0 < s.tch.rem := by
    obtain ⟨hrem, -⟩ | ⟨-, hdone⟩ := hwords
    · exact hrem
    · exact absurd hdone hd
  have hne : s.tch.prog ≠ .none := by
    rw [hprog]
    cases s.phase <;> nofun
  exact he ((tchEnabled_iff s).mpr ⟨hrem, by rw [hempty]; exact hroom, hne⟩)

/-- Until the frame's words have moved, the agent it waits for is enabled (R367, R373). -/
theorem frameAgent_enabled {s : State} (hs : Invariant s) (hf : FrameInFlight s)
    (hq : ¬FrameMoved s) : agentEnabled (frameAgent s) s = true := by
  unfold frameAgent
  split
  · next hd => exact (engineEnabled_iff s).mpr ⟨hd, fun hp _ => absurd ⟨hp, hd⟩ hq⟩
  · next hd =>
    split
    · next he => exact he
    · next he => simp [agentEnabled, tgenEnabled, tgen_fifo_ne_nil hs hf hd he]

/-- A step outside the cycle is not the one the frame waits for. -/
theorem ne_frameAgent {s : State} (hs : Invariant s) (hf : FrameInFlight s) {a : Agent}
    (hengine : a ≠ .engine) (htch : a = .tch → ¬tchEnabled s = true)
    (htgen : a = .tgen → s.tgen.fifo = []) : a ≠ frameAgent s := by
  unfold frameAgent
  split
  · exact hengine
  · next hd =>
    split
    · next he => exact fun ha => htch ha he
    · next he => exact fun ha => tgen_fifo_ne_nil hs hf hd he (htgen ha)

/-- ENGINE enters the next phase, or has no completion event to consume and is not waited for. -/
theorem EngineTo.frame_stepsTowards {s t : State} (h : EngineTo s t) (hf : FrameInFlight s)
    (hq : ¬FrameMoved s) :
    StepsTowards FrameInFlight frameMeasure frameAgent s .engine t := by
  have enters {u : State} (he : u.engine = s.engine)
      (hp : phasesLeft u.phase < phasesLeft s.phase) :
      StepsTowards FrameInFlight frameMeasure frameAgent s .engine u := by
    refine ⟨?_, .inl (frameMeasure_lt_of_phase hp)⟩
    unfold FrameInFlight
    rwa [he]
  cases h with
  | waits hw =>
    have hd : ¬s.tch.done = true := by
      obtain hd | ⟨hp, -⟩ := hw
      · simp [hd]
      · exact fun hd => hq ⟨hp, hd⟩
    have hne : Agent.engine ≠ frameAgent s := by
      rw [frameAgent, if_neg hd]
      split <;> nofun
    exact ⟨hf, .inr ⟨hne, rfl, rfl⟩⟩
  | postVsyncBlank _ hp => exact enters rfl (by rw [hp]; exact Nat.lt_succ_self _)
  | visible _ hp => exact enters rfl (by rw [hp]; exact Nat.lt_succ_self _)
  | postVisibleBlank _ hp => exact enters rfl (by rw [hp]; exact Nat.lt_succ_self _)
  | nextFrame hd hp => exact absurd ⟨hp, hd⟩ hq
  | parks hd hp => exact absurd ⟨hp, hd⟩ hq

/-- Each step brings the frame nearer to its end, or is not the one it waits for. -/
theorem CycleTo.frame_stepsTowards {a : Agent} {s t : State} (h : CycleTo s a t)
    (hs : Invariant s) (hf : FrameInFlight s) (hq : ¬FrameMoved s) :
    StepsTowards FrameInFlight frameMeasure frameAgent s a t := by
  cases h with
  | engine _ h => exact h.frame_stepsTowards hf hq
  | moved he =>
    obtain ⟨hrem, -⟩ := (tchEnabled_iff s).mp he
    refine ⟨hf, .inl (frameMeasure_lt_of_words rfl ?_)⟩
    simp only [tchMoved, List.length_append, List.length_singleton]
    omega
  | taken _ hlt h =>
    have htch : t.tch = s.tch := h.tch
    exact ⟨h.inFlight hf, .inl (frameMeasure_lt_of_words h.phase (by rw [htch]; omega))⟩
  | stays _ _ hengine htch htgen h =>
    exact ⟨h.inFlight hf, .inr ⟨ne_frameAgent hs hf hengine htch htgen, h.frameMeasure,
      h.frameAgent⟩⟩

/-- Once the frame's words have moved, only the ENGINE step goes on from there (R367). -/
theorem CycleTo.frameMoved {a : Agent} {s t : State} (h : CycleTo s a t) (hs : Invariant s)
    (hq : FrameMoved s) (ha : a ≠ .engine) : FrameMoved t := by
  obtain ⟨hp, hd⟩ := hq
  cases h with
  | engine => exact absurd rfl ha
  | moved he =>
    obtain ⟨-, heng, -⟩ := hs
    obtain ⟨-, -, hrem⟩ := heng.of_event hd
    obtain ⟨hpos, -⟩ := (tchEnabled_iff s).mp he
    omega
  | taken _ _ h => exact ⟨h.phase.trans hp, by rw [h.tch]; exact hd⟩
  | stays _ _ _ _ _ h => exact ⟨h.phase.trans hp, by rw [h.tch]; exact hd⟩

/-- A STOPPING engine stays so, and keeps its frame's handle, until it parks (R358, R359, R367). -/
theorem CycleTo.stopping {a : Agent} {s t : State} (h : CycleTo s a t)
    (he : s.engine = .stopping) :
    (t.engine = .stopping ∧ t.frameHandle = s.frameHandle) ∨
      (t.engine = .idle ∧ t.phase = .vsync) := by
  have stays {u : State} (h : CycleStays u t) (hu : u.engine = .stopping) :
      t.engine = .stopping := by
    obtain h | ⟨-, h⟩ := h.engine
    · exact h.trans hu
    · exact h
  cases h with
  | engine _ h =>
    cases h with
    | nextFrame _ _ hrunning => rw [he] at hrunning; cases hrunning
    | parks => exact .inr ⟨rfl, rfl⟩
    | _ => exact .inl ⟨he, rfl⟩
  | moved => exact .inl ⟨he, rfl⟩
  | taken _ _ h => exact .inl ⟨stays h he, h.frameHandle⟩
  | stays _ _ _ _ _ h => exact .inl ⟨stays h he, h.frameHandle⟩

/-! ### Along a fair run (R478) -/

section
variable {states : Nat → State} {turns : Nat → Turn} (hr : FairRun states turns)
include hr

theorem FairRun.cycle (n : Nat) (hf : FrameInFlight (states n)) :
    CycleTo (beginTurn (turns n) (states n)) (turns n).agent (states (n + 1)) :=
  agentStep_cycle (hr.agentStep n) (hr.noReset n) hf

/-- All words of a frame in flight are moved. -/
theorem FairRun.frame_moves {n : Nat} (hf : FrameInFlight (states n)) :
    ∃ m, n ≤ m ∧ FrameInFlight (states m) ∧ FrameMoved (states m) :=
  hr.leadsTo frameMeasure frameAgent (fun m hf hq => frameAgent_enabled (hr.invariant m) hf hq)
    (fun m hf hq => (hr.cycle m hf).frame_stepsTowards (hr.invariant_begun m) hf hq) hf

theorem FairRun.stopping_step {n : Nat} (he : (states n).engine = .stopping) :
    ((states (n + 1)).engine = .stopping ∧
        (states (n + 1)).frameHandle = (states n).frameHandle) ∨
      ((states (n + 1)).engine = .idle ∧ (states (n + 1)).phase = .vsync) :=
  (hr.cycle n (.inr he)).stopping he

/-- A STOPPING engine does not stay so: its frame's words are moved, and the ENGINE step then parks (R367). -/
theorem FairRun.stopping_ends {n : Nat} (he : (states n).engine = .stopping) :
    ∃ m, n ≤ m ∧ (states m).engine ≠ .stopping := by
  by_contra! hstopping
  obtain ⟨m, hm, -, hmoved⟩ := hr.frame_moves (.inr he)
  have enabled (k : Nat) (hk : m ≤ k) (hq : FrameMoved (states k)) :
      agentEnabled .engine (states k) = true := by
    obtain ⟨-, hd⟩ := hq
    exact (engineEnabled_iff _).mpr ⟨hd, fun _ h => by simp [hstopping k (by omega)] at h⟩
  have stays (k : Nat) (hk : m ≤ k) (hq : FrameMoved (states k)) (ha : (turns k).agent ≠ .engine) :
      FrameMoved (states (k + 1)) :=
    (hr.cycle k (.inr (hstopping k (by omega)))).frameMoved (hr.invariant_begun k) hq ha
  obtain ⟨k, hk, ⟨hp, hd⟩, hturn⟩ := hr.turn_comes hmoved enabled stays
  have hstep := hr.agentStep k
  have hne : (states k).engine ≠ .running := by simp [hstopping k (by omega)]
  rw [hturn] at hstep
  have hparked : states (k + 1) = park (eventConsumed (beginTurn (turns k) (states k))) :=
    (Host.Outcome.next.inj hstep).symm.trans (engineStep_parks hd hp hne)
  have hidle : (states (k + 1)).engine = .idle := by rw [hparked]; rfl
  simp [hstopping (k + 1) (by omega)] at hidle

theorem FairRun.framesComplete : FramesComplete states := fun _ he =>
  have ⟨m, hm, _, hmoved⟩ := hr.frame_moves (.inl he)
  ⟨m, hm, hmoved⟩

/-- The park comes with the first step that ends STOPPING (R359). -/
theorem FairRun.parks_within (d : Nat) : ∀ n, (states n).engine = .stopping →
    (states (n + d)).engine ≠ .stopping →
    ∃ m, n ≤ m ∧ (∀ k, n ≤ k → k ≤ m → (states k).engine = .stopping ∧
        (states k).frameHandle = (states n).frameHandle) ∧
      (states (m + 1)).engine = .idle ∧ (states (m + 1)).phase = .vsync := by
  induction d with
  | zero => exact fun n he hne => absurd he hne
  | succ d ih =>
    intro n he hne
    obtain ⟨he', hhandle⟩ | hparked := hr.stopping_step he
    · obtain ⟨m, hm, hall, hparked⟩ := ih (n + 1) he' (by rwa [Nat.add_right_comm])
      refine ⟨m, by omega, fun k hk hkm => ?_, hparked⟩
      obtain rfl | hlt := Nat.eq_or_lt_of_le hk
      · exact ⟨he, rfl⟩
      · obtain ⟨hek, hsame⟩ := hall k hlt hkm
        exact ⟨hek, hsame.trans hhandle⟩
    · refine ⟨n, le_refl n, fun k hk hkn => ?_, hparked⟩
      obtain rfl := Nat.le_antisymm hk hkn
      exact ⟨he, rfl⟩

theorem FairRun.stoppingParks : StoppingParks states := by
  intro n he
  obtain ⟨m, hm, hne⟩ := hr.stopping_ends he
  exact hr.parks_within (m - n) n he (by rwa [Nat.add_sub_cancel' hm])

end

end Sys2Proof.Machine

/-! PROOFS. The hosts of a fair run: where a host stands changes with its own turns alone, so it comes to its access, and a held CLEANUP to its release (spec 00_scope.md R52; 44_phase_engine.md R352; 70_reset_and_hazards.md R478). -/

namespace Sys2Proof.Machine

/-! ### Where a host stands changes with its own turns alone (R52, R91) -/

/-- Where HOST[h] stands: its context, and the command on its port with what it holds on. -/
def hostStanding (s : State) (h : Nat) : Option HostCtx × Option Hold × Word :=
  (s.hosts[h]?, (portAt s h).hold, (portAt s h).cmd)

theorem hostStanding_congr {s t : State} (hh : t.hosts = s.hosts) (hp : t.ports = s.ports)
    (h : Nat) : hostStanding t h = hostStanding s h := by
  simp only [hostStanding, portAt, hh, hp]

theorem hostStanding_updHost {n h : Nat} (hn : n ≠ h) (f : HostCtx → HostCtx) (s : State) :
    hostStanding (updHost n f s) h = hostStanding s h := by
  have hhost : (updHost n f s).hosts[h]? = s.hosts[h]? := List.getElem?_modify_ne _ _ hn
  rw [hostStanding, hhost]
  rfl

theorem hostStanding_updPort {n h : Nat} (hn : n ≠ h) (f : Port → Port) (s : State) :
    hostStanding (updPort n f s) h = hostStanding s h := by
  rw [hostStanding, portAt_updPort_ne hn]
  rfl

/-- An instruction changes neither a host nor a port but the one that issues it. -/
theorem ExecTo.hostStanding_eq {i : Instr} {s t : State} (he : ExecTo s i t) {h : Nat}
    (hn : s.port ≠ h) : hostStanding t h = hostStanding s h := by
  obtain ⟨-, hhosts, -⟩ := he.changesOnly.untouched
  obtain ⟨f, -, hports⟩ := he.ports
  exact (hostStanding_congr (s := updPort s.port f s) hhosts hports h).trans
    (hostStanding_updPort hn f s)

/-- No register store but one to CMD changes a command or its hold, whosever the port (R54, R410). -/
theorem hostStanding_regWrite (r : Reg) (v : Word) (s : State) (h : Nat) :
    hostStanding (regWrite r v s) h = hostStanding s h := by
  have arg (p : Nat) {f : Port → Port} (hf : ∀ q, (f q).hold = q.hold ∧ (f q).cmd = q.cmd) :
      hostStanding (updPort p f s) h = hostStanding s h := by
    unfold hostStanding
    rw [portAt_updPort]
    split
    · obtain ⟨hhold, hcmd⟩ := hf (portAt s h)
      rw [hhold, hcmd]
      rfl
    · rfl
  cases r with
  | arg0 p | arg1 p | arg2 p => exact arg p fun _ => ⟨rfl, rfl⟩
  | _ => rfl

theorem MemoryPathOnly.hostStanding_eq {s t : State} (hm : MemoryPathOnly s t) (h : Nat) :
    hostStanding t h = hostStanding s h := by
  rw [hm]
  rfl

theorem EngineTo.hostStanding_eq {s t : State} (he : EngineTo s t) (h : Nat) :
    hostStanding t h = hostStanding s h := by
  cases he <;> rfl

/-- The turn of another agent leaves a host where it stands. -/
theorem StepTo.hostStanding_eq {a : Agent} {s t : State} (hstep : StepTo s a t) (ha : a ≠ .reset)
    {h : Nat} (hne : a ≠ .host h) : hostStanding t h = hostStanding s h := by
  have other {n : Nat} (hn : Agent.host n ≠ .host h) : n ≠ h := fun e => hn (congrArg _ e)
  have issuing (n : Nat) (w : Word) (hn : n ≠ h) :
      hostStanding { updPort n (fun q => { q with cmd := w }) (takeAccess n s) with port := n } h =
        hostStanding s h :=
    (hostStanding_updPort hn _ _).trans (hostStanding_updHost hn _ s)
  cases hstep with
  | idle => rfl
  | load n =>
    have hn := other hne
    exact (hostStanding_updHost hn _ _).trans (hostStanding_updHost hn _ s)
  | goesOn n => exact hostStanding_updHost (other hne) _ s
  | refuse n => exact hostStanding_updHost (other hne) _ _
  | store n _ r v =>
    exact (hostStanding_regWrite r v _ h).trans (hostStanding_updHost (other hne) _ s)
  | issued n _ w i t _ _ _ _ he =>
    have hn := other hne
    exact (hostStanding_updHost hn _ t).trans
      (((exec_cases he).hostStanding_eq hn).trans (issuing n w hn))
  | issuedIllegal n _ w =>
    have hn := other hne
    exact (hostStanding_updHost hn _ _).trans ((hostStanding_updPort hn _ _).trans (issuing n w hn))
  | retried n _ i t _ _ _ he =>
    have hn := other hne
    exact (hostStanding_updHost hn _ t).trans ((exec_cases he).hostStanding_eq hn)
  | retriedIllegal n =>
    have hn := other hne
    exact (hostStanding_updHost hn _ _).trans (hostStanding_updPort hn _ _)
  | engine => exact (engineStep_cases s).hostStanding_eq h
  | tch => unfold tchStep; split <;> rfl
  | pch => exact (pchStep_memoryPathOnly s).hostStanding_eq h
  | pser => exact (pserStep_memoryPathOnly s).hostStanding_eq h
  | tgenIdle => rfl
  | tgenWord _ _ _ _ _ hd he => rw [(wordTo_of_exec hd he).frame]; rfl
  | outside w v => exact (outsideStore_memoryPathOnly w v s).hostStanding_eq h
  | reset => exact absurd rfl ha

/-! ### A CLEANUP held in STOPPING (R352, R353) -/

/-- HOST[h] is held in a CMD store of CLEANUP to its port, until the park. -/
structure CleanupHeld (s : State) (h : Nat) : Prop where
  host : ∃ c, s.hosts[h]? = some c ∧ c.status = .waiting
  hold : (portAt s h).hold = some .park
  cmd : (portAt s h).cmd = 0x00000002#32

theorem CleanupHeld.of_hostStanding {s t : State} {h : Nat} (hc : CleanupHeld s h)
    (hst : hostStanding t h = hostStanding s h) : CleanupHeld t h := by
  obtain ⟨hhost, hhold, hcmd⟩ := hc
  simp only [hostStanding, Prod.mk.injEq] at hst
  obtain ⟨ehost, ehold, ecmd⟩ := hst
  exact ⟨ehost ▸ hhost, ehold.trans hhold, ecmd.trans hcmd⟩

/-- A port that holds a command is one the block has. -/
theorem port_lt_of_hold {s : State} {h : Nat} {k : Hold} (hh : (portAt s h).hold = some k) :
    h < s.ports.length := by
  by_contra hge
  simp [portAt, List.getElem?_eq_none (Nat.le_of_not_lt hge), Port.atReset] at hh

/-- A host whose command has completed has nothing pending and goes on (R53). -/
theorem settle_completed_ready {s : State} (hp : s.port < s.ports.length) {c : HostCtx}
    (hc : s.hosts[s.port]? = some c) :
    (portAt (settle s.port (completed s)) s.port).hold = none ∧
      ((settle s.port (completed s)).hosts[s.port]?).map HostCtx.status = some .ready :=
  have hnone := portAt_completed_hold hp
  ⟨hnone, settle_status_ready hc hnone⟩

section
variable {s : State} {h : Nat} (hc : CleanupHeld s h)
include hc

/-- Its host's turn tries the CLEANUP once more (R353). -/
theorem CleanupHeld.turn_eq :
    agentStep (.host h) s = mapNext (settle h) (exec .cleanup { s with port := h }) := by
  obtain ⟨⟨c, hc, hs⟩, hhold, hcmd⟩ := hc
  have hd : decodeCommand (portAt s h).cmd = .ok .cleanup := by rw [hcmd]; decide
  have hturn : agentStep (.host h) s = resume h s := hostTurn_waiting hc hs
  rw [hturn, resume_of_hold hhold, if_neg nofun, perform_of_decode hd]

/-- Until the park it keeps holding. -/
theorem CleanupHeld.holds_on (he : s.engine ≠ .idle) {t : State}
    (ht : agentStep (.host h) s = .next t) : CleanupHeld t h := by
  obtain ⟨-, hheld⟩ := cleanupReleases { s with port := h }
  obtain ⟨-, hwaits⟩ := hheld hc.hold
  rw [hc.turn_eq, hwaits he] at ht
  obtain rfl := Host.Outcome.next.inj ht
  obtain ⟨⟨c, hhost, -⟩, hhold, hcmd⟩ := hc
  have hstatus := settle_status_waiting (s := { s with port := h }) hhost hhold
  exact ⟨Option.map_eq_some_iff.mp hstatus, hhold, hcmd⟩

/-- With the engine parked it releases: nothing is pending any more, and the host goes on. -/
theorem CleanupHeld.releases (he : s.engine = .idle) {t : State}
    (ht : agentStep (.host h) s = .next t) :
    t.engine = .uninit ∧ (portAt t h).hold = none ∧
      ∃ c, t.hosts[h]? = some c ∧ c.status = .ready := by
  obtain ⟨-, hheld⟩ := cleanupReleases { s with port := h }
  obtain ⟨hperforms, -⟩ := hheld hc.hold
  rw [hc.turn_eq, hperforms he] at ht
  obtain rfl := Host.Outcome.next.inj ht
  obtain ⟨⟨c, hhost, -⟩, hhold, -⟩ := hc
  obtain ⟨hnone, hready⟩ := settle_completed_ready (s := { s with port := h, engine := .uninit })
    (port_lt_of_hold hhold) hhost
  exact ⟨rfl, hnone, Option.map_eq_some_iff.mp hready⟩

/-- With the engine parked its host is enabled. -/
theorem CleanupHeld.enabled (he : s.engine = .idle) : agentEnabled (.host h) s = true := by
  obtain ⟨⟨c, hhost, hs⟩, hhold, -⟩ := hc
  simp [agentEnabled, hostEnabled, hhost, hs, hhold, holdMet, he]

end

/-! ### Along a fair run (R478) -/

section
variable {states : Nat → State} {turns : Nat → Turn} (hr : FairRun states turns)
include hr

theorem FairRun.hostStanding_eq {n h : Nat} (ha : (turns n).agent ≠ .host h) :
    hostStanding (states (n + 1)) h = hostStanding (states n) h :=
  (agentStep_cases (hr.agentStep n)).hostStanding_eq (hr.noReset n) ha

/-- A held CLEANUP is held after any turn, unless it is its host's and the engine is parked. -/
theorem FairRun.cleanup_stays {n h : Nat} (hc : CleanupHeld (states n) h)
    (ha : (turns n).agent ≠ .host h ∨ (states n).engine ≠ .idle) :
    CleanupHeld (states (n + 1)) h := by
  by_cases hturn : (turns n).agent = .host h
  · have hstep := hr.agentStep n
    rw [hturn] at hstep
    have hbegun : CleanupHeld (beginTurn (turns n) (states n)) h := hc.of_hostStanding rfl
    exact hbegun.holds_on (ha.resolve_left (not_not.mpr hturn)) hstep
  · exact hc.of_hostStanding (hr.hostStanding_eq hturn)

/-- It is still held when the engine has parked. -/
theorem FairRun.cleanup_comesFree {n h : Nat} (he : (states n).engine = .stopping)
    (hc : CleanupHeld (states n) h) :
    ∃ m, n ≤ m ∧ (states m).engine = .idle ∧ CleanupHeld (states m) h := by
  obtain ⟨m, hm, hstopping, hidle, -⟩ := hr.stoppingParks n he
  have hne (k : Nat) (hk : n ≤ k) (hkm : k ≤ m) : (states k).engine ≠ .idle := by
    simp [(hstopping k hk hkm).1]
  have hheld (k : Nat) (hk : n ≤ k) : k ≤ m + 1 → CleanupHeld (states k) h := by
    induction k, hk using Nat.le_induction with
    | base => exact fun _ => hc
    | succ k hk ih =>
      exact fun hkm => hr.cleanup_stays (ih (by omega)) (.inr (hne k hk (by omega)))
  exact ⟨m + 1, by omega, hidle, hheld (m + 1) (by omega) (le_refl _)⟩

theorem FairRun.heldCleanupComesFree : HeldCleanupComesFree states := by
  intro n h c he hc hs hhold hcmd
  obtain ⟨m, hm, hidle, ⟨c', hc', hs'⟩, hhold', hcmd'⟩ :=
    hr.cleanup_comesFree he ⟨⟨c, hc, hs⟩, hhold, hcmd⟩
  exact ⟨m, c', hm, hidle, hc', hs', hhold', hcmd'⟩

/-- From the park on its host is enabled, and its turn releases. -/
theorem FairRun.heldCleanupCompletes : HeldCleanupCompletes states turns := by
  intro n h c he hc hs hhold hcmd hothers
  obtain ⟨m, hm, hidle, hheld⟩ := hr.cleanup_comesFree he ⟨⟨c, hc, hs⟩, hhold, hcmd⟩
  obtain ⟨k, hk, ⟨hidle, hheld⟩, hturn⟩ := hr.turn_comes (a := .host h)
    (P := fun k => (states k).engine = .idle ∧ CleanupHeld (states k) h) ⟨hidle, hheld⟩
    (fun k _ ⟨hidle, hheld⟩ => hheld.enabled hidle)
    (fun k hk ⟨hidle, hheld⟩ ha =>
      ⟨hothers k (by omega) hidle ha, hr.cleanup_stays hheld (.inl ha)⟩)
  have hstep := hr.agentStep k
  rw [hturn] at hstep
  have hbegun : CleanupHeld (beginTurn (turns k) (states k)) h := hheld.of_hostStanding rfl
  obtain ⟨huninit, hnone, c', hc', hready⟩ := hbegun.releases hidle hstep
  exact ⟨k, c', by omega, hturn, hidle, huninit, hnone, hc', hready⟩

theorem FairRun.hostsGoOn : HostsGoOn states turns := by
  intro n h c hc hs hprogram
  obtain ⟨m, hm, hc', hturn⟩ := hr.turn_comes (a := .host h)
    (P := fun m => (states m).hosts[h]? = some c) hc
    (fun m _ hc => by simp [agentEnabled, hostEnabled, hc, hs, hprogram])
    (fun m _ hc ha => (congrArg Prod.fst (hr.hostStanding_eq ha)).trans hc)
  exact ⟨m, hm, hturn, hc'⟩

end

/-- Settles O58: the five consequences of fairness, each along the run. -/
theorem fairRunsMakeProgress : Obligations.FairRunsMakeProgress := by
  intro states turns hrun hfair hnoReset hstart
  have hr : FairRun states turns := ⟨hrun, hfair, hnoReset, hstart⟩
  exact ⟨hr.framesComplete, hr.stoppingParks, hr.heldCleanupComesFree, hr.heldCleanupCompletes,
    hr.hostsGoOn⟩

end Sys2Proof.Machine

/-! PROOFS. The end of a fair run: with the hosts done and no new frame to come, the engine parks, and TGEN, PCH and PSER drain (spec 44_phase_engine.md R368; 70_reset_and_hazards.md R477, R478). -/

namespace Sys2Proof.Machine

/-! ### A machine whose hosts are done (R477) -/

/-- Every host is done, no frame comes after the one in flight, and PCH's reads are admitted: what `RunsEnd` asks of the machine at the point from which the run ends. -/
structure WindsDown (s : State) : Prop where
  hosts : hostsDone s
  engine : s.engine ≠ .running
  reads : PixelReadsAdmitted s

theorem hostTurn_of_done {s : State} (hd : hostsDone s) (h : Nat) : hostTurn h s = .next s := by
  unfold hostTurn
  split
  · rfl
  · next c hc =>
    obtain ⟨hs, hp⟩ := hd c (List.mem_of_getElem? hc)
    simp [hs, hp]

/-- The steps of a machine whose hosts are done. -/
inductive DoneTo (s : State) : Agent → State → Prop where
  /-- A host has no step, and an agent outside the block stores a byte at most (R87). -/
  | outer (a : Agent) (t : State) (htgen : a ≠ .tgen) (hpch : a ≠ .pch) (hpser : a ≠ .pser)
      (h : t = { s with mem := t.mem, refusalMark := t.refusalMark }) : DoneTo s a t
  | engine (t : State) (h : EngineTo s t) : DoneTo s .engine t
  | tch : DoneTo s .tch (tchStep s)
  | tgen (t : State) (h : TgenTo s t) : DoneTo s .tgen t
  | pch : DoneTo s .pch (pchStep s)
  | pser : DoneTo s .pser (pserStep s)

theorem agentStep_done {a : Agent} {s t : State} (h : agentStep a s = .next t)
    (ha : a ≠ .reset) (hd : hostsDone s) : DoneTo s a t := by
  cases a with
  | host n =>
    obtain rfl := Host.Outcome.next.inj ((hostTurn_of_done hd n).symm.trans h)
    exact .outer _ _ nofun nofun nofun rfl
  | engine => obtain rfl := Host.Outcome.next.inj h; exact .engine _ (engineStep_cases s)
  | tch => obtain rfl := Host.Outcome.next.inj h; exact .tch
  | tgen => exact .tgen t (tgenTurn_cases h)
  | pch => obtain rfl := Host.Outcome.next.inj h; exact .pch
  | pser => obtain rfl := Host.Outcome.next.inj h; exact .pser
  | outside w v =>
    obtain rfl := Host.Outcome.next.inj h
    refine .outer _ _ nofun nofun nofun ?_
    unfold outsideStore
    split <;> rfl
  | reset => exact absurd rfl ha

/-! ### PCH's reads stay admitted (R376) -/

theorem spanAdmitted_congr {s t : State} (hp : t.plat = s.plat) (base n : Nat) :
    SpanAdmitted t base n ↔ SpanAdmitted s base n := by
  simp only [SpanAdmitted, admits, inWindow, hp]

theorem PixelReadsAdmitted.of_eq {s t : State} (h : PixelReadsAdmitted s) (hp : t.plat = s.plat)
    (hpch : t.pch = s.pch) : PixelReadsAdmitted t := by
  unfold PixelReadsAdmitted at h ⊢
  rwa [hpch, spanAdmitted_congr hp]

/-- The words after the one PCH moves lie in the span that was admitted. -/
theorem SpanAdmitted.next_word {s : State} {a : Word} {n : Nat}
    (h : SpanAdmitted s a.toNat (4 * (n + 1))) (hn : 0 < n) :
    wrapsAfter a = false ∧ SpanAdmitted s (a + 4#32).toNat (4 * n) := by
  obtain ⟨hfits, hall⟩ := h
  have hnext : (a + 4#32).toNat = a.toNat + 4 := by
    rw [BitVec.toNat_add, BitVec.toNat_ofNat]
    omega
  refine ⟨decide_eq_false (by omega), by omega, fun k hk => ?_⟩
  rw [hnext, Nat.add_assoc]
  exact hall (4 + k) (by omega)

theorem pchMoved_readsAdmitted {s : State} (h : PixelReadsAdmitted s) :
    PixelReadsAdmitted (pchMoved s) := by
  intro hrem
  have hrem : 0 < s.pch.rem - 1 := hrem
  obtain ⟨-, hspan⟩ := h (by omega)
  rw [show s.pch.rem = s.pch.rem - 1 + 1 by omega] at hspan
  exact hspan.next_word hrem

/-- A word to read and admitted is one PCH can move (R80, R377). -/
theorem SpanAdmitted.word {s : State} {a : Word} {n : Nat} (h : SpanAdmitted s a.toNat (4 * n))
    (hn : 0 < n) : admitsWord s a = true := by
  obtain ⟨-, hall⟩ := h
  have byte (k : Nat) (hk : k < 4) : admits s (a + BitVec.ofNat 32 k) = true := by
    have := hall k (by omega)
    rwa [BitVec.ofNat_add, BitVec.ofNat_toNat, BitVec.setWidth_eq] at this
  have hfirst : admits s a = true := by simpa using byte 0 (by decide)
  simp only [admitsWord, Bool.and_eq_true]
  exact ⟨⟨⟨hfirst, byte 1 (by decide)⟩, byte 2 (by decide)⟩, byte 3 (by decide)⟩

/-! ### Every step keeps winding down -/

theorem WindsDown.of_eq {s t : State} (h : WindsDown s) (hh : t.hosts = s.hosts)
    (he : t.engine ≠ .running) (hp : t.plat = s.plat) (hpch : t.pch = s.pch) : WindsDown t := by
  refine ⟨?_, he, h.reads.of_eq hp hpch⟩
  unfold hostsDone
  rw [hh]
  exact h.hosts

/-- TGEN's turn touches neither the hosts, nor the engine, nor the pixel channel. -/
theorem TgenTo.frame {s t : State} (h : TgenTo s t) :
    t = { s with
      tgen := t.tgen, pser := t.pser, hsync := t.hsync, vsync := t.vsync
      executed := t.executed, history := t.history } := by
  cases h with
  | idles => rfl
  | word _ _ _ _ h => exact h.frame

theorem DoneTo.windsDown {a : Agent} {s t : State} (h : DoneTo s a t) (hs : WindsDown s) :
    WindsDown t := by
  have hne := hs.engine
  cases h with
  | outer _ _ _ _ _ h => rw [h]; exact hs.of_eq rfl hne rfl rfl
  | engine _ h =>
    cases h with
    | waits => exact hs
    | nextFrame _ _ he => exact absurd he hne
    | parks => exact hs.of_eq rfl nofun rfl rfl
    | _ => exact hs.of_eq rfl hne rfl rfl
  | tch =>
    unfold tchStep
    split
    · exact hs.of_eq rfl hne rfl rfl
    · exact hs
  | tgen _ h => rw [h.frame]; exact hs.of_eq rfl hne rfl rfl
  | pch =>
    by_cases he : pchEnabled s = true
    · rw [pchStep_enabled he]
      exact ⟨hs.hosts, hne, pchMoved_readsAdmitted hs.reads⟩
    · rwa [pchStep_disabled he]
  | pser =>
    have hpath := pserStep_memoryPathOnly s
    obtain ⟨hpch, -⟩ := (pserStep_cases s).pch_fifo
    exact hs.of_eq hpath.hosts (by rw [hpath]; exact hne) hpath.plat hpch

/-! ### A parked machine drains (R368) -/

/-- The engine has parked, or has been released (R477 (b)). -/
def Parked (s : State) : Prop := s.engine = .uninit ∨ s.engine = .idle

/-- The steps of a parked machine whose hosts are done: ENGINE and TCH have none (R368). -/
inductive DrainTo (s : State) : Agent → State → Prop where
  | outer (a : Agent) (t : State) (htgen : a ≠ .tgen) (hpch : a ≠ .pch) (hpser : a ≠ .pser)
      (h : t = { s with mem := t.mem, refusalMark := t.refusalMark }) : DrainTo s a t
  | tgen (t : State) (h : TgenTo s t) : DrainTo s .tgen t
  | pch : DrainTo s .pch (pchStep s)
  | pser : DrainTo s .pser (pserStep s)

theorem DoneTo.drain {a : Agent} {s t : State} (h : DoneTo s a t) (hs : Invariant s)
    (hp : Parked s) : DrainTo s a t := by
  obtain ⟨-, ⟨hparked, -⟩, -⟩ := hs
  obtain ⟨hrem, hdone, -⟩ := hparked hp
  cases h with
  | outer _ _ htgen hpch hpser h => exact .outer a t htgen hpch hpser h
  | engine _ h =>
    cases h with
    | waits => exact .outer _ _ nofun nofun nofun rfl
    | _ hd => rw [hdone] at hd; cases hd
  | tch =>
    have hoff : ¬tchEnabled s = true := fun he => by
      obtain ⟨hpos, -⟩ := (tchEnabled_iff s).mp he
      omega
    rw [tchStep_disabled hoff]
    exact .outer _ _ nofun nofun nofun rfl
  | tgen _ h => exact .tgen t h
  | pch => exact .pch
  | pser => exact .pser

theorem DrainTo.parked {a : Agent} {s t : State} (h : DrainTo s a t) (hp : Parked s) :
    Parked t := by
  cases h with
  | outer _ _ _ _ _ h => rw [h]; exact hp
  | tgen _ h => rw [h.frame]; exact hp
  | pch => rw [pchStep_memoryPathOnly s]; exact hp
  | pser => rw [pserStep_memoryPathOnly s]; exact hp

/-- Only TGEN's own turn changes TGEN. -/
theorem DrainTo.tgen_eq {a : Agent} {s t : State} (h : DrainTo s a t) (ha : a ≠ .tgen) :
    t.tgen = s.tgen := by
  cases h with
  | outer _ _ _ _ _ h => rw [h]
  | tgen => exact absurd rfl ha
  | pch => rw [pchStep_memoryPathOnly s]
  | pser => rw [pserStep_memoryPathOnly s]

/-! ### TGEN drains (R211, R368, R375) -/

/-- TGEN has executed its last word and ended it (R211, log M12). -/
def TgenIdle (s : State) : Prop := s.tgen.fifo = [] ∧ s.tgen.cur = none

theorem tgenEnabled_of_not_idle {s : State} (hq : ¬TgenIdle s) : tgenEnabled s = true := by
  by_contra he
  simp only [tgenEnabled, Bool.or_eq_true, Bool.not_eq_true', List.isEmpty_eq_false_iff,
    Option.isSome_iff_ne_none, not_or, not_not] at he
  exact hq he

/-- What TGEN has still to do: two steps a word, for the last is ended by one of its own. -/
def tgenMeasure (s : State) : Nat := 2 * s.tgen.fifo.length + s.tgen.cur.toList.length

/-- TGEN's turn brings it nearer to its idle state. -/
theorem TgenTo.measure_lt {s t : State} (h : TgenTo s t) (hq : ¬TgenIdle s) :
    tgenMeasure t < tgenMeasure s := by
  cases h with
  | idles hf =>
    cases hc : s.tgen.cur with
    | none => exact absurd ⟨hf, hc⟩ hq
    | some w => simp [tgenMeasure, tgenIdle, hf, hc]
  | word q qs _ hf h =>
    have hone : t.tgen.cur.toList.length ≤ 1 := Option.length_toList_le
    simp only [tgenMeasure, h.queue, hf, List.length_cons]
    omega

theorem DrainTo.tgenMeasure {a : Agent} {s t : State} (h : DrainTo s a t) (hq : ¬TgenIdle s) :
    tgenMeasure t < tgenMeasure s ∨ (a ≠ .tgen ∧ tgenMeasure t = tgenMeasure s) := by
  by_cases ha : a = .tgen
  · subst ha
    cases h with
    | outer _ _ hne => exact absurd rfl hne
    | tgen _ h => exact .inl (h.measure_lt hq)
  · exact .inr ⟨ha, by rw [Machine.tgenMeasure, Machine.tgenMeasure, h.tgen_eq ha]⟩

/-- An idle TGEN stays idle, and PCH and PSER then step alone. -/
theorem DrainTo.tgenIdle {a : Agent} {s t : State} (h : DrainTo s a t) (hi : TgenIdle s) :
    TgenIdle t ∧ (a ≠ .pch → a ≠ .pser → t.pch = s.pch ∧ t.pser = s.pser) := by
  have idle (ha : a ≠ .tgen) : TgenIdle t := by
    rw [TgenIdle, h.tgen_eq ha]
    exact hi
  cases h with
  | outer _ _ hne _ _ h => exact ⟨idle hne, fun _ _ => by rw [h]; exact ⟨rfl, rfl⟩⟩
  | tgen _ h =>
    obtain ⟨hempty, -⟩ := hi
    cases h with
    | idles hf => exact ⟨⟨hf, rfl⟩, fun _ _ => ⟨rfl, rfl⟩⟩
    | word q qs _ hf => rw [hempty] at hf; cases hf
  | pch => exact ⟨idle nofun, fun h => absurd rfl h⟩
  | pser => exact ⟨idle nofun, fun _ h => absurd rfl h⟩

/-! ### PCH and PSER drain (R377, R378) -/

/-- Nothing is left to read, to shift or to begin (R477, log M31). -/
def PixelsDone (s : State) : Prop :=
  s.pch.rem = 0 ∧ s.pser.fifo = [] ∧ s.pser.left = 0 ∧ s.pser.triggers = []

/-- What PCH and PSER have still to do: a word is read and then shifted, a line begun. -/
def pixelMeasure (s : State) : Nat :=
  2 * s.pch.rem + s.pser.fifo.length + s.pser.triggers.length

/-- The agent the pixels wait for: PSER where it can step, else PCH. -/
def pixelAgent (s : State) : Agent := if pserEnabled s = true then .pser else .pch

theorem pserEnabled_iff (s : State) :
    pserEnabled s = true ↔ (s.pser.left = 0 ∧ s.pser.triggers ≠ []) ∨
      (0 < s.pser.left ∧ s.pser.fifo ≠ []) := by
  unfold pserEnabled
  split
  · next h => simp [h]
  · next h => simp [h, Nat.pos_of_ne_zero h]

theorem pserStep_disabled {s : State} (h : ¬pserEnabled s = true) : pserStep s = s := by
  rw [pserEnabled_iff] at h
  refine pserStep_waits ?_
  obtain h0 | hpos := Nat.eq_zero_or_pos s.pser.left
  · exact .inl ⟨h0, by_contra fun ht => h (.inl ⟨h0, ht⟩)⟩
  · exact .inr ⟨hpos, by_contra fun hf => h (.inr ⟨hpos, hf⟩)⟩

theorem pserStep_measure_lt {s : State} (h : pserEnabled s = true) :
    pixelMeasure (pserStep s) < pixelMeasure s := by
  obtain ⟨h0, ht⟩ | ⟨hpos, hf⟩ := (pserEnabled_iff s).mp h
  · obtain ⟨l, rest, ht⟩ := List.exists_cons_of_ne_nil ht
    rw [pserStep_begin h0 ht]
    simp [pixelMeasure, pserBegin, ht]
  · obtain ⟨w, rest, hf⟩ := List.exists_cons_of_ne_nil hf
    rw [pserStep_shift hpos hf]
    unfold pserShift
    split <;> simp [pixelMeasure, hf]

theorem pchMoved_measure_lt {s : State} (h : pchEnabled s = true) :
    pixelMeasure (pchMoved s) < pixelMeasure s := by
  obtain ⟨hrem, -⟩ := (pchEnabled_iff s).mp h
  simp only [pixelMeasure, pchMoved, List.length_append, List.length_singleton]
  omega

/-- By the balance the pixels left to shift are those left to read: where PSER waits, it waits for a word that PCH can read (R378). -/
theorem pixelAgent_enabled {s : State} (hs : Invariant s) (hpix : PixelInv s)
    (hreads : PixelReadsAdmitted s) (hp : Parked s) (hi : TgenIdle s) (hq : ¬PixelsDone s) :
    agentEnabled (pixelAgent s) s = true := by
  unfold pixelAgent
  split
  · next he => exact he
  next he =>
  obtain ⟨-, heng, -, -, -, hplat⟩ := hs
  obtain ⟨-, hroom⟩ := hplat.depths
  obtain ⟨-, -, -, -, hbal⟩ := hpix
  obtain ⟨hqueue, -⟩ := hi
  rw [hqueue, linesAhead_parked heng hp] at hbal
  simp only [pixelsQueued] at hbal
  rw [pserEnabled_iff] at he
  obtain h0 | hpos := Nat.eq_zero_or_pos s.pser.left
  · have ht : s.pser.triggers = [] := by_contra fun ht => he (.inl ⟨h0, ht⟩)
    rw [h0, ht] at hbal
    simp only [pixelsTriggered] at hbal
    exact absurd ⟨by omega, List.length_eq_zero_iff.mp (by omega), h0, ht⟩ hq
  · have hf : s.pser.fifo = [] := by_contra fun hf => he (.inr ⟨hpos, hf⟩)
    rw [hf, List.length_nil] at hbal
    have hrem : 0 < s.pch.rem := by omega
    obtain ⟨hpast, hspan⟩ := hreads hrem
    exact (pchEnabled_iff s).mpr ⟨hrem, by rw [hf]; exact hroom, hpast, hspan.word hrem⟩

/-- With TGEN idle, each step does one of the things left, or is not the one the pixels wait for. -/
theorem DrainTo.pixelMeasure {a : Agent} {s t : State} (h : DrainTo s a t) (hi : TgenIdle s)
    (he : agentEnabled (pixelAgent s) s = true) :
    pixelMeasure t < pixelMeasure s ∨
      (a ≠ pixelAgent s ∧ pixelMeasure t = pixelMeasure s ∧ pixelAgent t = pixelAgent s) := by
  have waits {b : Agent} (hoff : ¬agentEnabled b s = true) : b ≠ pixelAgent s :=
    fun hb => hoff (hb ▸ he)
  by_cases hpch : a = .pch
  · subst hpch
    cases h with
    | outer _ _ _ hne => exact absurd rfl hne
    | pch =>
      by_cases hon : pchEnabled s = true
      · rw [pchStep_enabled hon]; exact .inl (pchMoved_measure_lt hon)
      · rw [pchStep_disabled hon]; exact .inr ⟨waits hon, rfl, rfl⟩
  by_cases hpser : a = .pser
  · subst hpser
    cases h with
    | outer _ _ _ _ hne => exact absurd rfl hne
    | pser =>
      by_cases hon : pserEnabled s = true
      · exact .inl (pserStep_measure_lt hon)
      · rw [pserStep_disabled hon]; exact .inr ⟨waits hon, rfl, rfl⟩
  obtain ⟨-, hsame⟩ := h.tgenIdle hi
  obtain ⟨epch, epser⟩ := hsame hpch hpser
  have hne : a ≠ pixelAgent s := by
    unfold pixelAgent
    split
    · exact hpser
    · exact hpch
  refine .inr ⟨hne, ?_, ?_⟩
  · rw [Machine.pixelMeasure, Machine.pixelMeasure, epch, epser]
  · rw [pixelAgent, pixelAgent, pserEnabled, pserEnabled, epser]

/-! ### Along a fair run (R477, R478) -/

/-- The run winds down with its engine parked. -/
structure Drains (s : State) : Prop where
  winds : WindsDown s
  parked : Parked s

/-- Parked, with TGEN idle and the pixels done, there is nothing left to do (R477). -/
theorem ended_of_drained {s : State} (hs : Invariant s) (hd : Drains s) (hi : TgenIdle s)
    (hq : PixelsDone s) : ended s := by
  obtain ⟨-, ⟨hparked, -⟩, -⟩ := hs
  obtain ⟨hw, hp⟩ := hd
  obtain ⟨hrem, hdone, -⟩ := hparked hp
  obtain ⟨hqueue, hcur⟩ := hi
  obtain ⟨hpch, hfifo, hleft, htrig⟩ := hq
  exact ⟨hw.hosts, hp, hrem, hdone, hqueue, hcur, hpch, hfifo, hleft, htrig⟩

section
variable {states : Nat → State} {turns : Nat → Turn} (hr : FairRun states turns)
include hr

theorem FairRun.done {n : Nat} (hw : WindsDown (states n)) :
    DoneTo (beginTurn (turns n) (states n)) (turns n).agent (states (n + 1)) :=
  agentStep_done (hr.agentStep n) (hr.noReset n) hw.hosts

theorem FairRun.windsDown_step {n : Nat} (hw : WindsDown (states n)) :
    WindsDown (states (n + 1)) :=
  (hr.done hw).windsDown (hw.of_eq rfl hw.engine rfl rfl)

theorem FairRun.drain {n : Nat} (hd : Drains (states n)) :
    DrainTo (beginTurn (turns n) (states n)) (turns n).agent (states (n + 1)) :=
  (hr.done hd.winds).drain (hr.invariant_begun n) hd.parked

theorem FairRun.drains_step {n : Nat} (hd : Drains (states n)) : Drains (states (n + 1)) :=
  ⟨hr.windsDown_step hd.winds, (hr.drain hd).parked hd.parked⟩

/-- The engine parks, if it has not yet (R359). -/
theorem FairRun.comes_to_drain {n : Nat} (hw : WindsDown (states n)) :
    ∃ m, n ≤ m ∧ Drains (states m) := by
  have winds (m : Nat) (hm : n ≤ m) : WindsDown (states m) :=
    Nat.le_induction hw (fun _ _ => hr.windsDown_step) m hm
  cases he : (states n).engine with
  | uninit => exact ⟨n, le_refl n, hw, .inl he⟩
  | idle => exact ⟨n, le_refl n, hw, .inr he⟩
  | running => exact absurd he hw.engine
  | stopping =>
    obtain ⟨m, hm, -, hidle, -⟩ := hr.stoppingParks n he
    exact ⟨m + 1, by omega, winds _ (by omega), .inr hidle⟩

theorem FairRun.tgen_drains {n : Nat} (hd : Drains (states n)) :
    ∃ m, n ≤ m ∧ Drains (states m) ∧ TgenIdle (states m) :=
  hr.leadsTo tgenMeasure (fun _ => .tgen) (fun _ _ hq => tgenEnabled_of_not_idle hq)
    (fun _ hd hq => ⟨hr.drains_step hd,
      ((hr.drain hd).tgenMeasure hq).imp_right fun ⟨hne, heq⟩ => ⟨hne, heq, rfl⟩⟩) hd

theorem FairRun.pixels_drain (hpix : PixelInv (states 0)) {n : Nat} (hd : Drains (states n))
    (hi : TgenIdle (states n)) :
    ∃ m, n ≤ m ∧ (Drains (states m) ∧ TgenIdle (states m)) ∧ PixelsDone (states m) := by
  have enabled (m : Nat) : Drains (states m) ∧ TgenIdle (states m) → ¬PixelsDone (states m) →
      agentEnabled (pixelAgent (states m)) (states m) = true := by
    intro ⟨hd, hi⟩ hq
    obtain ⟨hs, hbalance⟩ := hr.keeps pixelInv_stepStable hpix m
    exact pixelAgent_enabled hs hbalance hd.winds.reads hd.parked hi hq
  refine hr.leadsTo (P := fun s => Drains s ∧ TgenIdle s) pixelMeasure pixelAgent enabled
    (fun m hp hq => ?_) ⟨hd, hi⟩
  obtain ⟨hd, hi⟩ := id hp
  obtain ⟨hi', -⟩ := (hr.drain hd).tgenIdle hi
  exact ⟨⟨hr.drains_step hd, hi'⟩, (hr.drain hd).pixelMeasure hi (enabled m hp hq)⟩

theorem FairRun.runsEnd (hpix : PixelInv (states 0)) : RunsEnd states := by
  intro n hdone hne hreads
  obtain ⟨m, hm, hd⟩ := hr.comes_to_drain ⟨hdone, hne, hreads⟩
  obtain ⟨k, hk, hd, hi⟩ := hr.tgen_drains hd
  obtain ⟨l, hl, ⟨hd, hi⟩, hq⟩ := hr.pixels_drain hpix hd hi
  exact ⟨l, by omega, ended_of_drained (hr.invariant l) hd hi hq⟩

end

/-- Settles O59: the engine parks, TGEN drains, and then PCH and PSER do. -/
theorem fairRunsEnd : Obligations.FairRunsEnd := by
  intro states turns hrun hfair hnoReset hstart hpix
  have hr : FairRun states turns := ⟨hrun, hfair, hnoReset, hstart⟩
  exact hr.runsEnd hpix

end Sys2Proof.Machine
